-- ==== Sys2Proof/Word.lean ====
section
/-! DEFINITION. The widths of the machine: words, bytes, instruction words, register numbers, and the two register widths
that a mode can be configured with (rule R4). -/

namespace Sys2Proof

/-- A register's contents. Every register is held in 64 bits, the largest admitted width (R4). A `WLEN`-bit or
`SXLEN`-bit register with a width of 32 has its upper 32 bits zero (the invariant `State.Inv` says so). -/
abbrev Word := BitVec 64

/-- One byte of memory (R38). -/
abbrev Byte := BitVec 8

/-- An instruction word: every instruction is one 32-bit word (R70). -/
abbrev InstrWord := BitVec 32

/-- The 5-bit number of an integer register (R10, R71). -/
abbrev RegIdx := BitVec 5

/-- The 12-bit address of a control and status register (R73, R75). -/
abbrev CsrAddr := BitVec 12

/-- A register width: 32 or 64 (R4; 128 is refused by the spec, so it is not a value of this type). -/
inductive Xlen where
  | x32
  | x64
deriving DecidableEq, Repr

/-- The width in bits. -/
def Xlen.bits : Xlen → Nat
  | .x32 => 32
  | .x64 => 64

end Sys2Proof
end

