-- ==== Sys2Proof/Syntax.lean ====
section
/-! DEFINITION. The abstract syntax of the 18 instructions of spec/opcode_table.json, one constructor per row. -/

namespace Sys2Proof

/-- The instructions. Operands are the fields of the encoding (R71, R73): register numbers `rd`, `rs1`, `rs2`, a CSR address
`csr`, a 5-bit unsigned immediate `uimm`, and immediates as they stand in the instruction, before sign extension. -/
inductive Instr where
  /-- R101: atomic read and write of a CSR. -/
  | csrrw (rd : RegIdx) (csr : CsrAddr) (rs1 : RegIdx)
  /-- R102: atomic read and set bits. -/
  | csrrs (rd : RegIdx) (csr : CsrAddr) (rs1 : RegIdx)
  /-- R103: atomic read and clear bits. -/
  | csrrc (rd : RegIdx) (csr : CsrAddr) (rs1 : RegIdx)
  /-- R104: CSRRW with an immediate. -/
  | csrrwi (rd : RegIdx) (csr : CsrAddr) (uimm : BitVec 5)
  /-- R105: CSRRS with an immediate. -/
  | csrrsi (rd : RegIdx) (csr : CsrAddr) (uimm : BitVec 5)
  /-- R106: CSRRC with an immediate. -/
  | csrrci (rd : RegIdx) (csr : CsrAddr) (uimm : BitVec 5)
  /-- R120: environment call. -/
  | ecall
  /-- R121: breakpoint. -/
  | ebreak
  /-- R122: return from a trap handled in S-mode. -/
  | sret
  /-- R123: return from a trap handled in M-mode. -/
  | mret
  /-- R124: wait for interrupt. -/
  | wfi
  /-- R126: supervisor fence for virtual-memory structures. -/
  | sfenceVma (rs1 rs2 : RegIdx)
  /-- R140: load upper immediate; `imm` is `inst[31:12]`. -/
  | lui (rd : RegIdx) (imm : BitVec 20)
  /-- R141: add immediate. -/
  | addi (rd rs1 : RegIdx) (imm : BitVec 12)
  /-- R142: add registers. -/
  | add (rd rs1 rs2 : RegIdx)
  /-- R143: load word. -/
  | lw (rd rs1 : RegIdx) (imm : BitVec 12)
  /-- R144: store word; `rs2` is the register stored. -/
  | sw (rs2 rs1 : RegIdx) (imm : BitVec 12)
  /-- R145: branch if not equal; `offset` is B-imm, a 13-bit even number (R73). -/
  | bne (rs1 rs2 : RegIdx) (offset : BitVec 13)
deriving DecidableEq, Repr

end Sys2Proof
end

