-- ==== Sys2Proof/WellFormed.lean ====
section
/-! DEFINITION. Which terms of `Instr` an instruction word can stand for. -/

namespace Sys2Proof

/-- An instruction is well formed when some word encodes it. Register numbers, CSR addresses and immediates have exactly the
width of their field, so the one check is that a branch offset is even: B-imm ends in a 0 that the word does not hold (R73). -/
def Instr.wellFormed : Instr → Bool
  | .csrrw _ _ _ => true
  | .csrrs _ _ _ => true
  | .csrrc _ _ _ => true
  | .csrrwi _ _ _ => true
  | .csrrsi _ _ _ => true
  | .csrrci _ _ _ => true
  | .ecall => true
  | .ebreak => true
  | .sret => true
  | .mret => true
  | .wfi => true
  | .sfenceVma _ _ => true
  | .lui _ _ => true
  | .addi _ _ _ => true
  | .add _ _ _ => true
  | .lw _ _ _ => true
  | .sw _ _ _ => true
  | .bne _ _ offset => !offset.getLsbD 0

end Sys2Proof
end

