-- ==== Sys2Proof/Decode.lean ====
section
/-! DEFINITION. Decoding and encoding of instruction words (30_encoding.md), and the opcode table of spec/opcode_table.json
as data. -/

namespace Sys2Proof

/-! ## The fields of a word (R71) -/

/-- `inst[6:0]`. -/
def opcodeOf (w : InstrWord) : BitVec 7 := w.extractLsb' 0 7
/-- `inst[11:7]`. -/
def rdOf (w : InstrWord) : RegIdx := w.extractLsb' 7 5
/-- `inst[14:12]`. -/
def funct3Of (w : InstrWord) : BitVec 3 := w.extractLsb' 12 3
/-- `inst[19:15]`; also `uimm` (R75). -/
def rs1Of (w : InstrWord) : RegIdx := w.extractLsb' 15 5
/-- `inst[24:20]`. -/
def rs2Of (w : InstrWord) : RegIdx := w.extractLsb' 20 5
/-- `inst[31:25]`. -/
def funct7Of (w : InstrWord) : BitVec 7 := w.extractLsb' 25 7
/-- `inst[31:20]`: I-imm before extension, the CSR address, or funct12 (R73, R75, R76). -/
def immIOf (w : InstrWord) : BitVec 12 := w.extractLsb' 20 12
/-- `inst[31:25] ++ inst[11:7]`: S-imm before extension (R73). -/
def immSOf (w : InstrWord) : BitVec 12 := w.extractLsb' 25 7 ++ w.extractLsb' 7 5
/-- `inst[31] ++ inst[7] ++ inst[30:25] ++ inst[11:8] ++ 0`: B-imm before extension (R73). -/
def immBOf (w : InstrWord) : BitVec 13 :=
  w.extractLsb' 31 1 ++ w.extractLsb' 7 1 ++ w.extractLsb' 25 6 ++ w.extractLsb' 8 4 ++ 0#1
/-- `inst[31:12]`: U-imm without its twelve low zeros (R73). -/
def immUOf (w : InstrWord) : BitVec 20 := w.extractLsb' 12 20

/-! ## Decoding -/

/-- Why a word is no instruction of the table (R78). -/
inductive WordReject where
  /-- The word is an illegal instruction: it raises IllegalInstruction. -/
  | illegal
  /-- The word may be an instruction of `BaseISA`, which this model is not given: it is refused. -/
  | baseISA
deriving DecidableEq, Repr

/-- Why a list of bytes does not begin with an instruction of the table. -/
inductive Reject where
  /-- Fewer than four bytes: no instruction word can be read (R70). -/
  | truncated (have_ : Nat)
  /-- There is a word, and it is rejected. -/
  | word (r : WordReject)
deriving DecidableEq, Repr

/-- The SYSTEM major opcode with funct3 = 000, selected by the whole word, but SFENCE.VMA, which has two operands (R76). -/
def decodePrivileged (w : InstrWord) : Except WordReject Instr :=
  if w = 0x00000073#32 then .ok .ecall
  else if w = 0x00100073#32 then .ok .ebreak
  else if w = 0x10200073#32 then .ok .sret
  else if w = 0x30200073#32 then .ok .mret
  else if w = 0x10500073#32 then .ok .wfi
  else if funct7Of w = 0b0001001#7 ∧ rdOf w = 0#5 then .ok (.sfenceVma (rs1Of w) (rs2Of w))
  else .error .illegal

/-- The SYSTEM major opcode (R75, R76); every word under it that matches no row is illegal (R78). -/
def decodeSystem (w : InstrWord) : Except WordReject Instr :=
  if funct3Of w = 0b000#3 then decodePrivileged w
  else if funct3Of w = 0b001#3 then .ok (.csrrw (rdOf w) (immIOf w) (rs1Of w))
  else if funct3Of w = 0b010#3 then .ok (.csrrs (rdOf w) (immIOf w) (rs1Of w))
  else if funct3Of w = 0b011#3 then .ok (.csrrc (rdOf w) (immIOf w) (rs1Of w))
  else if funct3Of w = 0b101#3 then .ok (.csrrwi (rdOf w) (immIOf w) (rs1Of w))
  else if funct3Of w = 0b110#3 then .ok (.csrrsi (rdOf w) (immIOf w) (rs1Of w))
  else if funct3Of w = 0b111#3 then .ok (.csrrci (rdOf w) (immIOf w) (rs1Of w))
  else .error .illegal

/-- The instruction a word stands for (R74 to R77). What matches no row is split as R78 says: illegal under SYSTEM, and for the
words R70 and R78 name whatever `BaseISA` is (bits 1:0 not `11`, the all-ones word; log entry 3); else it belongs to `BaseISA`. -/
def decodeWord (w : InstrWord) : Except WordReject Instr :=
  if opcodeOf w = 0x73#7 then decodeSystem w
  else if opcodeOf w = 0x37#7 then .ok (.lui (rdOf w) (immUOf w))
  else if opcodeOf w = 0x13#7 ∧ funct3Of w = 0b000#3 then .ok (.addi (rdOf w) (rs1Of w) (immIOf w))
  else if opcodeOf w = 0x33#7 ∧ funct3Of w = 0b000#3 ∧ funct7Of w = 0#7 then .ok (.add (rdOf w) (rs1Of w) (rs2Of w))
  else if opcodeOf w = 0x03#7 ∧ funct3Of w = 0b010#3 then .ok (.lw (rdOf w) (rs1Of w) (immIOf w))
  else if opcodeOf w = 0x23#7 ∧ funct3Of w = 0b010#3 then .ok (.sw (rs2Of w) (rs1Of w) (immSOf w))
  else if opcodeOf w = 0x63#7 ∧ funct3Of w = 0b001#3 then .ok (.bne (rs1Of w) (rs2Of w) (immBOf w))
  else if w.extractLsb' 0 2 ≠ 0b11#2 ∨ w = 0xFFFFFFFF#32 then .error .illegal
  else .error .baseISA

/-- The word of four bytes, the first at the lowest address: little-endian (R44, R70). -/
def wordOfBytes (b0 b1 b2 b3 : Byte) : InstrWord := b3 ++ b2 ++ b1 ++ b0

/-- The four bytes of a word as memory holds them, lowest address first (R44). -/
def bytesOfWord (w : InstrWord) : List Byte :=
  [w.extractLsb' 0 8, w.extractLsb' 8 8, w.extractLsb' 16 8, w.extractLsb' 24 8]

/-- The instruction at the head of a list of bytes, and the bytes after it; every instruction is four bytes long (R70). -/
def decode : List Byte → Except Reject (Instr × List Byte)
  | b0 :: b1 :: b2 :: b3 :: rest =>
    match decodeWord (wordOfBytes b0 b1 b2 b3) with
    | .ok i => .ok (i, rest)
    | .error r => .error (.word r)
  | short => .error (.truncated short.length)

/-- The instruction this decoder reads from a table word: `w` laid out as memory holds it (one 32-bit little-endian word
whatever `nbits` is, the bits above `nbits` being 0) and decoded. -/
def decodeTableWord (nbits w : Nat) : Option Instr :=
  match decode (bytesOfWord (BitVec.ofNat 32 (w % 2 ^ nbits))) with
  | .ok (i, _) => some i
  | .error _ => none

/-! ## Encoding (R72) -/

/-- R format. -/
def encR (funct7 : BitVec 7) (rs2 rs1 : RegIdx) (funct3 : BitVec 3) (rd : RegIdx) (opcode : BitVec 7) : InstrWord :=
  funct7 ++ rs2 ++ rs1 ++ funct3 ++ rd ++ opcode

/-- I format; `imm` is the immediate, the CSR address or funct12. -/
def encI (imm : BitVec 12) (rs1 : RegIdx) (funct3 : BitVec 3) (rd : RegIdx) (opcode : BitVec 7) : InstrWord :=
  imm ++ rs1 ++ funct3 ++ rd ++ opcode

/-- S format. -/
def encS (imm : BitVec 12) (rs2 rs1 : RegIdx) (funct3 : BitVec 3) (opcode : BitVec 7) : InstrWord :=
  imm.extractLsb' 5 7 ++ rs2 ++ rs1 ++ funct3 ++ imm.extractLsb' 0 5 ++ opcode

/-- B format. -/
def encB (imm : BitVec 13) (rs2 rs1 : RegIdx) (funct3 : BitVec 3) (opcode : BitVec 7) : InstrWord :=
  imm.extractLsb' 12 1 ++ imm.extractLsb' 5 6 ++ rs2 ++ rs1 ++ funct3 ++ imm.extractLsb' 1 4 ++ imm.extractLsb' 11 1 ++ opcode

/-- U format. -/
def encU (imm : BitVec 20) (rd : RegIdx) (opcode : BitVec 7) : InstrWord :=
  imm ++ rd ++ opcode

/-- The word of an instruction (R75, R76, R77). -/
def encode : Instr → InstrWord
  | .csrrw rd csr rs1 => encI csr rs1 0b001#3 rd 0x73#7
  | .csrrs rd csr rs1 => encI csr rs1 0b010#3 rd 0x73#7
  | .csrrc rd csr rs1 => encI csr rs1 0b011#3 rd 0x73#7
  | .csrrwi rd csr uimm => encI csr uimm 0b101#3 rd 0x73#7
  | .csrrsi rd csr uimm => encI csr uimm 0b110#3 rd 0x73#7
  | .csrrci rd csr uimm => encI csr uimm 0b111#3 rd 0x73#7
  | .ecall => encR 0b0000000#7 0b00000#5 0#5 0#3 0#5 0x73#7
  | .ebreak => encR 0b0000000#7 0b00001#5 0#5 0#3 0#5 0x73#7
  | .sret => encR 0b0001000#7 0b00010#5 0#5 0#3 0#5 0x73#7
  | .mret => encR 0b0011000#7 0b00010#5 0#5 0#3 0#5 0x73#7
  | .wfi => encR 0b0001000#7 0b00101#5 0#5 0#3 0#5 0x73#7
  | .sfenceVma rs1 rs2 => encR 0b0001001#7 rs2 rs1 0#3 0#5 0x73#7
  | .lui rd imm => encU imm rd 0x37#7
  | .addi rd rs1 imm => encI imm rs1 0b000#3 rd 0x13#7
  | .add rd rs1 rs2 => encR 0#7 rs2 rs1 0b000#3 rd 0x33#7
  | .lw rd rs1 imm => encI imm rs1 0b010#3 rd 0x03#7
  | .sw rs2 rs1 imm => encS imm rs2 rs1 0b010#3 0x23#7
  | .bne rs1 rs2 offset => encB offset rs2 rs1 0b001#3 0x63#7

/-! ## The opcode table as data -/

/-- One row of spec/opcode_table.json: a word selects it when `w and mask = val` (R77). -/
structure TableRow where
  mnemonic : String
  val : InstrWord
  mask : InstrWord
deriving DecidableEq, Repr

/-- The 18 rows of spec/opcode_table.json (R75, R76, R77). -/
def opcodeTable : List TableRow :=
  [⟨"CSRRW", 0x00001073#32, 0x0000707F#32⟩, ⟨"CSRRS", 0x00002073#32, 0x0000707F#32⟩,
   ⟨"CSRRC", 0x00003073#32, 0x0000707F#32⟩, ⟨"CSRRWI", 0x00005073#32, 0x0000707F#32⟩,
   ⟨"CSRRSI", 0x00006073#32, 0x0000707F#32⟩, ⟨"CSRRCI", 0x00007073#32, 0x0000707F#32⟩] ++
  [⟨"ECALL", 0x00000073#32, 0xFFFFFFFF#32⟩, ⟨"EBREAK", 0x00100073#32, 0xFFFFFFFF#32⟩,
   ⟨"SRET", 0x10200073#32, 0xFFFFFFFF#32⟩, ⟨"MRET", 0x30200073#32, 0xFFFFFFFF#32⟩,
   ⟨"WFI", 0x10500073#32, 0xFFFFFFFF#32⟩, ⟨"SFENCE.VMA", 0x12000073#32, 0xFE007FFF#32⟩] ++
  [⟨"LUI", 0x00000037#32, 0x0000007F#32⟩, ⟨"ADDI", 0x00000013#32, 0x0000707F#32⟩,
   ⟨"ADD", 0x00000033#32, 0xFE00707F#32⟩, ⟨"LW", 0x00002003#32, 0x0000707F#32⟩,
   ⟨"SW", 0x00002023#32, 0x0000707F#32⟩, ⟨"BNE", 0x00001063#32, 0x0000707F#32⟩]

/-- A row's test of a word (R77). -/
def TableRow.selects (r : TableRow) (w : InstrWord) : Bool := w &&& r.mask == r.val

/-- The table's name of an instruction. -/
def Instr.mnemonic : Instr → String
  | .csrrw _ _ _ => "CSRRW"
  | .csrrs _ _ _ => "CSRRS"
  | .csrrc _ _ _ => "CSRRC"
  | .csrrwi _ _ _ => "CSRRWI"
  | .csrrsi _ _ _ => "CSRRSI"
  | .csrrci _ _ _ => "CSRRCI"
  | .ecall => "ECALL"
  | .ebreak => "EBREAK"
  | .sret => "SRET"
  | .mret => "MRET"
  | .wfi => "WFI"
  | .sfenceVma _ _ => "SFENCE.VMA"
  | .lui _ _ => "LUI"
  | .addi _ _ _ => "ADDI"
  | .add _ _ _ => "ADD"
  | .lw _ _ _ => "LW"
  | .sw _ _ _ => "SW"
  | .bne _ _ _ => "BNE"

end Sys2Proof
end

