-- ==== Sys2Proof/Config.lean ====
section
/-! DEFINITION. What an implementation fixes (the parameters of 00_scope.md section 4), as plain data, and the free values: constants
with no body, one for each value the spec leaves open. -/

namespace Sys2Proof

/-- The admitted pairs of `WLEN` (the widest supported XLEN) and `SXLEN`: `SXLEN <= WLEN`, each 32 or 64 (R4). A pair outside R4
has no value of this type, which is how the model refuses it. -/
inductive Widths where
  /-- `WLEN = 32`, `SXLEN = 32`. -/
  | w32s32
  /-- `WLEN = 64`, `SXLEN = 32`. -/
  | w64s32
  /-- `WLEN = 64`, `SXLEN = 64`. -/
  | w64s64
deriving DecidableEq, Repr

/-- What a misaligned load or store does (R45, D8). -/
inductive MisalignedPolicy where
  | trap
  | split
deriving DecidableEq, Repr

/-- The parameter `StvecModes`: a non-empty subset of {0, 1} (R32, D16). -/
inductive StvecModes where
  | directOnly
  | vectoredOnly
  | both
deriving DecidableEq, Repr

/-- The three kinds of access (R41). -/
inductive AccessKind where
  | fetch
  | load
  | store
deriving DecidableEq, Repr

/-- A stretch of physical addresses and the kinds of access it grants: `PhysAccessOK` is a list of these (D28). -/
structure Region where
  base : Nat
  size : Nat
  read : Bool
  write : Bool
  fetch : Bool
deriving DecidableEq, Repr

/-- A closed interval of register values. -/
structure WordRange where
  lo : Nat
  hi : Nat
deriving DecidableEq, Repr

/-- What `PageLookup` answers for a mapped address: the physical address of the byte and the marks of the leaf page (R47, R56). -/
structure Leaf where
  pa : Nat
  r : Bool
  w : Bool
  x : Bool
  u : Bool
deriving DecidableEq, Repr

/-- One stretch of virtual addresses `lo .. hi`, mapped to physical addresses from `pa` on, with its marks. No page size is assumed. -/
structure PageEntry where
  lo : Nat
  hi : Nat
  pa : Nat
  r : Bool
  w : Bool
  x : Bool
  u : Bool
deriving DecidableEq, Repr

/-- The parameter `PageLookup` (R56, D12). -/
inductive PageSource where
  /-- A mapping that does not depend on memory or `satp`, written out. -/
  | table (entries : List PageEntry)
  /-- The implementation's own walk, about which nothing is known: `Config.pageWalk` of memory, `satp` and the address. -/
  | walk
deriving DecidableEq, Repr

/-- The implementation parameters. The machine holds one of these, and no step changes it. -/
structure Config where
  /-- `WLEN` and `SXLEN` (R4). -/
  widths : Widths
  /-- Whether `sstatus.UXL` can be written (R27, R109). -/
  uxlWritable : Bool
  /-- Whether a floating-point unit exists, so that `sstatus.FS` can be written (R25, R109). -/
  hasFpu : Bool
  /-- Whether user-level interrupts exist, so that UIE, UPIE and the user bits of `sie` and `sip` do (R25, R35, R109). -/
  userInts : Bool
  /-- `PALEN`, the physical address width (R38, D32). -/
  palen : Nat
  /-- `MisalignedPolicy` (R45, D8). -/
  misaligned : MisalignedPolicy
  /-- `PhysAccessOK`, as the stretches that grant accesses (R58, D28). -/
  regions : List Region
  /-- `PageLookup` (R56, D12). -/
  pages : PageSource
  /-- `StvecModes` (R32, D16). -/
  stvecModes : StvecModes
  /-- `StvecAlign(1) = 4 * 2 ^ stvecAlignExp`; `StvecAlign(0) = 4` (R31, D17). -/
  stvecAlignExp : Nat
  /-- `StvecHolds`: the values the implementation can hold in `stvec` unchanged, as a union of intervals (R33, D15). -/
  stvecHolds : List WordRange
  /-- `TrapTarget` of the exceptions: bit `c` is 1 when exception `c`, raised in U-mode or S-mode, goes to S-mode (R175, D14). -/
  excToS : Word
  /-- `TrapTarget` of the interrupts: bit `c` is 1 when interrupt `c` goes to S-mode (R175, D14). -/
  intToS : Word
deriving DecidableEq, Repr

/-! ## Free values

Each is a constant without a body: nothing can be proved of its value, so a claim holds whatever it is. -/

/-- What a byte of memory held at launch, by its physical address: unspecified (R39, R60; log entry 5). -/
opaque Config.launchByte : Nat → Byte

/-- The implementation's page walk, of memory, `satp` and a reduced virtual address: open (R56, D12; log entry 8). -/
opaque Config.pageWalk : List Host.Cell → Word → Nat → Option Leaf

/-- The value, not yet made legal, that `stvec` takes when a value it cannot hold is written to it, by the old value and the
written one (R33, D15; log entry 7). -/
opaque Config.stvecChoice : Word → Word → Word

/-- Whether a write of an illegal value to `sstatus.UXL` leaves UXLEN = 32, by whether it was 32 and the written field (R27, I15;
log entry 11). -/
opaque Config.uxlChoice : Bool → BitVec 2 → Bool

/-- What `scause` holds after a write of an unsupported code, by the old value and the written one (R35, WLRL; log entry 12). -/
opaque Config.scauseChoice : Word → Word → Word

/-- What `satp` holds after a write of a reserved MODE, by the old value and the written one (R35; log entry 13). -/
opaque Config.satpChoice : Word → Word → Word

/-- What the user-level bits of `sip` hold after an S-mode write, by the old value and the written one (R35 does not say which
of them are writable; log entry 14). -/
opaque Config.sipUserChoice : Word → Word → Word

/-- `TvalOnIllegal` at the n-th draw: the instruction word (`true`) or zero (R163, I9; log entry 6). -/
opaque Config.tvalIsWord : Nat → Bool

/-- Whether EBREAK's trap value, at the n-th draw, is its address (`true`) or zero (R121, I10; log entry 6). -/
opaque Config.ebreakTvalIsPc : Nat → Bool

/-- `WfiInU` at the n-th draw: illegal instruction (`true`) or completes (R124, I11; log entry 6). -/
opaque Config.wfiTrapsInU : Nat → Bool

end Sys2Proof
end

