-- ==== Sys2Proof/Machine/State.lean ====
section
/-! DEFINITION. The state of the hart, the reasons it can stop, and the state at reset (10_state.md). -/

namespace Sys2Proof.Machine

/-- The privilege modes (R2, R17): U = 0, S = 1, M = 3. -/
inductive Priv where
  | u
  | s
  | m
deriving DecidableEq, Repr

/-- The interrupts a supervisor sees (R161, R180): supervisor and, with user-level interrupts, user software, timer and external. -/
inductive Irq where
  | ssi
  | sti
  | sei
  | usi
  | uti
  | uei
deriving DecidableEq, Repr

/-- The fields of `sstatus` (R25). The reserved (WPRI) bits read 0 and ignore writes, and SD is a summary, so neither is held. -/
structure Sstatus where
  /-- Bit 19, Make eXecutable Readable (R22). -/
  mxr : Bool
  /-- Bit 18, permit Supervisor User Memory access (R23). -/
  sum : Bool
  /-- Bit 8: the mode the last trap into S-mode came from, `true` for S (R25). -/
  spp : Bool
  /-- Bit 5: SIE before the last trap into S-mode. -/
  spie : Bool
  /-- Bit 4: hardwired 0 unless user-level interrupts exist. -/
  upie : Bool
  /-- Bit 1: supervisor interrupt enable (R180). -/
  sie : Bool
  /-- Bit 0: hardwired 0 unless user-level interrupts exist. -/
  uie : Bool
  /-- Bits 14:13: state of the floating-point unit; hardwired 0 without one. -/
  fs : BitVec 2
  /-- Bits 16:15: read-only state of user-mode extensions. -/
  xs : BitVec 2
  /-- Bits 33:32 when SXLEN = 64: the width UXL stands for, 32 or 64, its only legal values (R25, R27). Not read when SXLEN = 32. -/
  uxl : Xlen
deriving DecidableEq, Repr

/-- What the interrupt oracle does at one instruction boundary: it sets (`true`) or clears pending bits of `sip` (R180, D25). -/
abbrev OracleMove := List (Irq × Bool)

/-- The state of the hart. Registers of `WLEN` or `SXLEN` bits lie in the low bits of their word. -/
structure State where
  /-- The implementation's parameters; never changed. Held here so that a claim about every state is one about every configuration. -/
  cfg : Config
  /-- `x1` to `x31`, each `WLEN` bits; `x0` is not held (R10, R11). -/
  regs : Vector Word 31
  /-- The address of the instruction being executed, `WLEN` bits (R14). -/
  pc : Word
  /-- The current privilege mode (R17). -/
  priv : Priv
  /-- CSR `0x100` (R21 to R25). -/
  sstatus : Sstatus
  /-- CSR `0x105`, the trap vector: BASE and MODE (R28, R29). -/
  stvec : Word
  /-- CSR `0x104`, interrupt enables (R35). -/
  sie : Word
  /-- CSR `0x144`, interrupts pending (R35). -/
  sip : Word
  /-- CSR `0x140` (R35). -/
  sscratch : Word
  /-- CSR `0x141`, the pc a trap saves (R35). -/
  sepc : Word
  /-- CSR `0x142`, the cause a trap saves (R35). -/
  scause : Word
  /-- CSR `0x143`, the value a trap saves (R35). -/
  stval : Word
  /-- CSR `0x180`, address translation (R35). -/
  satp : Word
  /-- The written bytes of physical memory, by rising address (R38); any other byte still holds its launch value. -/
  mem : List Host.Cell
  /-- The moves the interrupt oracle still has to make, one for each step; none left is no move (R180, D25). -/
  oracle : List OracleMove
  /-- The model's own: how many draws between allowed outcomes have been made (log entry 6). -/
  draws : Nat
deriving DecidableEq, Repr

/-- The reasons the machine stops with a fault. The spec has no stuck state: every state steps, traps or is refused. -/
inductive Fault where
  /-- A trap is taken while `stvec.MODE` holds a reserved value, which R172 calls unreachable. Raised by `takeTrap`. Safe: nothing
  is proved past it, and `step` refuses a state that holds such a value before it can be met (I8). -/
  | unreachableStvecMode
deriving DecidableEq, Repr

/-- The reasons the model gives no next state. Each is safe: nothing is proved past it. -/
inductive Refusal where
  /-- No meaning yet for the instruction of this name. Raised by `exec` only. -/
  | notModelled (mnemonic : String)
  /-- `refuse("trap to M-mode")` (R175). Raised by `takeTrap` when the trap's target is M-mode. -/
  | trapToMMode
  /-- `refuse("M-mode not specified")` (R123). Raised by MRET in M-mode. -/
  | mretInMMode
  /-- `refuse("CSR not specified")` (R36, R100). Raised by a permitted access to a CSR whose fields the spec does not give. -/
  | csrNotSpecified (csr : CsrAddr)
  /-- Raised by an M-mode access to a supervisor CSR when `WLEN != SXLEN` (R111). -/
  | csrFromWiderMMode
  /-- `refuse("M-mode access under translation")` (R54). Raised by the permission check, which the default `VMActive` of R55 never
  reaches in M-mode. -/
  | mModeUnderTranslation
  /-- Raised by a misaligned load or store when `MisalignedPolicy = split` (R45, I25). -/
  | misalignedSplit
  /-- `refuse("BaseISA")` (R78). Raised by a word that matches no row and may be an instruction of `BaseISA`. -/
  | baseISA (word : InstrWord)
  /-- Raised by `step` for a state whose `stvec.MODE` is reserved: such a launch state must be refused (I8). -/
  | reservedStvecMode
deriving DecidableEq, Repr

/-- The configuration at reset: every parameter is open in the spec, so every value is a DESIGN CHOICE (log entry 2). The widths are
the spec's example, SXLEN = 64 with UXLEN = 32 (R43), and the delegation is the natural instance R175 describes. -/
def resetConfig : Config where
  widths := .w64s64
  uxlWritable := true
  hasFpu := false
  userInts := false
  palen := 64
  misaligned := .trap
  regions := [⟨0, 2 ^ 64, true, true, true⟩]
  pages := .walk
  stvecModes := .both
  stvecAlignExp := 0
  stvecHolds := [⟨0, 2 ^ 64 - 1⟩]
  excToS := 0x000000000000B15D#64
  intToS := 0x0000000000000222#64

/-- The machine right after reset. Only `priv` is given by the spec (R39, R200: M-mode), and `stvec` and UXL must be legal; every
other value is unspecified there and named by log entry 1 (DESIGN CHOICE: zero). -/
def State.reset : State where
  cfg := resetConfig
  regs := Vector.replicate 31 0#64
  pc := 0#64
  priv := .m
  sstatus := { mxr := false, sum := false, spp := false, spie := false, upie := false, sie := false, uie := false,
               fs := 0#2, xs := 0#2, uxl := .x32 }
  stvec := 0#64
  sie := 0#64
  sip := 0#64
  sscratch := 0#64
  sepc := 0#64
  scause := 0#64
  stval := 0#64
  satp := 0#64
  mem := []
  oracle := []
  draws := 0

end Sys2Proof.Machine
end

