-- ==== Sys2Proof/Machine/Operands.lean ====
section
/-! DEFINITION. Register widths, the register file, what an instruction sees of a source register (`rdx`) and how it fills a
destination (`wrx`), immediates, effective addresses and the next pc (40_xlen_control.md, 10_state.md, 30_encoding.md). -/

namespace Sys2Proof.Machine

/-! ## Widths -/

/-- `WLEN` (D4). -/
def wlenOf : Widths → Xlen
  | .w32s32 => .x32
  | .w64s32 => .x64
  | .w64s64 => .x64

/-- `SXLEN` (R4). -/
def sxlenOf : Widths → Xlen
  | .w32s32 => .x32
  | .w64s32 => .x32
  | .w64s64 => .x64

/-- `WLEN` of the machine. -/
def State.wlen (s : State) : Xlen := wlenOf s.cfg.widths

/-- `SXLEN` of the machine. -/
def State.sxlen (s : State) : Xlen := sxlenOf s.cfg.widths

/-- `UXLEN`: 32 when SXLEN = 32, else what `sstatus.UXL` stands for (R27). So `UXLEN <= SXLEN` always (R4). -/
def State.uxlen (s : State) : Xlen :=
  match s.sxlen with
  | .x32 => .x32
  | .x64 => s.sstatus.uxl

/-- `XLEN(m)`, the configured XLEN of a mode (00_scope.md section 4; `XLEN(M) = WLEN` by D4). -/
def State.xlenOf (s : State) : Priv → Xlen
  | .u => s.uxlen
  | .s => s.sxlen
  | .m => s.wlen

/-- `X = XLEN(priv)`. -/
def State.xlen (s : State) : Xlen := s.xlenOf s.priv

/-- `zext(v[X-1:0])`: the low `X` bits, zeros above. -/
def low : Xlen → Word → Word
  | .x32, v => (v.setWidth 32).setWidth 64
  | .x64, v => v

/-- `sext(v[X-1:0])` to 64 bits: copies of bit `X-1` above the low `X` bits. -/
def fill : Xlen → Word → Word
  | .x32, v => (v.setWidth 32).signExtend 64
  | .x64, v => v

/-- `sext_WLEN(v[X-1:0])` held in a word: what R90 and R93 write to a register or to the pc. -/
def State.widen (s : State) (v : Word) : Word := low s.wlen (fill s.xlen v)

/-! ## The register file -/

/-- `x[i]`: `x0` reads as zero (R11). -/
def State.readReg (s : State) (i : RegIdx) : Word :=
  if i = 0#5 then 0#64 else s.regs[i.toNat - 1]'(by have := i.isLt; omega)

/-- `x[i] <- v`, all `WLEN` bits; a write to `x0` is discarded (R11). -/
def State.writeReg (s : State) (i : RegIdx) (v : Word) : State :=
  if i = 0#5 then s else { s with regs := s.regs.set (i.toNat - 1) v (by have := i.isLt; omega) }

/-- `rdx(i)`: an instruction ignores the bits of a source register above the configured XLEN (R90, R94). -/
def State.rdx (s : State) (i : RegIdx) : Word := low s.xlen (s.readReg i)

/-- `wrx(i, v)`: a result fills the destination register by sign extension from the configured XLEN (R90, R93). -/
def State.wrx (s : State) (i : RegIdx) (v : Word) : State := s.writeReg i (s.widen v)

/-! ## The pc -/

/-- `pc[X-1:0]`: the address the instruction is fetched from, and what pc-relative arithmetic starts from (R14, R15). -/
def State.pcLow (s : State) : Word := low s.xlen s.pc

/-- `pc <- sext_WLEN(target[X-1:0])` (R93). -/
def State.jump (s : State) (target : Word) : State := { s with pc := s.widen target }

/-- `pc <- pc + 4`, modulo `2^X` (R16, R93). -/
def State.advance (s : State) : State := s.jump (s.pcLow + 4#64)

/-! ## Immediates and addresses -/

/-- `sext_X` of a 12-bit immediate, I-imm or S-imm (R73); bits above `X` are dropped where it is used. -/
def imm12 (imm : BitVec 12) : Word := imm.signExtend 64

/-- B-imm, sign-extended (R73). -/
def imm13 (imm : BitVec 13) : Word := imm.signExtend 64

/-- U-imm: `sext(imm ++ 0x000)` (R73). -/
def immUpper (imm : BitVec 20) : Word := (imm ++ 0#12 : BitVec 32).signExtend 64

/-- `uimm`, zero-extended (R73). -/
def immZero (uimm : BitVec 5) : Word := uimm.setWidth 64

/-- The effective address of a load or store: `rdx(rs1) + imm`, modulo `2^X` (R95). -/
def State.effAddr (s : State) (rs1 : RegIdx) (imm : BitVec 12) : Word := low s.xlen (s.rdx rs1 + imm12 imm)

end Sys2Proof.Machine
end

