-- ==== Sys2Proof/Machine/Flags.lean ====
section
/-! DEFINITION. The status register and the legal values of the other supervisor registers. The machine has no condition codes
(R18): what it has of flags are the fields of `sstatus`, and this file says how a word is read from them and written to them
(R25, R109), and what the WARL and WLRL registers hold after a write (R33, R35, R110). -/

namespace Sys2Proof.Machine

/-! ## Bits -/

/-- A bit as a word, at its place. -/
def bitAt (b : Bool) (k : Nat) : Word := if b then 1#64 <<< k else 0#64

/-- A word with one bit set or cleared. -/
def setBit (w : Word) (k : Nat) (b : Bool) : Word :=
  if b then w ||| (1#64 <<< k) else w &&& ~~~(1#64 <<< k)

/-! ## sstatus -/

/-- The fields as the implementation wires them (R25, D24, I28): FS is 0 without a floating-point unit, UIE and UPIE are 0 without
user-level interrupts, and XS, which no write changes, is 0 where there is neither. -/
def Sstatus.wired (cfg : Config) (f : Sstatus) : Sstatus :=
  { f with
    fs := if cfg.hasFpu then f.fs else 0#2
    xs := if cfg.hasFpu || cfg.userInts then f.xs else 0#2
    upie := cfg.userInts && f.upie
    uie := cfg.userInts && f.uie }

/-- SD, the summary: 1 when FS = 3 or XS = 3 (R25). -/
def Sstatus.sd (f : Sstatus) : Bool := f.fs == 3#2 || f.xs == 3#2

/-- The encoding of UXLEN in UXL: 1 is 32, 2 is 64 (R25). -/
def uxlCode : Xlen → Word
  | .x32 => 1#64
  | .x64 => 2#64

/-- The fields that lie at the same place for both widths (R25). -/
def Sstatus.common (f : Sstatus) : Word :=
  bitAt f.mxr 19 ||| bitAt f.sum 18 ||| f.xs.setWidth 64 <<< 15 ||| f.fs.setWidth 64 <<< 13 ||| bitAt f.spp 8 |||
  bitAt f.spie 5 ||| bitAt f.upie 4 ||| bitAt f.sie 1 ||| bitAt f.uie 0

/-- The fields at the places of R25, SD at the top and UXL where SXLEN = 64, the reserved bits 0. -/
def Sstatus.layout : Xlen → Sstatus → Word
  | .x32, f => f.common ||| bitAt f.sd 31
  | .x64, f => f.common ||| uxlCode f.uxl <<< 32 ||| bitAt f.sd 63

/-- `sstatus` as software reads it: the wired fields, laid out. -/
def Sstatus.read (cfg : Config) (f : Sstatus) : Word := (f.wired cfg).layout (sxlenOf cfg.widths)

/-- `legal(w[33:32])`: the width UXL stands for after a write; an illegal value leaves some legal one (R27, R109). -/
def uxlLegal (old : Xlen) (field : BitVec 2) : Xlen :=
  if field = 1#2 then .x32
  else if field = 2#2 then .x64
  else if Config.uxlChoice (old == .x32) field then .x32 else .x64

/-- A write of `w` to `sstatus`: the table of R109. SD, XS and the reserved bits are not changed by it. -/
def Sstatus.write (cfg : Config) (f : Sstatus) (w : Word) : Sstatus where
  mxr := w.getLsbD 19
  sum := w.getLsbD 18
  spp := w.getLsbD 8
  spie := w.getLsbD 5
  sie := w.getLsbD 1
  upie := if cfg.userInts then w.getLsbD 4 else f.upie
  uie := if cfg.userInts then w.getLsbD 0 else f.uie
  fs := if cfg.hasFpu then w.extractLsb' 13 2 else f.fs
  xs := f.xs
  uxl := if sxlenOf cfg.widths = .x64 ∧ cfg.uxlWritable = true then uxlLegal f.uxl (w.extractLsb' 32 2) else f.uxl

/-- What a trap into S-mode does to `sstatus` (R170): MXR, SUM and the rest are kept. -/
def Sstatus.onTrap (f : Sstatus) (fromS : Bool) : Sstatus :=
  { f with spp := fromS, spie := f.sie, sie := false }

/-- What SRET does to `sstatus` (R122). -/
def Sstatus.onReturn (f : Sstatus) : Sstatus :=
  { f with sie := f.spie, spie := true, spp := false }

/-! ## stvec -/

/-- MODE, bits 1:0 (R29). -/
def stvecMode (v : Word) : BitVec 2 := v.extractLsb' 0 2

/-- `BaseAddr`: BASE followed by two zeros (R29). -/
def stvecBase (v : Word) : Word := v &&& ~~~3#64

/-- Whether a MODE is supported (R32). -/
def modeSupported : StvecModes → BitVec 2 → Bool
  | .directOnly, m => m == 0#2
  | .vectoredOnly, m => m == 1#2
  | .both, m => m == 0#2 || m == 1#2

/-- `StvecAlign(mode)`: 4 for Direct, a power of two at least 4 for Vectored (R31). -/
def stvecAlign (cfg : Config) (mode : BitVec 2) : Nat := if mode = 1#2 then 4 * 2 ^ cfg.stvecAlignExp else 4

/-- Whether a value may be held in `stvec`: `SXLEN` bits, a supported MODE, and a base aligned for it (R33). -/
def stvecLegal (cfg : Config) (v : Word) : Bool :=
  low (sxlenOf cfg.widths) v == v && modeSupported cfg.stvecModes (stvecMode v) &&
  (stvecBase v).toNat % stvecAlign cfg (stvecMode v) == 0

/-- `StvecHolds(w)` (R33, D15). -/
def stvecHolds (cfg : Config) (w : Word) : Bool :=
  cfg.stvecHolds.any fun r => decide (r.lo ≤ w.toNat) && decide (w.toNat ≤ r.hi)

/-- The MODE kept of a value, or the supported one where it is not supported. -/
def supportedMode (modes : StvecModes) (m : BitVec 2) : BitVec 2 :=
  if modeSupported modes m then m
  else match modes with
    | .directOnly => 0#2
    | .vectoredOnly => 1#2
    | .both => 0#2

/-- A legal value made of any value: itself where it is legal, so that every legal value is reached (R33). -/
def stvecFix (cfg : Config) (v : Word) : Word :=
  let x := low (sxlenOf cfg.widths) v
  let m := supportedMode cfg.stvecModes (stvecMode x)
  let a := stvecAlign cfg m
  BitVec.ofNat 64 (x.toNat / a * a + m.toNat)

/-- `StvecLegalize(old, w)` (R33, R110): `w` where it is legal and can be held, else some legal value that depends on both. -/
def stvecLegalize (cfg : Config) (old w : Word) : Word :=
  if stvecLegal cfg w && stvecHolds cfg w then w else stvecFix cfg (Config.stvecChoice old w)

/-! ## The other registers of R35 -/

/-- `sepc` has its two low bits 0 (R35; every instruction is 32 bits long). -/
def sepcLegal (v : Word) : Word := v &&& ~~~3#64

/-- The interrupts that exist (R35, R180). -/
def irqMask (cfg : Config) : Word := if cfg.userInts then 0x333#64 else 0x222#64

/-- Whether `scause` must be able to hold a value: the causes of R161 that this machine writes to it. -/
def scauseSupported (cfg : Config) (x : Xlen) (w : Word) : Bool :=
  if w.getLsbD (x.bits - 1) then
    let c := setBit w (x.bits - 1) false
    decide (c.toNat < 16) && (irqMask cfg).getLsbD c.toNat
  else decide (w.toNat < 16) && (0xB3FF#64).getLsbD w.toNat

/-- A write to `scause`, which is WLRL: an unsupported code leaves a free value (R35). -/
def scauseWrite (cfg : Config) (old w : Word) : Word :=
  let x := sxlenOf cfg.widths
  if scauseSupported cfg x w then w else low x (Config.scauseChoice old w)

/-- `satp.MODE` as a number: bit 31, or bits 63:60 (R35). -/
def satpMode : Xlen → Word → Nat
  | .x32, v => (v.extractLsb' 31 1).toNat
  | .x64, v => (v.extractLsb' 60 4).toNat

/-- Whether a `satp.MODE` is one of the values R35 defines: Bare and Sv32, or Bare, Sv39 and Sv48. -/
def satpModeDefined : Xlen → Nat → Bool
  | .x32, m => m == 0 || m == 1
  | .x64, m => m == 0 || m == 8 || m == 9

/-- A write to `satp`; a reserved MODE leaves a free value (R35). -/
def satpWrite (cfg : Config) (old w : Word) : Word :=
  let x := sxlenOf cfg.widths
  if satpModeDefined x (satpMode x w) then w else low x (Config.satpChoice old w)

/-- A write to `sie`: the bits that exist (R35). -/
def sieWrite (cfg : Config) (w : Word) : Word := w &&& irqMask cfg

/-- A write to `sip` by software: SSIP, bit 1, is writable, STIP and SEIP are not; the user-level bits, where they exist, are free
(R35). -/
def sipWrite (cfg : Config) (old w : Word) : Word :=
  let kept := setBit old 1 (w.getLsbD 1)
  if cfg.userInts then (kept &&& ~~~0x111#64) ||| (Config.sipUserChoice old w &&& 0x111#64) else kept

end Sys2Proof.Machine
end

