-- ==== Sys2Proof/Machine/Ops.lean ====
section
/-! DEFINITION. The shared operations: physical memory, translation and protection, the access pipeline (20_memory.md), taking a
trap and returning from one, interrupts and their oracle (60_exceptions.md). -/

namespace Sys2Proof.Machine

/-! ## Physical memory -/

/-- The written byte at an address, if there is one. -/
def Memory.read? : List Host.Cell → Nat → Option Byte
  | [], _ => none
  | (b, v) :: rest, a => if a = b then some v else Memory.read? rest a

/-- Memory with the byte at an address written, the addresses still rising. -/
def Memory.write : List Host.Cell → Nat → Byte → List Host.Cell
  | [], a, v => [(a, v)]
  | (b, w) :: rest, a, v =>
    if a < b then (a, v) :: (b, w) :: rest
    else if a = b then (a, v) :: rest
    else (b, w) :: Memory.write rest a v

/-- The canonical form: addresses strictly rising. An unlisted address has no written byte, so no entry can equal what it reads as. -/
abbrev Memory.wf (m : List Host.Cell) : Prop := m.Pairwise fun x y => x.1 < y.1

/-- What an address no instruction has written holds: its launch value, which is free (R39, R60; log entry 5). -/
def unwritten (a : Nat) : Byte := Config.launchByte a

/-- The byte a read of a physical address sees (R60). -/
def State.byteAt (s : State) (a : Nat) : Byte := (Memory.read? s.mem a).getD (unwritten a)

/-- The physical address `k` bytes on, of `PALEN` bits (R38). -/
def State.phys (s : State) (pa k : Nat) : Nat := (pa + k) % 2 ^ s.cfg.palen

/-- The four bytes at a physical address, little-endian (R44). -/
def State.readWord (s : State) (pa : Nat) : BitVec 32 :=
  wordOfBytes (s.byteAt (s.phys pa 0)) (s.byteAt (s.phys pa 1)) (s.byteAt (s.phys pa 2)) (s.byteAt (s.phys pa 3))

/-- The state with one byte of physical memory written. -/
def State.writeByte (s : State) (a : Nat) (v : Byte) : State := { s with mem := Memory.write s.mem a v }

/-- The state with four bytes written at a physical address, little-endian (R44). -/
def State.writeWord (s : State) (pa : Nat) (v : BitVec 32) : State :=
  (((s.writeByte (s.phys pa 0) (v.extractLsb' 0 8)).writeByte (s.phys pa 1) (v.extractLsb' 8 8)).writeByte
    (s.phys pa 2) (v.extractLsb' 16 8)).writeByte (s.phys pa 3) (v.extractLsb' 24 8)

/-! ## Causes of traps -/

/-- The synchronous exceptions (R161). -/
inductive Exc where
  | instrMisaligned
  | instrAccessFault
  | illegal
  | breakpoint
  | loadMisaligned
  | loadAccessFault
  | storeMisaligned
  | storeAccessFault
  | ecallFromU
  | ecallFromS
  | ecallFromM
  | instrPageFault
  | loadPageFault
  | storePageFault
deriving DecidableEq, Repr

/-- The cause of a trap: an exception or an interrupt (R170). -/
inductive Cause where
  | exc (e : Exc)
  | irq (k : Irq)
deriving DecidableEq, Repr

/-- The exception codes (R161). -/
def excCode : Exc → Nat
  | .instrMisaligned => 0
  | .instrAccessFault => 1
  | .illegal => 2
  | .breakpoint => 3
  | .loadMisaligned => 4
  | .loadAccessFault => 5
  | .storeMisaligned => 6
  | .storeAccessFault => 7
  | .ecallFromU => 8
  | .ecallFromS => 9
  | .ecallFromM => 11
  | .instrPageFault => 12
  | .loadPageFault => 13
  | .storePageFault => 15

/-- The interrupt codes, which are also the bit numbers in `sip` and `sie` (R161, R35). -/
def irqCode : Irq → Nat
  | .usi => 0
  | .ssi => 1
  | .uti => 4
  | .sti => 5
  | .uei => 8
  | .sei => 9

/-- The code of a cause. -/
def causeCode : Cause → Nat
  | .exc e => excCode e
  | .irq k => irqCode k

/-- The interrupt flag of a cause. -/
def causeIsIrq : Cause → Bool
  | .exc _ => false
  | .irq _ => true

/-- `scause <- i ++ zext(c)` (R170): the Interrupt bit at `SXLEN-1` and the code below. -/
def causeWord (x : Xlen) (c : Cause) : Word := bitAt (causeIsIrq c) (x.bits - 1) ||| BitVec.ofNat 64 (causeCode c)

/-! ## Taking a trap -/

/-- Where a trap goes (R175). -/
inductive Target where
  | toS
  | toM
deriving DecidableEq, Repr

/-- `TrapTarget(s, c, i)` (R175, D14): M-mode when it occurs in M-mode, else what is delegated. -/
def State.trapTarget (s : State) (c : Cause) : Target :=
  match s.priv with
  | .m => .toM
  | _ => if (if causeIsIrq c then s.cfg.intToS else s.cfg.excToS).getLsbD (causeCode c) then .toS else .toM

/-- `TrapVector(stvec, c, i)` (R172): none for the reserved values of MODE. -/
def trapVector (x : Xlen) (stvec : Word) (c : Cause) : Option Word :=
  if stvecMode stvec = 0#2 then some (stvecBase stvec)
  else if stvecMode stvec = 1#2 then
    some (if causeIsIrq c then low x (stvecBase stvec + BitVec.ofNat 64 (4 * causeCode c)) else stvecBase stvec)
  else none

/-- The sequence of R170 for a trap into S-mode: saved pc, cause and value, the status, the mode and the pc. -/
def State.enterTrap (s : State) (c : Cause) (tval handler : Word) : State :=
  { s with
    sepc := sepcLegal (low s.sxlen (fill s.xlen s.pc))
    scause := causeWord s.sxlen c
    stval := low s.sxlen tval
    sstatus := s.sstatus.onTrap (s.priv == .s)
    priv := .s
    pc := low s.wlen (fill s.sxlen handler) }

/-- Taking a trap with a cause and a trap value (R170, R172, R175). -/
def takeTrap (c : Cause) (tval : Word) (s : State) : Host.Outcome State Fault Refusal :=
  match s.trapTarget c with
  | .toM => .refused .trapToMMode
  | .toS =>
    match trapVector s.sxlen s.stvec c with
    | some handler => .next (s.enterTrap c tval handler)
    | none => .fault .unreachableStvecMode

/-- `raise E(info)`: the instruction ends with none of its writes, and the trap is taken (R162, R170). -/
def raiseExc (e : Exc) (tval : Word) (s : State) : Host.Outcome State Fault Refusal := takeTrap (.exc e) tval s

/-- The state after one draw between allowed outcomes. -/
def State.draw (s : State) : State := { s with draws := s.draws + 1 }

/-- `raise IllegalInstruction(inst)`: the trap value is the instruction word or zero, by a draw (R163). -/
def raiseIllegal (word : InstrWord) (s : State) : Host.Outcome State Fault Refusal :=
  raiseExc .illegal (if Config.tvalIsWord s.draws then word.setWidth 64 else 0#64) s.draw

/-! ## Returning from a trap -/

/-- `sepc` as a read sees it: the two low bits are 0 (R35). -/
def State.sepcRead (s : State) : Word := sepcLegal s.sepc

/-- The return of R122 and R176: the mode from SPP, SIE from SPIE, the pc from `sepc`. -/
def State.leaveTrap (s : State) : State :=
  { s with
    priv := if s.sstatus.spp then .s else .u
    sstatus := s.sstatus.onReturn
    pc := low s.wlen (fill s.sxlen s.sepcRead) }

/-! ## Translation and protection -/

/-- What an access comes to: a result, an exception with its trap value, or a refusal. -/
inductive Access (α : Type) where
  | ok (a : α)
  | raise (e : Exc) (tval : Word)
  | refuse (r : Refusal)
deriving DecidableEq, Repr

/-- The instruction's outcome from its access: goes on with the result, or traps, or is refused. -/
def Access.andThen {α : Type} (s : State) (a : Access α) (k : α → Host.Outcome State Fault Refusal) :
    Host.Outcome State Fault Refusal :=
  match a with
  | .ok v => k v
  | .raise e tval => raiseExc e tval s
  | .refuse r => .refused r

/-- `VMActive(s, priv)` in its default instance: `satp.MODE != Bare` and the mode is S or U (R55). -/
def State.vmActive (s : State) : Bool := satpMode s.sxlen s.satp != 0 && s.priv != .m

/-- The entry of a written-out mapping that holds a virtual address. -/
def lookupTable (entries : List PageEntry) (va : Nat) : Option Leaf :=
  (entries.find? fun e => decide (e.lo ≤ va) && decide (va ≤ e.hi)).map fun e =>
    { pa := e.pa + (va - e.lo), r := e.r, w := e.w, x := e.x, u := e.u }

/-- `PageLookup(s, va)` (R56): evaluated on the current state at every access, so there is no translation cache (R20). -/
def State.pageLookup (s : State) (va : Nat) : Option Leaf :=
  match s.cfg.pages with
  | .table entries => lookupTable entries va
  | .walk => Config.pageWalk s.mem s.satp va

/-- `ReadOK(MXR, R, X)` (R48). -/
def readOK (mxr r x : Bool) : Bool := r || (mxr && x)

/-- The user-page half of `PermOK` (R50, R51, R52); none in M-mode, which is refused (R54). -/
def userPageOK (kind : AccessKind) (priv : Priv) (sum u : Bool) : Option Bool :=
  match priv with
  | .u => some u
  | .s =>
    match kind with
    | .fetch => some (!u)
    | .load => some (!u || sum)
    | .store => some (!u || sum)
  | .m => none

/-- The type half of `PermOK` (R48, R49, R53). -/
def typeOK (kind : AccessKind) (mxr : Bool) (l : Leaf) : Bool :=
  match kind with
  | .load => readOK mxr l.r l.x
  | .store => l.w
  | .fetch => l.x

/-- `PermOK` (R54); none is the refusal of M-mode accesses under translation. -/
def permOK (kind : AccessKind) (priv : Priv) (sum mxr : Bool) (l : Leaf) : Option Bool :=
  (userPageOK kind priv sum l.u).map fun userOK => userOK && typeOK kind mxr l

/-- `Misaligned(kind)` (R45; R16 for a fetch). -/
def misalignedExc : AccessKind → Exc
  | .fetch => .instrMisaligned
  | .load => .loadMisaligned
  | .store => .storeMisaligned

/-- `PageFault(kind)` (R57). -/
def pageFaultExc : AccessKind → Exc
  | .fetch => .instrPageFault
  | .load => .loadPageFault
  | .store => .storePageFault

/-- `AccessFault(kind)` (R58). -/
def accessFaultExc : AccessKind → Exc
  | .fetch => .instrAccessFault
  | .load => .loadAccessFault
  | .store => .storeAccessFault

/-- Whether a region grants a kind of access. -/
def regionGrants (r : Region) : AccessKind → Bool
  | .fetch => r.fetch
  | .load => r.read
  | .store => r.write

/-- `PhysAccessOK(pa, n, kind)` (R58, D28): the bytes lie in one region that grants the access. -/
def State.physAccessOK (s : State) (kind : AccessKind) (pa n : Nat) : Bool :=
  s.cfg.regions.any fun r => regionGrants r kind && decide (r.base ≤ pa) && decide (pa + n ≤ r.base + r.size)

/-- Step 3 of R40: the physical address of a reduced virtual address, or the page fault. -/
def State.translate (s : State) (kind : AccessKind) (va : Word) : Access Nat :=
  if s.vmActive then
    match s.pageLookup va.toNat with
    | none => .raise (pageFaultExc kind) va
    | some l =>
      match permOK kind s.priv s.sstatus.sum s.sstatus.mxr l with
      | none => .refuse .mModeUnderTranslation
      | some false => .raise (pageFaultExc kind) va
      | some true => .ok (s.phys l.pa 0)
  else .ok (s.phys va.toNat 0)

/-- Step 2 of R40: what a misaligned access comes to. A fetch always needs its alignment (R16, R45). -/
def State.misaligned (s : State) (kind : AccessKind) (va : Word) : Access Nat :=
  match kind, s.cfg.misaligned with
  | .fetch, _ => .raise (misalignedExc .fetch) va
  | k, .trap => .raise (misalignedExc k) va
  | _, .split => .refuse .misalignedSplit

/-- Steps 1 to 4 of R40, in order: reduction (R42), alignment, translation and protection, physical protection. -/
def State.access (s : State) (kind : AccessKind) (ea : Word) (n : Nat) : Access Nat :=
  let va := low s.xlen ea
  if va.toNat % n ≠ 0 then s.misaligned kind va
  else match s.translate kind va with
    | .ok pa => if s.physAccessOK kind pa n then .ok pa else .raise (accessFaultExc kind) va
    | .raise e tval => .raise e tval
    | .refuse r => .refuse r

/-- `MemRead(ea, 4)` (R40). -/
def State.loadWord (s : State) (ea : Word) : Access (BitVec 32) :=
  match s.access .load ea 4 with
  | .ok pa => .ok (s.readWord pa)
  | .raise e tval => .raise e tval
  | .refuse r => .refuse r

/-- `MemWrite(ea, 4, v)` (R40). -/
def State.storeWord (s : State) (ea : Word) (v : BitVec 32) : Access State :=
  match s.access .store ea 4 with
  | .ok pa => .ok (s.writeWord pa v)
  | .raise e tval => .raise e tval
  | .refuse r => .refuse r

/-- `Fetch(pc)` (R15, R40). -/
def State.fetchWord (s : State) : Access (BitVec 32) :=
  match s.access .fetch s.pcLow 4 with
  | .ok pa => .ok (s.readWord pa)
  | .raise e tval => .raise e tval
  | .refuse r => .refuse r

/-- The physical address of the next fetch where one exists, whatever the marks of its page. -/
def State.fetchAddr (s : State) : Nat :=
  if s.vmActive then
    match s.pageLookup s.pcLow.toNat with
    | some l => s.phys l.pa 0
    | none => s.phys s.pcLow.toNat 0
  else s.phys s.pcLow.toNat 0

/-! ## Interrupts -/

/-- The interrupts, the highest priority first (R165). -/
def irqOrder : List Irq := [.sei, .ssi, .sti, .uei, .usi, .uti]

/-- Whether an interrupt is pending and enabled for the current mode: `sip`, `sie`, and U-mode or S-mode with SIE (R180). -/
def State.irqReady (s : State) (k : Irq) : Bool :=
  s.sip.getLsbD (irqCode k) && s.sie.getLsbD (irqCode k) &&
  match s.priv with
  | .u => true
  | .s => s.sstatus.sie
  | .m => false

/-- The interrupt taken before the next instruction, if any: one that goes to M-mode first (log entry 10), else the highest of
R165. -/
def State.irqTaken (s : State) : Option Irq :=
  let ready := irqOrder.filter fun k => s.irqReady k
  match ready.find? fun k => s.trapTarget (.irq k) == .toM with
  | some k => some k
  | none => ready.head?

/-- One change of a pending bit by the oracle; a bit of an interrupt that does not exist stays 0 (R180). -/
def setPending (cfg : Config) (sip : Word) (change : Irq × Bool) : Word :=
  if (irqMask cfg).getLsbD (irqCode change.1) then setBit sip (irqCode change.1) change.2 else sip

/-- The oracle's move at an instruction boundary (R180, D25). -/
def State.oracleMove (s : State) : State :=
  match s.oracle with
  | [] => s
  | move :: rest => { s with sip := move.foldl (setPending s.cfg) s.sip, oracle := rest }

/-! ## Words that are no instruction of the table -/

/-- What a word that matches no row comes to (R78): refused where it may belong to `BaseISA`, else IllegalInstruction, URET included
(R76, D30). -/
def runUnmatched (r : WordReject) (w : InstrWord) (s : State) : Host.Outcome State Fault Refusal :=
  match r with
  | .baseISA => .refused (.baseISA w)
  | .illegal => raiseIllegal w s

end Sys2Proof.Machine
end

