-- ==== Sys2Proof/Machine/Base.lean ====
section
/-! DEFINITION. The six base instructions (43_base_subset.md). -/

namespace Sys2Proof.Machine

/-- The common end of an instruction that only writes a register: `wrx(rd, v); pc <- pc + 4`. -/
def State.finish (s : State) (rd : RegIdx) (v : Word) : State := (s.wrx rd v).advance

/-- R140. -/
def execLui (rd : RegIdx) (imm : BitVec 20) (s : State) : Host.Outcome State Fault Refusal :=
  .next (s.finish rd (immUpper imm))

/-- R141. The sum is modulo `2^X`, since `wrx` keeps its low `X` bits. -/
def execAddi (rd rs1 : RegIdx) (imm : BitVec 12) (s : State) : Host.Outcome State Fault Refusal :=
  .next (s.finish rd (s.rdx rs1 + imm12 imm))

/-- R142. -/
def execAdd (rd rs1 rs2 : RegIdx) (s : State) : Host.Outcome State Fault Refusal :=
  .next (s.finish rd (s.rdx rs1 + s.rdx rs2))

/-- R143. With `rd = x0` the access still happens and can raise. -/
def execLw (rd rs1 : RegIdx) (imm : BitVec 12) (s : State) : Host.Outcome State Fault Refusal :=
  (s.loadWord (s.effAddr rs1 imm)).andThen s fun v => .next (s.finish rd (v.signExtend 64))

/-- R144. -/
def execSw (rs2 rs1 : RegIdx) (imm : BitVec 12) (s : State) : Host.Outcome State Fault Refusal :=
  (s.storeWord (s.effAddr rs1 imm) ((s.rdx rs2).setWidth 32)).andThen s fun t => .next t.advance

/-- R145. A taken branch to an address that is not a multiple of 4 raises on the branch (R16). -/
def execBne (rs1 rs2 : RegIdx) (offset : BitVec 13) (s : State) : Host.Outcome State Fault Refusal :=
  if s.rdx rs1 ≠ s.rdx rs2 then
    let target := low s.xlen (s.pcLow + imm13 offset)
    if target.toNat % 4 ≠ 0 then raiseExc .instrMisaligned target s
    else .next (s.jump target)
  else .next s.advance

end Sys2Proof.Machine
end

