-- ==== Sys2Proof/Machine/Csr.lean ====
section
/-! DEFINITION. The control and status registers and the six instructions that access them (41_csr_instructions.md). -/

namespace Sys2Proof.Machine

/-! ## The address map -/

/-- The registers this model holds (R24, R34, R35). -/
inductive Csr where
  | sstatus
  | sie
  | stvec
  | sscratch
  | sepc
  | scause
  | stval
  | sip
  | satp
deriving DecidableEq, Repr

/-- The address of a register (R24, R34, R35). -/
def csrAddress : Csr → CsrAddr
  | .sstatus => 0x100#12
  | .sie => 0x104#12
  | .stvec => 0x105#12
  | .sscratch => 0x140#12
  | .sepc => 0x141#12
  | .scause => 0x142#12
  | .stval => 0x143#12
  | .sip => 0x144#12
  | .satp => 0x180#12

/-- The register at an address. -/
def csrHeld (a : CsrAddr) : Option Csr :=
  [Csr.sstatus, .sie, .stvec, .sscratch, .sepc, .scause, .stval, .sip, .satp].find? fun c => csrAddress c == a

/-- The intervals of the addresses R36 lists: registers that exist and have no fields in the spec. -/
def csrListedRanges : List (Nat × Nat) :=
  [(0x102, 0x103), (0x106, 0x106), (0x000, 0x005), (0x040, 0x044)] ++
  [(0xC00, 0xC1F), (0xC80, 0xC9F), (0xF11, 0xF14), (0x300, 0x306), (0x340, 0x344), (0x3A0, 0x3A3), (0x3B0, 0x3BF)] ++
  [(0xB00, 0xB00), (0xB02, 0xB1F), (0xB80, 0xB80), (0xB82, 0xB9F), (0x320, 0x320), (0x323, 0x33F)] ++
  [(0x7A0, 0x7A3), (0x7B0, 0x7B3)]

/-- Whether R36 lists an address. -/
def csrListed (a : CsrAddr) : Bool := csrListedRanges.any fun r => decide (r.1 ≤ a.toNat) && decide (a.toNat ≤ r.2)

/-- The number of a mode (R17). -/
def privCode : Priv → Nat
  | .u => 0
  | .s => 1
  | .m => 3

/-- What the checks of R100 say of an access. -/
inductive CsrCheck where
  | illegal
  | refuse (r : Refusal)
  | ok (c : Csr)
deriving DecidableEq, Repr

/-- The mode and read-only checks, steps 2 and 3 of R100: bits 9:8 are the lowest mode, bits 11:10 = 11 is read-only (R36). -/
def csrForbidden (a : CsrAddr) (priv : Priv) (writes : Bool) : Bool :=
  decide ((a.extractLsb' 8 2).toNat > privCode priv) || (writes && a.extractLsb' 10 2 == 3#2)

/-- The checks of R100, in order, with the refusals of R36 and R111. A listed register that the mode or the read-only check
forbids is illegal whether or not it exists; only a permitted access to it is refused (log entry 4). -/
def State.csrCheck (s : State) (a : CsrAddr) (writes : Bool) : CsrCheck :=
  match csrHeld a with
  | some c =>
    if csrForbidden a s.priv writes then .illegal
    else if s.priv = .m ∧ s.wlen ≠ s.sxlen then .refuse .csrFromWiderMMode
    else .ok c
  | none =>
    if csrListed a then
      if csrForbidden a s.priv writes then .illegal else .refuse (.csrNotSpecified a)
    else .illegal

/-! ## Reading and writing -/

/-- `CSR[name]`: the `SXLEN`-bit value a read returns. -/
def State.readCsr (s : State) : Csr → Word
  | .sstatus => s.sstatus.read s.cfg
  | .sie => s.sie
  | .stvec => s.stvec
  | .sscratch => s.sscratch
  | .sepc => s.sepcRead
  | .scause => s.scause
  | .stval => s.stval
  | .sip => s.sip
  | .satp => s.satp

/-- `CSR[name] <- w`, through the register's legalisation (R109, R110, R35). -/
def State.writeCsr (s : State) (c : Csr) (value : Word) : State :=
  let w := low s.sxlen value
  match c with
  | .sstatus => { s with sstatus := s.sstatus.write s.cfg w }
  | .sie => { s with sie := sieWrite s.cfg w }
  | .stvec => { s with stvec := stvecLegalize s.cfg s.stvec w }
  | .sscratch => { s with sscratch := w }
  | .sepc => { s with sepc := sepcLegal w }
  | .scause => { s with scause := scauseWrite s.cfg s.scause w }
  | .stval => { s with stval := w }
  | .sip => { s with sip := sipWrite s.cfg s.sip w }
  | .satp => { s with satp := satpWrite s.cfg s.satp w }

/-! ## The instructions -/

/-- What is written: the operand, the old value with the operand's bits set, or with them cleared (R101, R102, R103). -/
inductive CsrOp where
  | replace
  | set
  | clear
deriving DecidableEq, Repr

/-- The value written, from the old value and the operand. -/
def csrNew : CsrOp → Word → Word → Word
  | .replace, _, m => m
  | .set, t, m => t ||| m
  | .clear, t, m => t &&& ~~~m

/-- Common to the six instructions (R100, R101, R102): the checks; the old value read and the operand taken before any write; the
register written if the instruction writes; the old value, zero-extended to `X` bits, to `rd`. -/
def csrAccess (i : Instr) (op : CsrOp) (rd : RegIdx) (a : CsrAddr) (operand : Word) (writes : Bool) (s : State) :
    Host.Outcome State Fault Refusal :=
  match s.csrCheck a writes with
  | .illegal => raiseIllegal (encode i) s
  | .refuse r => .refused r
  | .ok c =>
    let t := s.readCsr c
    let s' := if writes then s.writeCsr c (csrNew op t operand) else s
    .next ((s'.wrx rd t).advance)

/-- R101. Always writes. -/
def execCsrrw (rd : RegIdx) (csr : CsrAddr) (rs1 : RegIdx) (s : State) : Host.Outcome State Fault Refusal :=
  csrAccess (.csrrw rd csr rs1) .replace rd csr (s.rdx rs1) true s

/-- R102. Writes iff the rs1 field is not 0. -/
def execCsrrs (rd : RegIdx) (csr : CsrAddr) (rs1 : RegIdx) (s : State) : Host.Outcome State Fault Refusal :=
  csrAccess (.csrrs rd csr rs1) .set rd csr (s.rdx rs1) (rs1 != 0#5) s

/-- R103. Writes iff the rs1 field is not 0. -/
def execCsrrc (rd : RegIdx) (csr : CsrAddr) (rs1 : RegIdx) (s : State) : Host.Outcome State Fault Refusal :=
  csrAccess (.csrrc rd csr rs1) .clear rd csr (s.rdx rs1) (rs1 != 0#5) s

/-- R104. Always writes. -/
def execCsrrwi (rd : RegIdx) (csr : CsrAddr) (uimm : BitVec 5) (s : State) : Host.Outcome State Fault Refusal :=
  csrAccess (.csrrwi rd csr uimm) .replace rd csr (immZero uimm) true s

/-- R105. Writes iff the immediate is not 0. -/
def execCsrrsi (rd : RegIdx) (csr : CsrAddr) (uimm : BitVec 5) (s : State) : Host.Outcome State Fault Refusal :=
  csrAccess (.csrrsi rd csr uimm) .set rd csr (immZero uimm) (uimm != 0#5) s

/-- R106. Writes iff the immediate is not 0. -/
def execCsrrci (rd : RegIdx) (csr : CsrAddr) (uimm : BitVec 5) (s : State) : Host.Outcome State Fault Refusal :=
  csrAccess (.csrrci rd csr uimm) .clear rd csr (immZero uimm) (uimm != 0#5) s

end Sys2Proof.Machine
end

