-- ==== Sys2Proof/Machine/Privileged.lean ====
section
/-! DEFINITION. Environment call, breakpoint, trap return, wait and fence (42_privileged_instructions.md). -/

namespace Sys2Proof.Machine

/-- R120. Always traps; the trap value is 0. -/
def execEcall (s : State) : Host.Outcome State Fault Refusal :=
  match s.priv with
  | .u => raiseExc .ecallFromU 0#64 s
  | .s => raiseExc .ecallFromS 0#64 s
  | .m => raiseExc .ecallFromM 0#64 s

/-- R121. Always traps; the trap value is 0 or the address of the EBREAK, by a draw. -/
def execEbreak (s : State) : Host.Outcome State Fault Refusal :=
  raiseExc .breakpoint (if Config.ebreakTvalIsPc s.draws then s.pcLow else 0#64) s.draw

/-- R122. Illegal in U-mode (`mstatus.TSR` is taken as 0, D10). -/
def execSret (s : State) : Host.Outcome State Fault Refusal :=
  match s.priv with
  | .u => raiseIllegal (encode .sret) s
  | .s => .next s.leaveTrap
  | .m => .next s.leaveTrap

/-- R123. Illegal outside M-mode; in M-mode the spec refuses it. -/
def execMret (s : State) : Host.Outcome State Fault Refusal :=
  match s.priv with
  | .u => raiseIllegal (encode .mret) s
  | .s => raiseIllegal (encode .mret) s
  | .m => .refused .mretInMMode

/-- R124. Completes at once; in U-mode it is illegal or completes, by a draw (`mstatus.TW` is taken as 0, D10). -/
def execWfi (s : State) : Host.Outcome State Fault Refusal :=
  match s.priv with
  | .u => if Config.wfiTrapsInU s.draws then raiseIllegal (encode .wfi) s.draw else .next s.draw.advance
  | .s => .next s.advance
  | .m => .next s.advance

/-- R126. Changes nothing but the pc, since the model keeps no translation cache; illegal in U-mode (`mstatus.TVM` is taken
as 0, D10). -/
def execSfenceVma (rs1 rs2 : RegIdx) (s : State) : Host.Outcome State Fault Refusal :=
  match s.priv with
  | .u => raiseIllegal (encode (.sfenceVma rs1 rs2)) s
  | .s => .next s.advance
  | .m => .next s.advance

end Sys2Proof.Machine
end

