-- ==== Sys2Proof/Machine/Step.lean ====
section
/-! DEFINITION. One step of the hart. -/

namespace Sys2Proof.Machine

/-- Running a fetched word: the instruction it decodes to, or what R78 says of a word that is none. -/
def runWord (w : InstrWord) (s : State) : Host.Outcome State Fault Refusal :=
  match decodeWord w with
  | .ok i => exec i s
  | .error r => runUnmatched r w s

/-- The oracle's move is made, so the step is at an instruction boundary with the pending bits as they now are: a ready interrupt
is taken in place of the instruction (R165), else the instruction is fetched and run, or the fetch's exception is taken. -/
def stepBoundary (s : State) : Host.Outcome State Fault Refusal :=
  match s.irqTaken with
  | some k => takeTrap (.irq k) 0#64 s
  | none => s.fetchWord.andThen s fun w => runWord w s

/-- One step. A state whose `stvec.MODE` is a reserved value is refused (I8). -/
def step (s : State) : Host.Outcome State Fault Refusal :=
  if 2 ≤ (stvecMode s.stvec).toNat then .refused .reservedStvecMode
  else stepBoundary s.oracleMove

/-- The state with an instruction's word (its bits above `nbits` zero) in memory where the next fetch reads it. Nothing else is
changed: from `State.reset` no interrupt is pending and the fetch is granted, so the very next step runs the word (log entry 17). -/
def State.withFetchWord (s : State) (nbits w : Nat) : State :=
  s.writeWord s.fetchAddr (BitVec.ofNat 32 (w % 2 ^ nbits))

end Sys2Proof.Machine
end

