-- ==== Sys2Proof/Safety.lean ====
section
/-! DEFINITION. What counts as a good state, and the words in which claims about the machine are made: the invariant, what an
instruction leaves unchanged, and the values of the spec's rules written as numbers, apart from the machine's own bit operations. -/

namespace Sys2Proof.Machine

/-! ## The invariant -/

/-- A state of the hardware: every register within its width, every hardwired bit at its value, `stvec` legal, the pc and `sepc`
aligned, memory in canonical form within the physical address space. -/
structure State.Inv (s : State) : Prop where
  /-- Memory is in canonical form. -/
  mem_wf : Memory.wf s.mem
  /-- Every written address is a `PALEN`-bit address (R38). -/
  mem_phys : ∀ c ∈ s.mem, c.1 < 2 ^ s.cfg.palen
  /-- Every integer register is `WLEN` bits wide (R10). -/
  regs_width : ∀ i : RegIdx, (s.readReg i).toNat < 2 ^ s.wlen.bits
  /-- The pc is `WLEN` bits wide (R14). -/
  pc_width : s.pc.toNat < 2 ^ s.wlen.bits
  /-- The pc is a multiple of 4 (R16). -/
  pc_aligned : s.pc.toNat % 4 = 0
  /-- `stvec` holds a legal value (R33). -/
  stvec_legal : stvecLegal s.cfg s.stvec = true
  /-- `sepc` has its two low bits 0 (R35). -/
  sepc_aligned : s.sepc.toNat % 4 = 0
  /-- The supervisor registers are `SXLEN` bits wide (R35). -/
  csrs_width : s.sscratch.toNat < 2 ^ s.sxlen.bits ∧ s.sepc.toNat < 2 ^ s.sxlen.bits ∧ s.scause.toNat < 2 ^ s.sxlen.bits ∧
    s.stval.toNat < 2 ^ s.sxlen.bits ∧ s.satp.toNat < 2 ^ s.sxlen.bits
  /-- The bits of `sie` and `sip` that do not exist are 0 (R35). -/
  irq_bits : s.sie &&& ~~~irqMask s.cfg = 0#64 ∧ s.sip &&& ~~~irqMask s.cfg = 0#64
  /-- FS is hardwired 0 without a floating-point unit (R25). -/
  fs_hardwired : s.cfg.hasFpu = false → s.sstatus.fs = 0#2
  /-- UIE and UPIE are hardwired 0 without user-level interrupts (R25). -/
  user_hardwired : s.cfg.userInts = false → s.sstatus.uie = false ∧ s.sstatus.upie = false
  /-- XS, and with it SD, is hardwired 0 without both (R25, D24, I28). -/
  xs_hardwired : s.cfg.hasFpu = false → s.cfg.userInts = false → s.sstatus.xs = 0#2

/-! ## What is kept -/

/-- Every supervisor register is as before. -/
structure CsrsKept (s t : State) : Prop where
  sstatus : t.sstatus = s.sstatus
  stvec : t.stvec = s.stvec
  sie : t.sie = s.sie
  sip : t.sip = s.sip
  sscratch : t.sscratch = s.sscratch
  sepc : t.sepc = s.sepc
  scause : t.scause = s.scause
  stval : t.stval = s.stval
  satp : t.satp = s.satp

/-- Every byte of memory reads as before. -/
def MemKept (s t : State) : Prop := ∀ a : Nat, t.byteAt a = s.byteAt a

/-- Every integer register is as before. -/
def RegsKept (s t : State) : Prop := ∀ j : RegIdx, t.readReg j = s.readReg j

/-- The parameters and the oracle's further moves are as before. -/
def SetupKept (s t : State) : Prop := t.cfg = s.cfg ∧ t.oracle = s.oracle

/-- All but the integer registers and the pc is as before. -/
def OnlyRegsAndPc (s t : State) : Prop :=
  CsrsKept s t ∧ MemKept s t ∧ SetupKept s t ∧ t.priv = s.priv ∧ t.draws = s.draws

/-- All but the pc is as before. -/
def OnlyPc (s t : State) : Prop := RegsKept s t ∧ OnlyRegsAndPc s t

/-- MXR and SUM, `stvec`, `satp`, `sie` and `sscratch` are as before, but for a register whose address is one that is written. -/
def ControlKept (s t : State) (written : CsrAddr → Prop) : Prop :=
  (¬ written 0x100#12 → t.sstatus.mxr = s.sstatus.mxr ∧ t.sstatus.sum = s.sstatus.sum) ∧
  (¬ written 0x105#12 → t.stvec = s.stvec) ∧ (¬ written 0x180#12 → t.satp = s.satp) ∧
  (¬ written 0x104#12 → t.sie = s.sie) ∧ (¬ written 0x140#12 → t.sscratch = s.sscratch)

/-! ## Values as numbers -/

/-- The low `X` bits of a word as a number: what an instruction sees of a register (R90). -/
def seen (x : Xlen) (v : Word) : Nat := v.toNat % 2 ^ x.bits

/-- An `X`-bit result filled to `W` bits by copies of its top bit, as a number (R90): the number itself below `2^(X-1)`, and
`2^W - 2^X` more from there on. -/
def filled (w x : Xlen) (n : Nat) : Nat :=
  if n % 2 ^ x.bits < 2 ^ (x.bits - 1) then n % 2 ^ x.bits else n % 2 ^ x.bits + (2 ^ w.bits - 2 ^ x.bits)

/-- Register `rd` takes the `X`-bit result `n`, filled to `WLEN` bits (R90); `x0` stays zero (R11); every other register is as
before. -/
def RegTakes (s t : State) (rd : RegIdx) (n : Nat) : Prop :=
  (rd ≠ 0#5 → (t.readReg rd).toNat = filled s.wlen s.xlen n) ∧ t.readReg 0#5 = 0#64 ∧
  ∀ j : RegIdx, j ≠ rd → t.readReg j = s.readReg j

/-- The pc becomes the `X`-bit address `n`, held sign-extended (R93). -/
def PcTakes (s t : State) (n : Nat) : Prop := t.pc.toNat = filled s.wlen s.xlen n

/-- The pc becomes the address of the next word (R16). -/
def PcNext (s t : State) : Prop := PcTakes s t (seen s.xlen s.pc + 4)

/-- A number as the result of adding a signed immediate, modulo `2^X` (R95, R97). -/
def plusImm (x : Xlen) (n : Nat) (imm : Int) : Nat := ((n + imm) % (2 ^ x.bits : Nat)).toNat

/-- The effective address of a load or store as a number (R95). -/
def effAddrNat (s : State) (rs1 : RegIdx) (imm : BitVec 12) : Nat := plusImm s.xlen (seen s.xlen (s.readReg rs1)) imm.toInt

/-- The number of four bytes, the first the least significant (R44). -/
def wordNat (b0 b1 b2 b3 : Byte) : Nat := b0.toNat + 256 * b1.toNat + 65536 * b2.toNat + 16777216 * b3.toNat

/-! ## Permissions and traps in the spec's words -/

/-- `PermOK` (R54), for U-mode and S-mode. -/
def PagePermits (kind : AccessKind) (priv : Priv) (sum mxr : Bool) (l : Leaf) : Prop :=
  ((priv = .u ∧ l.u = true) ∨ (priv = .s ∧ kind = .fetch ∧ l.u = false) ∨
    (priv = .s ∧ kind ≠ .fetch ∧ (l.u = false ∨ sum = true))) ∧
  (kind = .load → l.r = true ∨ (mxr = true ∧ l.x = true)) ∧ (kind = .store → l.w = true) ∧ (kind = .fetch → l.x = true)

/-- The handler address as a number of `SXLEN` bits (R172). -/
def handlerNat (s : State) (code : Nat) (isIrq : Bool) : Nat :=
  let base := seen s.sxlen s.stvec / 4 * 4
  if s.stvec.toNat % 4 = 1 ∧ isIrq = true then (base + 4 * code) % 2 ^ s.sxlen.bits else base

/-- `t` is the state of R170 after a trap into S-mode taken in `s`, with this code, interrupt flag and trap value: the saved pc, the
cause, the value, SPP, SPIE, SIE, the mode and the `SXLEN` bits of the handler's pc; integer registers, memory, MXR, SUM and the rest of `sstatus`,
and every other supervisor register are as before. -/
structure Trapped (s t : State) (code : Nat) (isIrq : Bool) (tval : Nat) : Prop where
  sepc : t.sepc.toNat = filled s.sxlen s.xlen (seen s.xlen s.pc) / 4 * 4
  scause : t.scause.toNat = (if isIrq then 2 ^ (s.sxlen.bits - 1) else 0) + code
  stval : t.stval.toNat = tval % 2 ^ s.sxlen.bits
  sstatus : t.sstatus = { s.sstatus with spp := decide (s.priv = .s), spie := s.sstatus.sie, sie := false }
  priv : t.priv = .s
  pc : seen s.sxlen t.pc = handlerNat s code isIrq
  regs : RegsKept s t
  mem : MemKept s t
  stvec : t.stvec = s.stvec
  sie : t.sie = s.sie
  sip : t.sip = s.sip
  sscratch : t.sscratch = s.sscratch
  satp : t.satp = s.satp
  setup : SetupKept s t

/-- The machine can take this trap into S-mode: `stvec` holds a legal MODE and the cause is delegated (R172, R175). -/
def State.CanTrap (s : State) (c : Cause) : Prop := s.stvec.toNat % 4 < 2 ∧ s.trapTarget c = .toS

/-! ## CSR instructions in the spec's words (R101 to R107) -/

/-- The destination, the CSR address and whether it writes, of a CSR instruction (R107). -/
def csrParts : Instr → Option (RegIdx × CsrAddr × Bool)
  | .csrrw rd csr _ => some (rd, csr, true)
  | .csrrs rd csr rs1 => some (rd, csr, decide (rs1 ≠ 0#5))
  | .csrrc rd csr rs1 => some (rd, csr, decide (rs1 ≠ 0#5))
  | .csrrwi rd csr _ => some (rd, csr, true)
  | .csrrsi rd csr uimm => some (rd, csr, decide (uimm ≠ 0#5))
  | .csrrci rd csr uimm => some (rd, csr, decide (uimm ≠ 0#5))
  | _ => none

/-- Bit `k` of the value a CSR instruction writes, from the old value (R101 to R106): the operand's bit, the old bit or the
operand's, the old bit and not the operand's. -/
def csrWritesBit (s : State) (i : Instr) (old : Word) (k : Nat) : Bool :=
  match i with
  | .csrrw _ _ rs1 => (seen s.xlen (s.readReg rs1)).testBit k
  | .csrrs _ _ rs1 => old.getLsbD k || (seen s.xlen (s.readReg rs1)).testBit k
  | .csrrc _ _ rs1 => old.getLsbD k && !(seen s.xlen (s.readReg rs1)).testBit k
  | .csrrwi _ _ uimm => uimm.toNat.testBit k
  | .csrrsi _ _ uimm => old.getLsbD k || uimm.toNat.testBit k
  | .csrrci _ _ uimm => old.getLsbD k && !uimm.toNat.testBit k
  | _ => false

/-- An access to this register is permitted: from S-mode, or from M-mode with `WLEN = SXLEN` (R108, R111). -/
def State.CsrPermitted (s : State) : Prop := s.priv = .s ∨ (s.priv = .m ∧ s.wlen = s.sxlen)

/-- The first three checks of R100 turn this access away: the address names no register, the mode is below its bits 9:8, or it is a
write to a read-only address. -/
def State.CsrIllegal (s : State) (a : CsrAddr) (writes : Bool) : Prop :=
  (csrHeld a = none ∧ csrListed a = false) ∨ a.toNat / 256 % 4 > privCode s.priv ∨ (writes = true ∧ a.toNat / 1024 = 3)

/-! ## Why a step traps or is refused -/

/-- After the oracle's move no interrupt is taken, the fetch is granted, and the word there is this instruction. -/
def State.Runs (s : State) (i : Instr) : Prop :=
  s.irqTaken = none ∧ ∃ w, s.fetchWord = .ok w ∧ decodeWord w = .ok i

/-- The exceptions an instruction raises, each under the condition its rule gives (the column "raised by" of R161). WFI in U-mode may
raise its exception or complete (R124). -/
inductive State.Raises (s : State) : Instr → Exc → Prop where
  /-- R143, R40. -/
  | load (rd rs1 : RegIdx) (imm : BitVec 12) (e : Exc) (tval : Word)
      (h : s.access .load (BitVec.ofNat 64 (effAddrNat s rs1 imm)) 4 = .raise e tval) : s.Raises (.lw rd rs1 imm) e
  /-- R144, R40. -/
  | store (rs2 rs1 : RegIdx) (imm : BitVec 12) (e : Exc) (tval : Word)
      (h : s.access .store (BitVec.ofNat 64 (effAddrNat s rs1 imm)) 4 = .raise e tval) : s.Raises (.sw rs2 rs1 imm) e
  /-- R145. -/
  | branch (rs1 rs2 : RegIdx) (offset : BitVec 13) (taken : seen s.xlen (s.readReg rs1) ≠ seen s.xlen (s.readReg rs2))
      (h : plusImm s.xlen (seen s.xlen s.pc) offset.toInt % 4 ≠ 0) : s.Raises (.bne rs1 rs2 offset) .instrMisaligned
  /-- R100. -/
  | csr (i : Instr) (rd : RegIdx) (a : CsrAddr) (writes : Bool) (parts : csrParts i = some (rd, a, writes))
      (h : s.CsrIllegal a writes) : s.Raises i .illegal
  /-- R120. -/
  | ecallU (h : s.priv = .u) : s.Raises .ecall .ecallFromU
  /-- R120. -/
  | ecallS (h : s.priv = .s) : s.Raises .ecall .ecallFromS
  /-- R120. -/
  | ecallM (h : s.priv = .m) : s.Raises .ecall .ecallFromM
  /-- R121. -/
  | ebreak : s.Raises .ebreak .breakpoint
  /-- R122. -/
  | sret (h : s.priv = .u) : s.Raises .sret .illegal
  /-- R123. -/
  | mret (h : s.priv ≠ .m) : s.Raises .mret .illegal
  /-- R124. -/
  | wfi (h : s.priv = .u) : s.Raises .wfi .illegal
  /-- R126. -/
  | sfenceVma (rs1 rs2 : RegIdx) (h : s.priv = .u) : s.Raises (.sfenceVma rs1 rs2) .illegal

/-- The cause that the step of a state comes to, after the oracle's move: the interrupt taken (R165, R180), the exception of the
fetch (R40), the illegal word (R78), or what the instruction raises. -/
inductive State.Occurs (s : State) : Cause → Prop where
  | irq (k : Irq) (h : s.irqTaken = some k) : s.Occurs (.irq k)
  | fetch (e : Exc) (tval : Word) (boundary : s.irqTaken = none) (h : s.fetchWord = .raise e tval) : s.Occurs (.exc e)
  | word (w : InstrWord) (boundary : s.irqTaken = none) (fetched : s.fetchWord = .ok w) (h : decodeWord w = .error .illegal) :
      s.Occurs (.exc .illegal)
  | instr (i : Instr) (e : Exc) (runs : s.Runs i) (h : s.Raises i e) : s.Occurs (.exc e)

/-- Why a refusal is made in a state whose step, after the oracle's move, comes to it, in the words of the rules that say `refuse`. -/
def State.RefusalReason (s : State) : Refusal → Prop
  /- R175: the cause that occurs has M-mode as its target. -/
  | .trapToMMode => ∃ c, s.Occurs c ∧ s.trapTarget c = .toM
  /- R36: a permitted access to a register that is listed and not described. -/
  | .csrNotSpecified a => csrHeld a = none ∧ csrListed a = true ∧
      ∃ i rd writes, s.Runs i ∧ csrParts i = some (rd, a, writes) ∧ ¬ s.CsrIllegal a writes
  /- R111. -/
  | .csrFromWiderMMode => s.priv = .m ∧ s.wlen ≠ s.sxlen ∧
      ∃ i rd c writes, s.Runs i ∧ csrParts i = some (rd, csrAddress c, writes)
  /- R123. -/
  | .mretInMMode => s.priv = .m ∧ s.Runs .mret
  /- R45. -/
  | .misalignedSplit => s.cfg.misaligned = .split ∧ ∃ rd rs1 imm, effAddrNat s rs1 imm % 4 ≠ 0 ∧
      (s.Runs (.lw rd rs1 imm) ∨ s.Runs (.sw rd rs1 imm))
  /- R78. -/
  | .baseISA w => s.irqTaken = none ∧ s.fetchWord = .ok w ∧ decodeWord w = .error .baseISA
  | _ => False

/-! ## Two runs that differ in what an instruction must not see -/

/-- The two states are equal but for integer registers, and those agree in their low `X` bits. -/
def AgreeBelow (x : Xlen) (s t : State) : Prop :=
  t = { s with regs := t.regs } ∧ ∀ j : RegIdx, seen x (t.readReg j) = seen x (s.readReg j)

/-- The same fault, the same refusal, or next states that agree in their low `X` bits. -/
def OutcomesAgree (x : Xlen) : Host.Outcome State Fault Refusal → Host.Outcome State Fault Refusal → Prop
  | .next s, .next t => AgreeBelow x s t
  | .fault a, .fault b => a = b
  | .refused a, .refused b => a = b
  | _, _ => False

end Sys2Proof.Machine
end

