-- ==== Sys2Proof/Certificates/Slice0/Obligations.lean ====
section
/-! DEFINITION. The statements for the provers, from the spec's numbered rules. A statement about a state holds for every
configuration the state may hold (every admitted pair of widths, every `StvecModes`, mapping, region list and delegation). -/

open Sys2Proof
open Sys2Proof.Machine

/-! ## Encoding -/

/-- Every well-formed instruction decodes from its encoding, as a word and at the head of a list of bytes (R70 to R77). -/
def Obligations.DecodeOfEncode : Prop :=
  ∀ i : Instr, i.wellFormed = true →
    decodeWord (encode i) = .ok i ∧ ∀ rest : List Byte, decode (bytesOfWord (encode i) ++ rest) = .ok (i, rest)

/-- A word that decodes is the encoding of its instruction, which is well formed: no bit of a word is dropped (R71 to R77). -/
def Obligations.EncodeOfDecode : Prop :=
  ∀ (w : InstrWord) (i : Instr), decodeWord w = .ok i → i.wellFormed = true ∧ encode i = w

/-- R77: a word selects a row when `w and mask = match`, no two rows match the same word, and the decoder answers exactly the
instruction of the selected row. -/
def Obligations.DecoderFollowsOpcodeTable : Prop :=
  ∀ w : InstrWord,
    (∀ r ∈ opcodeTable, r.selects w = true → ∃ i, decodeWord w = .ok i ∧ i.mnemonic = r.mnemonic) ∧
    (∀ i, decodeWord w = .ok i → ∃ r ∈ opcodeTable, r.selects w = true ∧ r.mnemonic = i.mnemonic) ∧
    (∀ r ∈ opcodeTable, ∀ r' ∈ opcodeTable, r.selects w = true → r'.selects w = true → r = r')

/-- What a word that selects no row comes to (R78, D30): under the SYSTEM major opcode, URET included, the illegal-instruction trap, with
the word or zero as trap value; under another major opcode the refusal, but for words whose bits 1:0 are not 11 and the all-ones
word, which are illegal (log entry 3: the model's reading of R70 and R78). -/
def Obligations.UnmatchedWords : Prop :=
  ∀ (w : InstrWord) (s : State), (∀ r ∈ opcodeTable, r.selects w = false) →
    ((w.toNat % 128 = 0x73 ∨ w.toNat % 4 ≠ 3 ∨ w.toNat = 2 ^ 32 - 1) → s.CanTrap (.exc .illegal) →
      ∃ t tval, runWord w s = .next t ∧ Trapped s t 2 false tval ∧ (tval = w.toNat ∨ tval = 0)) ∧
    (w.toNat % 128 ≠ 0x73 → w.toNat % 4 = 3 → w.toNat ≠ 2 ^ 32 - 1 → runWord w s = .refused (.baseISA w))

/-- Words of 95_test_vectors.md, one or more of each family, decode to the instructions they stand for (R75, R76, R77). -/
def Obligations.DecodesTheSpecsWords : Prop :=
  decodeWord 0x10529073#32 = .ok (.csrrw 0#5 0x105#12 5#5) ∧ decodeWord 0x1002A073#32 = .ok (.csrrs 0#5 0x100#12 5#5) ∧
  decodeWord 0x1002B073#32 = .ok (.csrrc 0#5 0x100#12 5#5) ∧ decodeWord 0x10017573#32 = .ok (.csrrci 10#5 0x100#12 2#5) ∧
  decodeWord 0x10200073#32 = .ok .sret ∧ decodeWord 0x12B50073#32 = .ok (.sfenceVma 10#5 11#5) ∧
  decodeWord 0x000402B7#32 = .ok (.lui 5#5 0x40#20) ∧ decodeWord 0x00C58533#32 = .ok (.add 10#5 11#5 12#5) ∧
  decodeWord 0x00A6A223#32 = .ok (.sw 10#5 13#5 4#12) ∧ decodeWord 0xFE071EE3#32 = .ok (.bne 14#5 0#5 (-4#13))

/-! ## The step -/

/-- A step runs the decoded instruction. After the oracle's move (R180), where no interrupt is taken and the fetch is granted: if the
four bytes at the physical address of the fetch decode to an instruction, the step is `exec` of it. Nothing else is added around
`exec`: each instruction sets the pc itself. -/
def Obligations.StepRunsDecodedInstruction : Prop :=
  ∀ (s : State) (pa : Nat) (i : Instr), s.stvec.toNat % 4 < 2 → s.oracleMove.irqTaken = none →
    s.oracleMove.access .fetch s.oracleMove.pcLow 4 = .ok pa →
    decode [s.oracleMove.byteAt (s.oracleMove.phys pa 0), s.oracleMove.byteAt (s.oracleMove.phys pa 1),
      s.oracleMove.byteAt (s.oracleMove.phys pa 2), s.oracleMove.byteAt (s.oracleMove.phys pa 3)] = .ok (i, []) →
    step s = exec i s.oracleMove

/-- A word placed where the next fetch reads is the word the next step runs: with translation off, the pc aligned and inside a region
that may be fetched, and no interrupt taken (log entry 17, DESIGN CHOICE: a program is loaded from outside the machine). -/
def Obligations.PlacedWordRuns : Prop :=
  ∀ (s : State) (w : InstrWord) (i : Instr), s.stvec.toNat % 4 < 2 → s.oracleMove.irqTaken = none → s.vmActive = false →
    2 ≤ s.cfg.palen → seen s.xlen s.pc % 4 = 0 → s.physAccessOK .fetch (seen s.xlen s.pc % 2 ^ s.cfg.palen) 4 = true →
    decodeWord w = .ok i → step (s.withFetchWord 32 w.toNat) = exec i (s.withFetchWord 32 w.toNat).oracleMove

/-- The exception of a failed fetch is taken in place of the instruction, with the fetch address as trap value: a missing page or a page
whose marks forbid the fetch (code 12; R54, R57), and a physical address that the map refuses, with or without translation (code 1;
R58). That a misaligned pc raises code 0 with the fetch address, whatever MisalignedPolicy is, is the model's choice, log entry 20. -/
def Obligations.FailedFetchTraps : Prop :=
  ∀ (s0 : State) (s : State), s0.stvec.toNat % 4 < 2 → s = s0.oracleMove → s.irqTaken = none →
    (seen s.xlen s.pc % 4 ≠ 0 → s.CanTrap (.exc .instrMisaligned) →
      ∃ t, step s0 = .next t ∧ Trapped s t 0 false (seen s.xlen s.pc)) ∧
    (seen s.xlen s.pc % 4 = 0 → s.vmActive = true → s.pageLookup (seen s.xlen s.pc) = none → s.CanTrap (.exc .instrPageFault) →
      ∃ t, step s0 = .next t ∧ Trapped s t 12 false (seen s.xlen s.pc)) ∧
    (∀ l, seen s.xlen s.pc % 4 = 0 → s.vmActive = true → s.pageLookup (seen s.xlen s.pc) = some l →
      ¬ PagePermits .fetch s.priv s.sstatus.sum s.sstatus.mxr l → s.CanTrap (.exc .instrPageFault) →
      ∃ t, step s0 = .next t ∧ Trapped s t 12 false (seen s.xlen s.pc)) ∧
    (∀ l, seen s.xlen s.pc % 4 = 0 → s.vmActive = true → s.pageLookup (seen s.xlen s.pc) = some l →
      PagePermits .fetch s.priv s.sstatus.sum s.sstatus.mxr l →
      s.physAccessOK .fetch (l.pa % 2 ^ s.cfg.palen) 4 = false → s.CanTrap (.exc .instrAccessFault) →
      ∃ t, step s0 = .next t ∧ Trapped s t 1 false (seen s.xlen s.pc)) ∧
    (seen s.xlen s.pc % 4 = 0 → s.vmActive = false →
      s.physAccessOK .fetch (seen s.xlen s.pc % 2 ^ s.cfg.palen) 4 = false → s.CanTrap (.exc .instrAccessFault) →
      ∃ t, step s0 = .next t ∧ Trapped s t 1 false (seen s.xlen s.pc))

/-- An interrupt that is pending in `sip` and enabled in `sie`, in U-mode or in S-mode with SIE = 1, is taken in place of the next
instruction, whatever that is; `sepc` is its address; of several the first in the order external (9), software (1), timer (5), then
user external (8), software (0), timer (4), is taken, where every ready one is delegated to S-mode; the code is the bit number (R165,
R180, R161, R170). That its trap value is 0 is the model's reading, log entry 19: only vector P2a gives it. That a ready interrupt
which is not delegated goes before any other, to M-mode, which is refused, is the model's choice, log entry 10. -/
def Obligations.ReadyInterruptIsTaken : Prop :=
  ∀ s0 s : State, s0.stvec.toNat % 4 < 2 → s = s0.oracleMove → (s.priv = .u ∨ (s.priv = .s ∧ s.sstatus.sie = true)) →
    (∀ (before after : List Nat) (k : Nat), [9, 1, 5, 8, 0, 4] = before ++ k :: after →
      s.sip.getLsbD k = true → s.sie.getLsbD k = true →
      (∀ j ∈ before, s.sip.getLsbD j = false ∨ s.sie.getLsbD j = false) →
      (∀ j ∈ [9, 1, 5, 8, 0, 4], s.sip.getLsbD j = true → s.sie.getLsbD j = true → s.cfg.intToS.getLsbD j = true) →
      ∃ t, step s0 = .next t ∧ Trapped s t k true 0) ∧
    (∀ k ∈ [9, 1, 5, 8, 0, 4], s.sip.getLsbD k = true → s.sie.getLsbD k = true → s.cfg.intToS.getLsbD k = false →
      step s0 = .refused .trapToMMode)

/-- No interrupt of `sip` is taken in M-mode, nor in S-mode with SIE = 0, nor when none is both pending and enabled. R180 says so of the
interrupts taken into S-mode; that one which is not delegated is not taken either is the model's choice, log entry 10. -/
def Obligations.NoInterruptUnlessReady : Prop :=
  ∀ s : State, (s.priv = .m ∨ (s.priv = .s ∧ s.sstatus.sie = false) ∨ s.sip &&& s.sie = 0#64) → s.irqTaken = none

/-- The oracle's move changes only pending bits of interrupts that exist, each to what the last change of it in the move says; a bit that
the move does not name is kept, and with no move left all are. R180 and D25 let the oracle set or clear STIP, SEIP and SSIP; that its
moves are a list of which each step takes one, that the last change of a move wins, and that it moves the user pending bits too where
they exist, is the model's choice, log entry 24. -/
def Obligations.OracleMovesPendingBitsOnly : Prop :=
  ∀ s : State,
    s.oracleMove = { s with sip := s.oracleMove.sip, oracle := s.oracleMove.oracle } ∧
    s.oracleMove.oracle = s.oracle.tail ∧ (s.oracle = [] → s.oracleMove.sip = s.sip) ∧
    (∀ n, ¬ (n = 1 ∨ n = 5 ∨ n = 9 ∨ (s.cfg.userInts = true ∧ (n = 0 ∨ n = 4 ∨ n = 8))) →
      s.oracleMove.sip.getLsbD n = s.sip.getLsbD n) ∧
    (∀ (move : OracleMove) (rest : List OracleMove) (k : Irq), s.oracle = move :: rest →
      ((∀ c ∈ move, c.1 ≠ k) → s.oracleMove.sip.getLsbD (irqCode k) = s.sip.getLsbD (irqCode k)) ∧
      (∀ (m m' : OracleMove) (b : Bool), move = m ++ (k, b) :: m' → (∀ c ∈ m', c.1 ≠ k) →
        (k = .ssi ∨ k = .sti ∨ k = .sei ∨ s.cfg.userInts = true) → s.oracleMove.sip.getLsbD (irqCode k) = b))

/-! ## The base instructions -/

/-- R140: LUI writes the immediate, its twelve low bits zero, sign-extended; the next pc; nothing else. -/
def Obligations.LuiResult : Prop :=
  ∀ (s : State) (rd : RegIdx) (imm : BitVec 20),
    ∃ t, exec (.lui rd imm) s = .next t ∧ RegTakes s t rd (filled .x64 .x32 (imm.toNat * 4096)) ∧ PcNext s t ∧ OnlyRegsAndPc s t

/-- R141: ADDI writes the sum modulo `2^X` of what it sees of its source and the sign-extended immediate; the next pc; nothing else. -/
def Obligations.AddiResult : Prop :=
  ∀ (s : State) (rd rs1 : RegIdx) (imm : BitVec 12),
    ∃ t, exec (.addi rd rs1 imm) s = .next t ∧
      RegTakes s t rd (plusImm s.xlen (seen s.xlen (s.readReg rs1)) imm.toInt) ∧ PcNext s t ∧ OnlyRegsAndPc s t

/-- R142: ADD writes the sum modulo `2^X` of what it sees of its sources; the next pc; nothing else. -/
def Obligations.AddResult : Prop :=
  ∀ (s : State) (rd rs1 rs2 : RegIdx),
    ∃ t, exec (.add rd rs1 rs2) s = .next t ∧
      RegTakes s t rd (seen s.xlen (s.readReg rs1) + seen s.xlen (s.readReg rs2)) ∧ PcNext s t ∧ OnlyRegsAndPc s t

/-- The access that LW, SW and a fetch make passes the checks of R40 in order: the reduced address; alignment; translation and the
page's marks (R54); the physical address map. The first that fails is what the access comes to. That a misaligned fetch raises
InstructionAddressMisaligned under either policy is the model's choice, log entry 20, and that a misaligned load or store is refused
under the policy split is its reading of R45, log entry 21. -/
def Obligations.AccessChecksInOrder : Prop :=
  ∀ (s : State) (kind : AccessKind) (ea : Word),
    let va := seen s.xlen ea
    let v := BitVec.ofNat 64 va
    (va % 4 ≠ 0 → (kind = .fetch ∨ s.cfg.misaligned = .trap) → s.access kind ea 4 = .raise (misalignedExc kind) v) ∧
    (va % 4 ≠ 0 → kind ≠ .fetch → s.cfg.misaligned = .split → s.access kind ea 4 = .refuse .misalignedSplit) ∧
    (va % 4 = 0 → s.vmActive = true → s.pageLookup va = none → s.access kind ea 4 = .raise (pageFaultExc kind) v) ∧
    (∀ l, va % 4 = 0 → s.vmActive = true → s.pageLookup va = some l →
      (¬ PagePermits kind s.priv s.sstatus.sum s.sstatus.mxr l → s.access kind ea 4 = .raise (pageFaultExc kind) v) ∧
      (PagePermits kind s.priv s.sstatus.sum s.sstatus.mxr l → s.access kind ea 4 =
        if s.physAccessOK kind (l.pa % 2 ^ s.cfg.palen) 4 then .ok (l.pa % 2 ^ s.cfg.palen) else .raise (accessFaultExc kind) v)) ∧
    (va % 4 = 0 → s.vmActive = false → s.access kind ea 4 =
      if s.physAccessOK kind (va % 2 ^ s.cfg.palen) 4 then .ok (va % 2 ^ s.cfg.palen) else .raise (accessFaultExc kind) v)

/-- R143: where its access is granted at a physical address, LW writes the little-endian word there, sign-extended to `X` bits; the
next pc; nothing else. The effective address is the sum modulo `2^X`. -/
def Obligations.LwResult : Prop :=
  ∀ (s : State) (rd rs1 : RegIdx) (imm : BitVec 12) (pa : Nat),
    s.access .load (BitVec.ofNat 64 (effAddrNat s rs1 imm)) 4 = .ok pa →
    ∃ t, exec (.lw rd rs1 imm) s = .next t ∧
      RegTakes s t rd (filled .x64 .x32 (wordNat (s.byteAt (pa % 2 ^ s.cfg.palen)) (s.byteAt ((pa + 1) % 2 ^ s.cfg.palen))
        (s.byteAt ((pa + 2) % 2 ^ s.cfg.palen)) (s.byteAt ((pa + 3) % 2 ^ s.cfg.palen)))) ∧
      PcNext s t ∧ OnlyRegsAndPc s t

/-- R144: where its access is granted at a physical address, SW stores the low 32 bits of its source there, little-endian, in the four
bytes from that address; every other byte reads as before; the next pc; no register and nothing else changes. -/
def Obligations.SwResult : Prop :=
  ∀ (s : State) (rs2 rs1 : RegIdx) (imm : BitVec 12) (pa : Nat), 2 ≤ s.cfg.palen →
    s.access .store (BitVec.ofNat 64 (effAddrNat s rs1 imm)) 4 = .ok pa →
    ∃ t, exec (.sw rs2 rs1 imm) s = .next t ∧
      (∀ k, k < 4 → (t.byteAt ((pa + k) % 2 ^ s.cfg.palen)).toNat = (s.readReg rs2).toNat / 256 ^ k % 256) ∧
      (∀ a, (∀ k, k < 4 → a ≠ (pa + k) % 2 ^ s.cfg.palen) → t.byteAt a = s.byteAt a) ∧
      PcNext s t ∧ RegsKept s t ∧ CsrsKept s t ∧ SetupKept s t ∧ t.priv = s.priv ∧ t.draws = s.draws

/-- A load or store whose access raises takes that trap, and a refused one is refused: no register and no byte is written (R143, R144,
R162, R170). The codes are 4 and 6 for a misaligned LW and SW under the policy trap (R45), 13 and 15 for an address without a page
(R57), 5 and 7 for a physical address that the map refuses, with or without translation (R58); the trap value is the effective
address (R161). -/
def Obligations.LwSwFaultsTrap : Prop :=
  ∀ (s : State) (rd rs2 rs1 : RegIdx) (imm : BitVec 12),
    let va := effAddrNat s rs1 imm
    let ea := BitVec.ofNat 64 va
    let lwTraps := fun code => ∃ t, exec (.lw rd rs1 imm) s = .next t ∧ Trapped s t code false va
    let swTraps := fun code => ∃ t, exec (.sw rs2 rs1 imm) s = .next t ∧ Trapped s t code false va
    (∀ (e : Exc) (tval : Word),
      (s.access .load ea 4 = .raise e tval → s.CanTrap (.exc e) →
        ∃ t, exec (.lw rd rs1 imm) s = .next t ∧ Trapped s t (excCode e) false tval.toNat) ∧
      (s.access .store ea 4 = .raise e tval → s.CanTrap (.exc e) →
        ∃ t, exec (.sw rs2 rs1 imm) s = .next t ∧ Trapped s t (excCode e) false tval.toNat)) ∧
    (∀ r : Refusal,
      (s.access .load ea 4 = .refuse r → exec (.lw rd rs1 imm) s = .refused r) ∧
      (s.access .store ea 4 = .refuse r → exec (.sw rs2 rs1 imm) s = .refused r)) ∧
    (va % 4 ≠ 0 → s.cfg.misaligned = .trap →
      (s.CanTrap (.exc .loadMisaligned) → lwTraps 4) ∧ (s.CanTrap (.exc .storeMisaligned) → swTraps 6)) ∧
    (va % 4 = 0 → s.vmActive = true → s.pageLookup va = none →
      (s.CanTrap (.exc .loadPageFault) → lwTraps 13) ∧ (s.CanTrap (.exc .storePageFault) → swTraps 15)) ∧
    (va % 4 = 0 → s.vmActive = false →
      (s.physAccessOK .load (va % 2 ^ s.cfg.palen) 4 = false → s.CanTrap (.exc .loadAccessFault) → lwTraps 5) ∧
      (s.physAccessOK .store (va % 2 ^ s.cfg.palen) 4 = false → s.CanTrap (.exc .storeAccessFault) → swTraps 7)) ∧
    (∀ l, va % 4 = 0 → s.vmActive = true → s.pageLookup va = some l →
      (PagePermits .load s.priv s.sstatus.sum s.sstatus.mxr l → s.physAccessOK .load (l.pa % 2 ^ s.cfg.palen) 4 = false →
        s.CanTrap (.exc .loadAccessFault) → lwTraps 5) ∧
      (PagePermits .store s.priv s.sstatus.sum s.sstatus.mxr l → s.physAccessOK .store (l.pa % 2 ^ s.cfg.palen) 4 = false →
        s.CanTrap (.exc .storeAccessFault) → swTraps 7))

/-- A load sees the store before it (R60, R44): after an SW, an LW from the same address gives the stored word, sign-extended. -/
def Obligations.LoadSeesStore : Prop :=
  ∀ (s t : State) (rs2 rs1 rd : RegIdx) (imm : BitVec 12) (pa : Nat), 2 ≤ s.cfg.palen → rd ≠ 0#5 →
    s.access .store (BitVec.ofNat 64 (effAddrNat s rs1 imm)) 4 = .ok pa → exec (.sw rs2 rs1 imm) s = .next t →
    t.access .load (BitVec.ofNat 64 (effAddrNat t rs1 imm)) 4 = .ok pa →
    ∃ u, exec (.lw rd rs1 imm) t = .next u ∧
      (u.readReg rd).toNat = filled s.wlen s.xlen (filled .x64 .x32 ((s.readReg rs2).toNat % 2 ^ 32))

/-- R145: BNE compares what it sees of its sources; equal, it goes to the next pc; unequal, to the pc plus the offset modulo `2^X`, or,
when that is not a multiple of 4, it raises InstructionAddressMisaligned with the target as trap value. Nothing but the pc changes
on a branch. -/
def Obligations.BneResult : Prop :=
  ∀ (s : State) (rs1 rs2 : RegIdx) (offset : BitVec 13),
    let target := plusImm s.xlen (seen s.xlen s.pc) offset.toInt
    (seen s.xlen (s.readReg rs1) = seen s.xlen (s.readReg rs2) →
      ∃ t, exec (.bne rs1 rs2 offset) s = .next t ∧ PcNext s t ∧ OnlyPc s t) ∧
    (seen s.xlen (s.readReg rs1) ≠ seen s.xlen (s.readReg rs2) → target % 4 = 0 →
      ∃ t, exec (.bne rs1 rs2 offset) s = .next t ∧ PcTakes s t target ∧ OnlyPc s t) ∧
    (seen s.xlen (s.readReg rs1) ≠ seen s.xlen (s.readReg rs2) → target % 4 ≠ 0 → s.CanTrap (.exc .instrMisaligned) →
      ∃ t, exec (.bne rs1 rs2 offset) s = .next t ∧ Trapped s t 0 false target)

/-! ## The CSR instructions -/

/-- R101 to R107: each of the six instructions, on a register the model holds and from a mode that may access it, completes: `rd` takes
the old value, the next pc, and the register takes the written value through its legalisation if and only if the instruction writes
(CSRRW and CSRRWI always, the others when the rs1 or uimm field is not 0). The value written is built from the old value and the
operand, both read before any write. Registers, memory, mode and everything but that register are as before. -/
def Obligations.CsrInstructionsComplete : Prop :=
  ∀ (s : State) (i : Instr) (rd : RegIdx) (c : Csr) (writes : Bool), csrParts i = some (rd, csrAddress c, writes) →
    s.CsrPermitted →
    ∃ t, exec i s = .next t ∧ RegTakes s t rd (s.readCsr c).toNat ∧ PcNext s t ∧ MemKept s t ∧ SetupKept s t ∧
      t.priv = s.priv ∧ t.draws = s.draws ∧ (writes = false → CsrsKept s t) ∧
      (writes = true → ∃ w : Word, (∀ k, k < s.sxlen.bits → w.getLsbD k = csrWritesBit s i (s.readCsr c) k) ∧
        CsrsKept (s.writeCsr c w) t)

/-- R100: an access to an address that names no register, from a mode below bits 9:8 of the address, or a write to a read-only address,
raises IllegalInstruction, with the instruction word or zero as trap value; nothing is read or written. A register of R36 that the
mode may access is refused; so is a supervisor register accessed from M-mode with `WLEN != SXLEN` (R111). -/
def Obligations.CsrChecks : Prop :=
  ∀ (s : State) (i : Instr) (rd : RegIdx) (a : CsrAddr) (writes : Bool), csrParts i = some (rd, a, writes) →
    (((csrHeld a = none ∧ csrListed a = false) ∨ a.toNat / 256 % 4 > privCode s.priv ∨ (writes = true ∧ a.toNat / 1024 = 3)) →
      s.CanTrap (.exc .illegal) →
      ∃ t tval, exec i s = .next t ∧ Trapped s t 2 false tval ∧ (tval = (encode i).toNat ∨ tval = 0)) ∧
    (csrHeld a = none → csrListed a = true → a.toNat / 256 % 4 ≤ privCode s.priv → ¬ (writes = true ∧ a.toNat / 1024 = 3) →
      exec i s = .refused (.csrNotSpecified a)) ∧
    (∀ c, a = csrAddress c → s.priv = .m → s.wlen ≠ s.sxlen → exec i s = .refused .csrFromWiderMMode)

/-- The registers of R24, R34 and R35 are at the addresses those rules give, no register is held at another address, and the addresses
listed and not described are exactly those of R36, in the order that rule gives them; none of them holds a register. -/
def Obligations.CsrAddresses : Prop :=
  (csrHeld 0x100#12 = some .sstatus ∧ csrHeld 0x104#12 = some .sie ∧ csrHeld 0x105#12 = some .stvec ∧
    csrHeld 0x140#12 = some .sscratch ∧ csrHeld 0x141#12 = some .sepc ∧ csrHeld 0x142#12 = some .scause ∧
    csrHeld 0x143#12 = some .stval ∧ csrHeld 0x144#12 = some .sip ∧ csrHeld 0x180#12 = some .satp) ∧
  (csrAddress .sstatus = 0x100#12 ∧ csrAddress .sie = 0x104#12 ∧ csrAddress .stvec = 0x105#12 ∧
    csrAddress .sscratch = 0x140#12 ∧ csrAddress .sepc = 0x141#12 ∧ csrAddress .scause = 0x142#12 ∧
    csrAddress .stval = 0x143#12 ∧ csrAddress .sip = 0x144#12 ∧ csrAddress .satp = 0x180#12) ∧
  (∀ (a : CsrAddr) (c : Csr), csrHeld a = some c →
    a ∈ [0x100#12, 0x104#12, 0x105#12, 0x140#12, 0x141#12, 0x142#12, 0x143#12, 0x144#12, 0x180#12] ∧ csrListed a = false) ∧
  (∀ a : CsrAddr, csrListed a = true ↔
    let n := a.toNat
    (n = 0x102 ∨ n = 0x103 ∨ n = 0x106) ∨ (n = 0x000 ∨ n = 0x004 ∨ n = 0x005) ∨ (0x040 ≤ n ∧ n ≤ 0x044) ∨
    (0x001 ≤ n ∧ n ≤ 0x003) ∨ (0xC00 ≤ n ∧ n ≤ 0xC1F) ∨ (0xC80 ≤ n ∧ n ≤ 0xC9F) ∨ (0xF11 ≤ n ∧ n ≤ 0xF14) ∨
    (0x300 ≤ n ∧ n ≤ 0x306) ∨ (0x340 ≤ n ∧ n ≤ 0x344) ∨ (0x3A0 ≤ n ∧ n ≤ 0x3A3) ∨ (0x3B0 ≤ n ∧ n ≤ 0x3BF) ∨
    (n = 0xB00 ∨ n = 0xB02) ∨ (0xB03 ≤ n ∧ n ≤ 0xB1F) ∨ (n = 0xB80 ∨ n = 0xB82) ∨ (0xB83 ≤ n ∧ n ≤ 0xB9F) ∨
    n = 0x320 ∨ (0x323 ≤ n ∧ n ≤ 0x33F) ∨ (0x7A0 ≤ n ∧ n ≤ 0x7A3) ∨ (0x7B0 ≤ n ∧ n ≤ 0x7B3))

/-- R109: what a write of `w` to `sstatus` does to each field, and that no other register changes. That the values 1 and 2 are always
taken by a writable UXL is the model's choice, log entry 11: R27 lets an implementation not support a width. -/
def Obligations.SstatusWrite : Prop :=
  ∀ (s : State) (w : Word), s.writeCsr .sstatus w = { s with sstatus := (s.writeCsr .sstatus w).sstatus } ∧
    (s.writeCsr .sstatus w).sstatus.mxr = w.getLsbD 19 ∧ (s.writeCsr .sstatus w).sstatus.sum = w.getLsbD 18 ∧
    (s.writeCsr .sstatus w).sstatus.spp = w.getLsbD 8 ∧ (s.writeCsr .sstatus w).sstatus.spie = w.getLsbD 5 ∧
    (s.writeCsr .sstatus w).sstatus.sie = w.getLsbD 1 ∧ (s.writeCsr .sstatus w).sstatus.xs = s.sstatus.xs ∧
    (s.cfg.hasFpu = true → (s.writeCsr .sstatus w).sstatus.fs.toNat = w.toNat / 2 ^ 13 % 4) ∧
    (s.cfg.hasFpu = false → (s.writeCsr .sstatus w).sstatus.fs = s.sstatus.fs) ∧
    (s.cfg.userInts = true → (s.writeCsr .sstatus w).sstatus.upie = w.getLsbD 4 ∧
      (s.writeCsr .sstatus w).sstatus.uie = w.getLsbD 0) ∧
    (s.cfg.userInts = false → (s.writeCsr .sstatus w).sstatus.upie = s.sstatus.upie ∧
      (s.writeCsr .sstatus w).sstatus.uie = s.sstatus.uie) ∧
    (¬ (s.sxlen = .x64 ∧ s.cfg.uxlWritable = true) → (s.writeCsr .sstatus w).sstatus.uxl = s.sstatus.uxl) ∧
    (s.sxlen = .x64 → s.cfg.uxlWritable = true → w.toNat / 2 ^ 32 % 4 = 1 → (s.writeCsr .sstatus w).sstatus.uxl = .x32) ∧
    (s.sxlen = .x64 → s.cfg.uxlWritable = true → w.toNat / 2 ^ 32 % 4 = 2 → (s.writeCsr .sstatus w).sstatus.uxl = .x64)

/-- R25: a read of `sstatus` has each field at its bits, SD set exactly when FS = 3 or XS = 3, and every reserved bit 0. A field that is
hardwired reads 0 in every state: FS without a floating-point unit, UIE and UPIE without user-level interrupts, and XS where there is
neither (D24, I28; log entry 31). -/
def Obligations.SstatusRead : Prop :=
  ∀ (s : State) (k : Nat), (s.readCsr .sstatus).getLsbD k =
    let xs := if s.cfg.hasFpu = false ∧ s.cfg.userInts = false then 0#2 else s.sstatus.xs
    let fs := if s.cfg.hasFpu = false then 0#2 else s.sstatus.fs
    ((k = 19 && s.sstatus.mxr) || (k = 18 && s.sstatus.sum) || (k = 16 && xs.getLsbD 1) || (k = 15 && xs.getLsbD 0) ||
     (k = 14 && fs.getLsbD 1) || (k = 13 && fs.getLsbD 0) || (k = 8 && s.sstatus.spp) || (k = 5 && s.sstatus.spie) ||
     (k = 4 && s.cfg.userInts && s.sstatus.upie) || (k = 1 && s.sstatus.sie) || (k = 0 && s.cfg.userInts && s.sstatus.uie) ||
     (k = s.sxlen.bits - 1 && (fs == 3#2 || xs == 3#2)) ||
     (s.sxlen = .x64 && k = 32 && s.sstatus.uxl = .x32) || (s.sxlen = .x64 && k = 33 && s.sstatus.uxl = .x64))

/-- R33 and R110: after any write `stvec` holds a value with a supported MODE and a base aligned for it, within SXLEN bits, whatever
was held or written, and nothing else has changed; a value that is legal and that the implementation can hold (`StvecHolds`) is stored
unchanged; what is stored depends on the old and the written value alone (and the implementation); a read returns it. -/
def Obligations.StvecWrite : Prop :=
  ∀ (s : State) (w : Word), ∃ r : Word, s.writeCsr .stvec w = { s with stvec := r } ∧
    modeSupported s.cfg.stvecModes (BitVec.ofNat 2 (r.toNat % 4)) = true ∧ r.toNat < 2 ^ s.sxlen.bits ∧
    (r.toNat % 4 = 0 ∨ (r.toNat % 4 = 1 ∧ (r.toNat / 4 * 4) % (4 * 2 ^ s.cfg.stvecAlignExp) = 0)) ∧
    (w.toNat < 2 ^ s.sxlen.bits → modeSupported s.cfg.stvecModes (BitVec.ofNat 2 (w.toNat % 4)) = true →
      (w.toNat % 4 = 1 → (w.toNat / 4 * 4) % (4 * 2 ^ s.cfg.stvecAlignExp) = 0) → stvecHolds s.cfg w = true → r = w) ∧
    (∀ u : State, u.cfg = s.cfg → u.stvec = s.stvec → (u.writeCsr .stvec w).stvec = r) ∧ (s.writeCsr .stvec w).readCsr .stvec = r

/-- What a write does to the registers of R35, each changing no other register whatever is written, and that a read returns what is held
(`sepc` with its two low bits 0): `sscratch` and `stval` keep every bit, and `sie` the bits that exist. The rest are the model's
choices within R35: `sepc` holds every multiple of 4 (log entry 16); STIP and SEIP are unwritten from M-mode as from S-mode (log entry
28), and the user bits of `sip`, where they exist, are free (log entry 14); `satp` holds every value with a defined MODE, and after
another a free value of its width (log entry 13); `scause` holds the codes of R161 that this machine writes, and after another a free
value of its width (log entry 12). -/
def Obligations.OtherCsrWrites : Prop :=
  ∀ (s : State) (w : Word),
    (s.readCsr .sscratch = s.sscratch ∧ s.readCsr .stval = s.stval ∧ (s.readCsr .sepc).toNat = s.sepc.toNat / 4 * 4 ∧
      s.readCsr .sie = s.sie ∧ s.readCsr .sip = s.sip ∧ s.readCsr .satp = s.satp ∧ s.readCsr .scause = s.scause) ∧
    (s.writeCsr .sscratch w = { s with sscratch := (s.writeCsr .sscratch w).sscratch } ∧
      s.writeCsr .stval w = { s with stval := (s.writeCsr .stval w).stval } ∧
      s.writeCsr .sepc w = { s with sepc := (s.writeCsr .sepc w).sepc } ∧
      s.writeCsr .sie w = { s with sie := (s.writeCsr .sie w).sie } ∧
      s.writeCsr .sip w = { s with sip := (s.writeCsr .sip w).sip } ∧
      s.writeCsr .satp w = { s with satp := (s.writeCsr .satp w).satp } ∧
      s.writeCsr .scause w = { s with scause := (s.writeCsr .scause w).scause }) ∧
    ((s.writeCsr .satp w).satp.toNat < 2 ^ s.sxlen.bits ∧ (s.writeCsr .scause w).scause.toNat < 2 ^ s.sxlen.bits) ∧
    (w.toNat < 2 ^ s.sxlen.bits →
      (s.writeCsr .sscratch w).sscratch = w ∧ (s.writeCsr .stval w).stval = w ∧
      (s.writeCsr .sepc w).sepc.toNat = w.toNat / 4 * 4 ∧
      (∀ k, (s.writeCsr .sie w).sie.getLsbD k = (w.getLsbD k && (k = 1 || k = 5 || k = 9 ||
        (s.cfg.userInts && (k = 0 || k = 4 || k = 8))))) ∧
      (∀ k, ¬ (s.cfg.userInts = true ∧ (k = 0 ∨ k = 4 ∨ k = 8)) →
        (s.writeCsr .sip w).sip.getLsbD k = if k = 1 then w.getLsbD 1 else s.sip.getLsbD k) ∧
      (s.sxlen = .x32 → (s.writeCsr .satp w).satp = w) ∧
      (s.sxlen = .x64 → (w.toNat / 2 ^ 60 = 0 ∨ w.toNat / 2 ^ 60 = 8 ∨ w.toNat / 2 ^ 60 = 9) → (s.writeCsr .satp w).satp = w) ∧
      (∀ n ∈ [0, 1, 2, 3, 4, 5, 6, 7, 8, 9, 12, 13, 15], w.toNat = n → (s.writeCsr .scause w).scause = w) ∧
      (∀ n ∈ [1, 5, 9], w.toNat = 2 ^ (s.sxlen.bits - 1) + n → (s.writeCsr .scause w).scause = w) ∧
      (s.cfg.userInts = true → ∀ n ∈ [0, 4, 8], w.toNat = 2 ^ (s.sxlen.bits - 1) + n → (s.writeCsr .scause w).scause = w))

/-! ## Environment call, breakpoint, return, wait, fence -/

/-- R120: ECALL traps with code 8 from U-mode and 9 from S-mode, `sepc` its own address and the trap value 0; from M-mode the trap
goes to M-mode, which is refused (R175). -/
def Obligations.EcallTraps : Prop :=
  ∀ s : State,
    (s.priv = .u → s.CanTrap (.exc .ecallFromU) → ∃ t, exec .ecall s = .next t ∧ Trapped s t 8 false 0 ∧ t.draws = s.draws) ∧
    (s.priv = .s → s.CanTrap (.exc .ecallFromS) → ∃ t, exec .ecall s = .next t ∧ Trapped s t 9 false 0 ∧ t.draws = s.draws) ∧
    (s.priv = .m → exec .ecall s = .refused .trapToMMode)

/-- R121: EBREAK traps with code 3, in every mode; the trap value is 0 or its address, which of the two is free. That the address is the
low `X` bits of the pc, zero-extended, is the model's reading, log entry 19. From M-mode the trap goes to M-mode, which is refused
(R175). -/
def Obligations.EbreakTraps : Prop :=
  ∀ s : State,
    (s.CanTrap (.exc .breakpoint) →
      ∃ t tval, exec .ebreak s = .next t ∧ Trapped s t 3 false tval ∧ (tval = 0 ∨ tval = seen s.xlen s.pc)) ∧
    (s.priv = .m → exec .ebreak s = .refused .trapToMMode)

/-- R122: SRET from S-mode or M-mode: the mode from SPP, SIE from SPIE, SPIE = 1, SPP = 0, the `SXLEN` bits of the pc from `sepc` with
its two low bits 0; MXR, SUM and the rest of `sstatus`, every other register and memory are as before. From U-mode it is illegal. -/
def Obligations.SretReturns : Prop :=
  ∀ s : State,
    (s.priv ≠ .u → ∃ t, exec .sret s = .next t ∧ t.priv = (if s.sstatus.spp = true then .s else .u) ∧
      t.sstatus = { s.sstatus with sie := s.sstatus.spie, spie := true, spp := false } ∧
      seen s.sxlen t.pc = seen s.sxlen s.sepc / 4 * 4 ∧ RegsKept s t ∧ MemKept s t ∧ SetupKept s t ∧
      t.stvec = s.stvec ∧ t.sie = s.sie ∧ t.sip = s.sip ∧ t.sscratch = s.sscratch ∧ t.sepc = s.sepc ∧ t.scause = s.scause ∧
      t.stval = s.stval ∧ t.satp = s.satp ∧ t.draws = s.draws) ∧
    (s.priv = .u → s.CanTrap (.exc .illegal) →
      ∃ t tval, exec .sret s = .next t ∧ Trapped s t 2 false tval ∧ (tval = 0x10200073 ∨ tval = 0))

/-- R123: MRET outside M-mode raises IllegalInstruction, which is the only effect the spec gives it; in M-mode it is refused. -/
def Obligations.MretTrapsOrIsRefused : Prop :=
  ∀ s : State,
    (s.priv ≠ .m → s.CanTrap (.exc .illegal) →
      ∃ t tval, exec .mret s = .next t ∧ Trapped s t 2 false tval ∧ (tval = 0x30200073 ∨ tval = 0)) ∧
    (s.priv = .m → exec .mret s = .refused .mretInMMode)

/-- R124: WFI completes at once in S-mode and M-mode, changing nothing but the pc; in U-mode it either does the same (but for the
model's own count of draws) or raises IllegalInstruction, which of the two is free. -/
def Obligations.WfiCompletes : Prop :=
  ∀ s : State,
    (s.priv ≠ .u → ∃ t, exec .wfi s = .next t ∧ PcNext s t ∧ OnlyPc s t) ∧
    (s.priv = .u → s.CanTrap (.exc .illegal) → ∃ t, exec .wfi s = .next t ∧
      ((PcNext s t ∧ RegsKept s t ∧ CsrsKept s t ∧ MemKept s t ∧ SetupKept s t ∧ t.priv = s.priv) ∨
        ∃ tval, Trapped s t 2 false tval ∧ (tval = 0x10500073 ∨ tval = 0)))

/-- R126: SFENCE.VMA in S-mode and M-mode changes nothing but the pc; in U-mode it is illegal. -/
def Obligations.SfenceVmaCompletes : Prop :=
  ∀ (s : State) (rs1 rs2 : RegIdx),
    (s.priv ≠ .u → ∃ t, exec (.sfenceVma rs1 rs2) s = .next t ∧ PcNext s t ∧ OnlyPc s t) ∧
    (s.priv = .u → s.CanTrap (.exc .illegal) → ∃ t tval, exec (.sfenceVma rs1 rs2) s = .next t ∧ Trapped s t 2 false tval ∧
      (tval = (encode (.sfenceVma rs1 rs2)).toNat ∨ tval = 0))

/-! ## Traps -/

/-- A trap into S-mode gives the state of R170, with the handler of R172, for every cause. That the `sepc` saved from a narrower U-mode is
sign-extended is the spec's own choice (R174, D33; log entry 16); the pc is the handler's address in its `SXLEN` bits. -/
def Obligations.TrapEntry : Prop :=
  ∀ (s : State) (c : Cause) (tval : Word), s.CanTrap c →
    ∃ t, takeTrap c tval s = .next t ∧ Trapped s t (causeCode c) (causeIsIrq c) tval.toNat ∧ t.draws = s.draws

/-- R175: a trap that occurs in M-mode, or whose cause is not delegated, goes to M-mode, which is the end of what the spec gives: it is
refused; one that occurs in U-mode or S-mode and is delegated goes to S-mode. -/
def Obligations.TrapTargets : Prop :=
  ∀ (s : State) (c : Cause) (tval : Word),
    (s.priv = .m → takeTrap c tval s = .refused .trapToMMode) ∧
    (s.trapTarget c = .toS ↔ (s.priv ≠ .m ∧
      (if causeIsIrq c then s.cfg.intToS else s.cfg.excToS).getLsbD (causeCode c) = true)) ∧
    (s.trapTarget c = .toM → takeTrap c tval s = .refused .trapToMMode)

/-- R176: SRET after a trap undoes it: the mode and SIE of before, MXR and SUM as they are, and the next fetch from the saved pc. -/
def Obligations.SretUndoesTrap : Prop :=
  ∀ (s t : State) (c : Cause) (tval : Word), takeTrap c tval s = .next t →
    ∃ u, exec .sret t = .next u ∧ u.priv = s.priv ∧ u.sstatus = { s.sstatus with spie := true, spp := false } ∧
      seen u.xlen u.pc = seen s.xlen s.pc / 4 * 4 ∧ RegsKept s u ∧ MemKept s u

/-- R173 and R177: with translation in effect and the handler's address in a page with U = 1, the hart takes the same trap forever: at
every number of steps it stands at the handler's first address in S-mode, having executed nothing: no register or byte of memory
has changed. Whatever SUM and MXR are, and whatever the oracle does. -/
def Obligations.UserPageHandlerLoops : Prop :=
  ∀ (s : State) (l : Leaf), s.priv = .s → s.sstatus.sie = false → s.vmActive = true → s.CanTrap (.exc .instrPageFault) →
    s.stvec.toNat < 2 ^ s.sxlen.bits → seen s.sxlen s.pc = s.stvec.toNat / 4 * 4 →
    s.pageLookup (s.stvec.toNat / 4 * 4) = some l → l.u = true →
    ∀ n : Nat, ∃ t, Sys2Proof.core.run n s = .next t ∧ seen s.sxlen t.pc = s.stvec.toNat / 4 * 4 ∧ t.priv = .s ∧ RegsKept s t ∧
      MemKept s t ∧ (n ≠ 0 → t.scause.toNat = 12 ∧ t.stval.toNat = s.stvec.toNat / 4 * 4)

/-! ## MXR, SUM and U -/

/-- R50, R57: with translation in effect and SUM = 0, an aligned S-mode load or store to a page with U = 1 faults: code 13 or 15, the
reduced address as trap value, nothing written. -/
def Obligations.SumClearFaultsUserPages : Prop :=
  ∀ (s : State) (rd rs2 rs1 : RegIdx) (imm : BitVec 12) (l : Leaf), s.priv = .s → s.vmActive = true → s.sstatus.sum = false →
    s.pageLookup (effAddrNat s rs1 imm) = some l → l.u = true → effAddrNat s rs1 imm % 4 = 0 →
    (s.CanTrap (.exc .loadPageFault) → ∃ t, exec (.lw rd rs1 imm) s = .next t ∧ Trapped s t 13 false (effAddrNat s rs1 imm)) ∧
    (s.CanTrap (.exc .storePageFault) → ∃ t, exec (.sw rs2 rs1 imm) s = .next t ∧ Trapped s t 15 false (effAddrNat s rs1 imm))

/-- R50, R48, R49: with SUM = 1 an S-mode load or store to a page with U = 1 is permitted, as far as the page's other marks and the
physical map permit it: it completes. -/
def Obligations.SumSetPermitsUserPages : Prop :=
  ∀ (s : State) (rd rs2 rs1 : RegIdx) (imm : BitVec 12) (l : Leaf), s.priv = .s → s.vmActive = true → s.sstatus.sum = true →
    s.pageLookup (effAddrNat s rs1 imm) = some l → l.u = true → effAddrNat s rs1 imm % 4 = 0 →
    ((l.r = true ∨ (s.sstatus.mxr = true ∧ l.x = true)) → s.physAccessOK .load (l.pa % 2 ^ s.cfg.palen) 4 = true →
      ∃ t, exec (.lw rd rs1 imm) s = .next t ∧ PcNext s t ∧ t.priv = .s) ∧
    (l.w = true → s.physAccessOK .store (l.pa % 2 ^ s.cfg.palen) 4 = true →
      ∃ t, exec (.sw rs2 rs1 imm) s = .next t ∧ PcNext s t ∧ t.priv = .s)

/-- R48: under translation, in S-mode and U-mode, an aligned load from a page with R = 0 faults with code 13 unless MXR = 1 and X = 1,
whatever SUM is. -/
def Obligations.UnreadablePagesFault : Prop :=
  ∀ (s : State) (rd rs1 : RegIdx) (imm : BitVec 12) (l : Leaf), s.priv ≠ .m → s.vmActive = true →
    s.pageLookup (effAddrNat s rs1 imm) = some l → l.r = false → (s.sstatus.mxr = false ∨ l.x = false) →
    effAddrNat s rs1 imm % 4 = 0 → s.CanTrap (.exc .loadPageFault) →
    ∃ t, exec (.lw rd rs1 imm) s = .next t ∧ Trapped s t 13 false (effAddrNat s rs1 imm)

/-- R51: S-mode can never execute instructions from user pages, regardless of SUM: a step whose aligned fetch is from a page with U = 1
takes the instruction page fault, and the instruction there has no effect. -/
def Obligations.SupervisorNeverExecutesUserPages : Prop :=
  ∀ (s0 s : State) (l : Leaf), s0.stvec.toNat % 4 < 2 → s = s0.oracleMove → s.irqTaken = none → s.priv = .s →
    s.vmActive = true → s.pageLookup (seen s.xlen s.pc) = some l → l.u = true → seen s.xlen s.pc % 4 = 0 →
    s.CanTrap (.exc .instrPageFault) → ∃ t, step s0 = .next t ∧ Trapped s t 12 false (seen s.xlen s.pc)

/-- R55: with page-based virtual memory not in effect MXR and SUM change the outcome of no access; in U-mode SUM changes that of none
at all (R52). And MXR changes that of no store or fetch (R22). -/
def Obligations.MxrSumNeedTranslation : Prop :=
  ∀ (s : State) (mxr sum : Bool) (kind : AccessKind) (ea : Word) (n : Nat),
    (s.vmActive = false →
      { s with sstatus := { s.sstatus with mxr := mxr, sum := sum } }.access kind ea n = s.access kind ea n) ∧
    (s.priv = .u → { s with sstatus := { s.sstatus with sum := sum } }.access kind ea n = s.access kind ea n) ∧
    (kind ≠ .load → { s with sstatus := { s.sstatus with mxr := mxr } }.access kind ea n = s.access kind ea n)

/-- R42 and R43: with UXLEN = 32 and SXLEN = 64, a user-mode access is the access of its address modulo `2^32`, and without translation
a granted one lies in the lowest 4 GiB. -/
def Obligations.UserAddressesAreReduced : Prop :=
  ∀ (s : State) (kind : AccessKind) (ea : Word) (n : Nat), s.priv = .u → s.sxlen = .x64 → s.sstatus.uxl = .x32 →
    s.access kind ea n = s.access kind (BitVec.ofNat 64 (ea.toNat % 2 ^ 32)) n ∧
    (∀ pa, s.vmActive = false → s.access kind ea n = .ok pa → pa = ea.toNat % 2 ^ 32 % 2 ^ s.cfg.palen ∧ pa < 2 ^ 32)

/-! ## Register widths -/

/-- R90 and R94, for every instruction: an instruction ignores the bits of its source registers above the configured XLEN. From states
that differ only in register bits above `X`, it stops alike or goes to states that differ only in such bits. -/
def Obligations.UpperRegisterBitsAreIgnored : Prop :=
  ∀ (i : Instr) (s t : State), AgreeBelow s.xlen s t → OutcomesAgree s.xlen (exec i s) (exec i t)

/-- R90 and R93, for every instruction: whatever register an instruction changes then holds an `X`-bit result sign-extended to fill the
widest supported XLEN. -/
def Obligations.ResultsFillTheRegister : Prop :=
  ∀ (i : Instr) (s t : State) (j : RegIdx), exec i s = .next t → t.readReg j ≠ s.readReg j →
    ∃ n, (t.readReg j).toNat = filled s.wlen s.xlen n

/-! ## Invariants and rules of the whole machine -/

/-- The reset state meets the invariant (the values the spec leaves unspecified there are the model's, log entry 1). -/
def Obligations.ResetMeetsInvariant : Prop := State.reset.Inv

/-- Every step keeps the invariant: registers within their widths, `stvec` legal (R33), the pc and `sepc` aligned (R16, R35), hardwired
bits at their values (R25, D24), memory canonical and within the physical address space (R38). -/
def Obligations.StepKeepsInvariant : Prop :=
  ∀ s t : State, s.Inv → step s = .next t → t.Inv

/-- At reset the mode is M-mode, `x0` reads zero, `stvec` is legal and UXL stands for a legal width (R39, R200, R11). -/
def Obligations.ResetState : Prop :=
  State.reset.priv = .m ∧ State.reset.readReg 0#5 = 0#64 ∧ stvecLegal State.reset.cfg State.reset.stvec = true ∧
  (uxlCode State.reset.sstatus.uxl = 1#64 ∨ uxlCode State.reset.sstatus.uxl = 2#64) ∧ State.reset.mem = []

/-- No step changes the read-only XS field (R25, R109) nor what `x0` reads (R11). That the implementation's parameters lie in the state,
where no step changes them, is the model's choice, log entry 15 (00_scope.md section 7). -/
def Obligations.StepKeepsConfig : Prop :=
  ∀ s t : State, step s = .next t → t.cfg = s.cfg ∧ t.sstatus.xs = s.sstatus.xs ∧ t.readReg 0#5 = 0#64

/-- R17: the mode changes only on trap entry and on a trap-return instruction: a step that changes it either takes, from U-mode, the
trap of R170 for the cause that occurs there (an interrupt taken, or an exception of the fetch, of the word or of the instruction),
or runs SRET, from S-mode or M-mode. -/
def Obligations.ModeChangesOnlyByTrapOrReturn : Prop :=
  ∀ s t : State, step s = .next t → t.priv ≠ s.priv →
    (s.priv = .u ∧ t.priv = .s ∧
      ∃ c tval, s.oracleMove.Occurs c ∧ Trapped s.oracleMove t (causeCode c) (causeIsIrq c) tval) ∨
    (s.oracleMove.Runs .sret ∧ s.priv ≠ .u ∧ t.priv = (if s.sstatus.spp = true then .s else .u))

/-- R108, R184, R170: a user-mode instruction either stays in U-mode and changes no supervisor register, or traps into S-mode, and then no
register or byte of memory changes, nor MXR, SUM, `stvec`, `sie`, `sip`, `sscratch` or `satp`. -/
def Obligations.UserModeKeepsSupervisorState : Prop :=
  ∀ (i : Instr) (s t : State), s.priv = .u → exec i s = .next t →
    (t.priv = .u ∧ CsrsKept s t ∧ SetupKept s t) ∨
    (t.priv = .s ∧ t.stvec = s.stvec ∧ t.sie = s.sie ∧ t.sip = s.sip ∧ t.sscratch = s.sscratch ∧ t.satp = s.satp ∧
      t.sstatus.mxr = s.sstatus.mxr ∧ t.sstatus.sum = s.sstatus.sum ∧ RegsKept s t ∧ MemKept s t)

/-- MXR and SUM change only when a CSR instruction writes `sstatus`: no trap (of an instruction, of a fetch or by an interrupt), no
return and no other instruction clears or sets them; likewise `stvec`, `satp`, `sie` and `sscratch` change only when a CSR
instruction writes that register. Of every instruction, and of every step. R206 and R170 say it of SUM and MXR on a trap, R122 on a
return. -/
def Obligations.OnlyCsrWritesChangeControl : Prop :=
  ∀ s t : State,
    (∀ i : Instr, exec i s = .next t → ControlKept s t fun a => ∃ rd, csrParts i = some (rd, a, true)) ∧
    (step s = .next t → ControlKept s t fun a => ∃ i rd, s.oracleMove.Runs i ∧ csrParts i = some (rd, a, true))

/-- Only SW writes memory: whatever other instruction runs, every byte reads as before (R162 for those that trap). -/
def Obligations.OnlySwWritesMemory : Prop :=
  ∀ (i : Instr) (s t : State), exec i s = .next t → (∀ rs2 rs1 imm, i ≠ .sw rs2 rs1 imm) → MemKept s t

/-- From a state that meets the invariant, in every mode, a step never stops with a fault (93_implementation_defined.md section 1: there
is no stuck state), and it is refused only for a reason of a rule that says `refuse`: the cause that occurs has M-mode as its target
(R175); the instruction that runs is a permitted access to a CSR that is listed and not described (R36), or to a supervisor register
from a wider M-mode (R111), or MRET in M-mode (R123), or a misaligned LW or SW under the policy split (R45); or the word fetched may
belong to BaseISA (R78). -/
def Obligations.StopsOnlyWhereTheSpecRefuses : Prop :=
  ∀ s : State, s.Inv →
    (∀ f, step s ≠ .fault f) ∧ ∀ r, step s = .refused r → s.oracleMove.RefusalReason r

/-- Where a trap or a return sets the pc, it holds the `SXLEN`-bit address sign-extended to `WLEN` bits: the model's choice, log entry
18, since R170 and R122 do not say how the address is extended. -/
def Obligations.TrapAndReturnExtendThePc : Prop :=
  ∀ s t : State,
    (∀ (c : Cause) (tval : Word), takeTrap c tval s = .next t → t.pc.toNat = filled s.wlen s.sxlen t.pc.toNat) ∧
    (s.priv ≠ .u → exec .sret s = .next t → t.pc.toNat = filled s.wlen s.sxlen t.pc.toNat) ∧
    (step s = .next t → t.priv ≠ s.priv → t.pc.toNat = filled s.wlen s.sxlen t.pc.toNat)

/-! ## The numbers and conditions the statements above lean on -/

/-- R161: the codes of the exceptions and of the interrupts, which are also the interrupts' bit numbers in `sip` and `sie` (R180), and
what `scause` holds of them: the Interrupt bit at `SXLEN-1` and the code below (R170). -/
def Obligations.CauseCodes : Prop :=
  (excCode .instrMisaligned = 0 ∧ excCode .instrAccessFault = 1 ∧ excCode .illegal = 2 ∧ excCode .breakpoint = 3 ∧
    excCode .loadMisaligned = 4 ∧ excCode .loadAccessFault = 5 ∧ excCode .storeMisaligned = 6 ∧ excCode .storeAccessFault = 7 ∧
    excCode .ecallFromU = 8 ∧ excCode .ecallFromS = 9 ∧ excCode .ecallFromM = 11 ∧ excCode .instrPageFault = 12 ∧
    excCode .loadPageFault = 13 ∧ excCode .storePageFault = 15) ∧
  (irqCode .usi = 0 ∧ irqCode .ssi = 1 ∧ irqCode .uti = 4 ∧ irqCode .sti = 5 ∧ irqCode .uei = 8 ∧ irqCode .sei = 9) ∧
  (∀ (x : Xlen) (e : Exc), (causeWord x (.exc e)).toNat = excCode e) ∧
  (∀ (x : Xlen) (k : Irq), (causeWord x (.irq k)).toNat = 2 ^ (x.bits - 1) + irqCode k)

/-- The configured XLEN of each mode: `XLEN(U)` is 32 when SXLEN = 32, else what UXL stands for (R27); `XLEN(S) = SXLEN`; `XLEN(M) =
WLEN` (D4); an instruction uses that of the current mode. The pairs of widths (R4), and the numbers of the modes (R17). -/
def Obligations.XlenOfEachMode : Prop :=
  (∀ s : State,
    (s.priv = .u → s.sxlen = .x32 → s.xlen = .x32) ∧ (s.priv = .u → s.sxlen = .x64 → s.sstatus.uxl = .x32 → s.xlen = .x32) ∧
    (s.priv = .u → s.sxlen = .x64 → s.sstatus.uxl = .x64 → s.xlen = .x64) ∧
    (s.priv = .s → s.xlen = s.sxlen) ∧ (s.priv = .m → s.xlen = s.wlen) ∧
    (s.cfg.widths = .w32s32 → s.wlen = .x32 ∧ s.sxlen = .x32) ∧ (s.cfg.widths = .w64s32 → s.wlen = .x64 ∧ s.sxlen = .x32) ∧
    (s.cfg.widths = .w64s64 → s.wlen = .x64 ∧ s.sxlen = .x64)) ∧
  Xlen.bits .x32 = 32 ∧ Xlen.bits .x64 = 64 ∧ privCode .u = 0 ∧ privCode .s = 1 ∧ privCode .m = 3

/-- Page-based virtual memory is in effect exactly when `satp.MODE` is not Bare, that is bit 31 of `satp` for SXLEN = 32 and bits 63:60
for SXLEN = 64 are not 0, and the mode is S or U (R55, R35). -/
def Obligations.TranslationInEffect : Prop :=
  ∀ s : State,
    (s.sxlen = .x32 → (s.vmActive = true ↔ (s.priv = .s ∨ s.priv = .u) ∧ s.satp.toNat / 2 ^ 31 % 2 ≠ 0)) ∧
    (s.sxlen = .x64 → (s.vmActive = true ↔ (s.priv = .s ∨ s.priv = .u) ∧ s.satp.toNat / 2 ^ 60 ≠ 0))

/-- How the model reads the parameters that it holds as data, each its own choice: `PhysAccessOK`, a list of regions, of which one grants
all the bytes (log entry 25); a written-out `PageLookup`, the first entry that holds the address (log entry 8); `StvecModes` and
`StvecHolds`, a set of modes and a list of intervals (log entries 7 and 15). -/
def Obligations.ParametersAsData : Prop :=
  ∀ s : State,
    (∀ (kind : AccessKind) (pa n : Nat), s.physAccessOK kind pa n = true ↔ ∃ r ∈ s.cfg.regions,
      r.base ≤ pa ∧ pa + n ≤ r.base + r.size ∧ (kind = .fetch → r.fetch = true) ∧ (kind = .load → r.read = true) ∧
      (kind = .store → r.write = true)) ∧
    (∀ (before after : List PageEntry) (e : PageEntry) (va : Nat), s.cfg.pages = .table (before ++ e :: after) →
      (∀ d ∈ before, ¬ (d.lo ≤ va ∧ va ≤ d.hi)) → e.lo ≤ va → va ≤ e.hi →
      s.pageLookup va = some ⟨e.pa + (va - e.lo), e.r, e.w, e.x, e.u⟩) ∧
    (∀ (entries : List PageEntry) (va : Nat), s.cfg.pages = .table entries → (∀ d ∈ entries, ¬ (d.lo ≤ va ∧ va ≤ d.hi)) →
      s.pageLookup va = none) ∧
    (modeSupported .directOnly 0#2 = true ∧ modeSupported .directOnly 1#2 = false ∧ modeSupported .vectoredOnly 0#2 = false ∧
      modeSupported .vectoredOnly 1#2 = true ∧ modeSupported .both 0#2 = true ∧ modeSupported .both 1#2 = true ∧
      ∀ modes, modeSupported modes 2#2 = false ∧ modeSupported modes 3#2 = false) ∧
    (∀ w : Word, stvecHolds s.cfg w = true ↔ ∃ r ∈ s.cfg.stvecHolds, r.lo ≤ w.toNat ∧ w.toNat ≤ r.hi)
end

