-- ==== Sys2Proof/Laws/State.lean ====
section
/-! SUPPORT. One lemma per field per update of the state, and the widths and bytes after each update, so that no later proof
unfolds a record update. -/

namespace Sys2Proof.Laws.Fields

open Sys2Proof.Machine

variable (s : State)

/-! ### writeReg -/

@[simp] theorem writeReg_cfg (i : RegIdx) (v : Word) : (s.writeReg i v).cfg = s.cfg := by unfold State.writeReg; split <;> rfl
@[simp] theorem writeReg_pc (i : RegIdx) (v : Word) : (s.writeReg i v).pc = s.pc := by unfold State.writeReg; split <;> rfl
@[simp] theorem writeReg_priv (i : RegIdx) (v : Word) : (s.writeReg i v).priv = s.priv := by unfold State.writeReg; split <;> rfl
@[simp] theorem writeReg_sstatus (i : RegIdx) (v : Word) : (s.writeReg i v).sstatus = s.sstatus := by unfold State.writeReg; split <;> rfl
@[simp] theorem writeReg_stvec (i : RegIdx) (v : Word) : (s.writeReg i v).stvec = s.stvec := by unfold State.writeReg; split <;> rfl
@[simp] theorem writeReg_sie (i : RegIdx) (v : Word) : (s.writeReg i v).sie = s.sie := by unfold State.writeReg; split <;> rfl
@[simp] theorem writeReg_sip (i : RegIdx) (v : Word) : (s.writeReg i v).sip = s.sip := by unfold State.writeReg; split <;> rfl
@[simp] theorem writeReg_sscratch (i : RegIdx) (v : Word) : (s.writeReg i v).sscratch = s.sscratch := by unfold State.writeReg; split <;> rfl
@[simp] theorem writeReg_sepc (i : RegIdx) (v : Word) : (s.writeReg i v).sepc = s.sepc := by unfold State.writeReg; split <;> rfl
@[simp] theorem writeReg_scause (i : RegIdx) (v : Word) : (s.writeReg i v).scause = s.scause := by unfold State.writeReg; split <;> rfl
@[simp] theorem writeReg_stval (i : RegIdx) (v : Word) : (s.writeReg i v).stval = s.stval := by unfold State.writeReg; split <;> rfl
@[simp] theorem writeReg_satp (i : RegIdx) (v : Word) : (s.writeReg i v).satp = s.satp := by unfold State.writeReg; split <;> rfl
@[simp] theorem writeReg_mem (i : RegIdx) (v : Word) : (s.writeReg i v).mem = s.mem := by unfold State.writeReg; split <;> rfl
@[simp] theorem writeReg_oracle (i : RegIdx) (v : Word) : (s.writeReg i v).oracle = s.oracle := by unfold State.writeReg; split <;> rfl
@[simp] theorem writeReg_draws (i : RegIdx) (v : Word) : (s.writeReg i v).draws = s.draws := by unfold State.writeReg; split <;> rfl

/-! ### wrx -/

@[simp] theorem wrx_cfg (i : RegIdx) (v : Word) : (s.wrx i v).cfg = s.cfg := by unfold State.wrx; simp
@[simp] theorem wrx_pc (i : RegIdx) (v : Word) : (s.wrx i v).pc = s.pc := by unfold State.wrx; simp
@[simp] theorem wrx_priv (i : RegIdx) (v : Word) : (s.wrx i v).priv = s.priv := by unfold State.wrx; simp
@[simp] theorem wrx_sstatus (i : RegIdx) (v : Word) : (s.wrx i v).sstatus = s.sstatus := by unfold State.wrx; simp
@[simp] theorem wrx_stvec (i : RegIdx) (v : Word) : (s.wrx i v).stvec = s.stvec := by unfold State.wrx; simp
@[simp] theorem wrx_sie (i : RegIdx) (v : Word) : (s.wrx i v).sie = s.sie := by unfold State.wrx; simp
@[simp] theorem wrx_sip (i : RegIdx) (v : Word) : (s.wrx i v).sip = s.sip := by unfold State.wrx; simp
@[simp] theorem wrx_sscratch (i : RegIdx) (v : Word) : (s.wrx i v).sscratch = s.sscratch := by unfold State.wrx; simp
@[simp] theorem wrx_sepc (i : RegIdx) (v : Word) : (s.wrx i v).sepc = s.sepc := by unfold State.wrx; simp
@[simp] theorem wrx_scause (i : RegIdx) (v : Word) : (s.wrx i v).scause = s.scause := by unfold State.wrx; simp
@[simp] theorem wrx_stval (i : RegIdx) (v : Word) : (s.wrx i v).stval = s.stval := by unfold State.wrx; simp
@[simp] theorem wrx_satp (i : RegIdx) (v : Word) : (s.wrx i v).satp = s.satp := by unfold State.wrx; simp
@[simp] theorem wrx_mem (i : RegIdx) (v : Word) : (s.wrx i v).mem = s.mem := by unfold State.wrx; simp
@[simp] theorem wrx_oracle (i : RegIdx) (v : Word) : (s.wrx i v).oracle = s.oracle := by unfold State.wrx; simp
@[simp] theorem wrx_draws (i : RegIdx) (v : Word) : (s.wrx i v).draws = s.draws := by unfold State.wrx; simp

/-! ### jump -/

@[simp] theorem jump_cfg (v : Word) : (s.jump v).cfg = s.cfg := rfl
@[simp] theorem jump_regs (v : Word) : (s.jump v).regs = s.regs := rfl
@[simp] theorem jump_pc (v : Word) : (s.jump v).pc = s.widen v := rfl
@[simp] theorem jump_priv (v : Word) : (s.jump v).priv = s.priv := rfl
@[simp] theorem jump_sstatus (v : Word) : (s.jump v).sstatus = s.sstatus := rfl
@[simp] theorem jump_stvec (v : Word) : (s.jump v).stvec = s.stvec := rfl
@[simp] theorem jump_sie (v : Word) : (s.jump v).sie = s.sie := rfl
@[simp] theorem jump_sip (v : Word) : (s.jump v).sip = s.sip := rfl
@[simp] theorem jump_sscratch (v : Word) : (s.jump v).sscratch = s.sscratch := rfl
@[simp] theorem jump_sepc (v : Word) : (s.jump v).sepc = s.sepc := rfl
@[simp] theorem jump_scause (v : Word) : (s.jump v).scause = s.scause := rfl
@[simp] theorem jump_stval (v : Word) : (s.jump v).stval = s.stval := rfl
@[simp] theorem jump_satp (v : Word) : (s.jump v).satp = s.satp := rfl
@[simp] theorem jump_mem (v : Word) : (s.jump v).mem = s.mem := rfl
@[simp] theorem jump_oracle (v : Word) : (s.jump v).oracle = s.oracle := rfl
@[simp] theorem jump_draws (v : Word) : (s.jump v).draws = s.draws := rfl

/-! ### advance -/

@[simp] theorem advance_cfg : (s.advance).cfg = s.cfg := rfl
@[simp] theorem advance_regs : (s.advance).regs = s.regs := rfl
@[simp] theorem advance_pc : (s.advance).pc = s.widen (s.pcLow + 4#64) := rfl
@[simp] theorem advance_priv : (s.advance).priv = s.priv := rfl
@[simp] theorem advance_sstatus : (s.advance).sstatus = s.sstatus := rfl
@[simp] theorem advance_stvec : (s.advance).stvec = s.stvec := rfl
@[simp] theorem advance_sie : (s.advance).sie = s.sie := rfl
@[simp] theorem advance_sip : (s.advance).sip = s.sip := rfl
@[simp] theorem advance_sscratch : (s.advance).sscratch = s.sscratch := rfl
@[simp] theorem advance_sepc : (s.advance).sepc = s.sepc := rfl
@[simp] theorem advance_scause : (s.advance).scause = s.scause := rfl
@[simp] theorem advance_stval : (s.advance).stval = s.stval := rfl
@[simp] theorem advance_satp : (s.advance).satp = s.satp := rfl
@[simp] theorem advance_mem : (s.advance).mem = s.mem := rfl
@[simp] theorem advance_oracle : (s.advance).oracle = s.oracle := rfl
@[simp] theorem advance_draws : (s.advance).draws = s.draws := rfl

/-! ### finish -/

@[simp] theorem finish_cfg (i : RegIdx) (v : Word) : (s.finish i v).cfg = s.cfg := by unfold State.finish; simp
@[simp] theorem finish_priv (i : RegIdx) (v : Word) : (s.finish i v).priv = s.priv := by unfold State.finish; simp
@[simp] theorem finish_sstatus (i : RegIdx) (v : Word) : (s.finish i v).sstatus = s.sstatus := by unfold State.finish; simp
@[simp] theorem finish_stvec (i : RegIdx) (v : Word) : (s.finish i v).stvec = s.stvec := by unfold State.finish; simp
@[simp] theorem finish_sie (i : RegIdx) (v : Word) : (s.finish i v).sie = s.sie := by unfold State.finish; simp
@[simp] theorem finish_sip (i : RegIdx) (v : Word) : (s.finish i v).sip = s.sip := by unfold State.finish; simp
@[simp] theorem finish_sscratch (i : RegIdx) (v : Word) : (s.finish i v).sscratch = s.sscratch := by unfold State.finish; simp
@[simp] theorem finish_sepc (i : RegIdx) (v : Word) : (s.finish i v).sepc = s.sepc := by unfold State.finish; simp
@[simp] theorem finish_scause (i : RegIdx) (v : Word) : (s.finish i v).scause = s.scause := by unfold State.finish; simp
@[simp] theorem finish_stval (i : RegIdx) (v : Word) : (s.finish i v).stval = s.stval := by unfold State.finish; simp
@[simp] theorem finish_satp (i : RegIdx) (v : Word) : (s.finish i v).satp = s.satp := by unfold State.finish; simp
@[simp] theorem finish_mem (i : RegIdx) (v : Word) : (s.finish i v).mem = s.mem := by unfold State.finish; simp
@[simp] theorem finish_oracle (i : RegIdx) (v : Word) : (s.finish i v).oracle = s.oracle := by unfold State.finish; simp
@[simp] theorem finish_draws (i : RegIdx) (v : Word) : (s.finish i v).draws = s.draws := by unfold State.finish; simp

/-! ### writeByte -/

@[simp] theorem writeByte_cfg (a : Nat) (v : Byte) : (s.writeByte a v).cfg = s.cfg := rfl
@[simp] theorem writeByte_regs (a : Nat) (v : Byte) : (s.writeByte a v).regs = s.regs := rfl
@[simp] theorem writeByte_pc (a : Nat) (v : Byte) : (s.writeByte a v).pc = s.pc := rfl
@[simp] theorem writeByte_priv (a : Nat) (v : Byte) : (s.writeByte a v).priv = s.priv := rfl
@[simp] theorem writeByte_sstatus (a : Nat) (v : Byte) : (s.writeByte a v).sstatus = s.sstatus := rfl
@[simp] theorem writeByte_stvec (a : Nat) (v : Byte) : (s.writeByte a v).stvec = s.stvec := rfl
@[simp] theorem writeByte_sie (a : Nat) (v : Byte) : (s.writeByte a v).sie = s.sie := rfl
@[simp] theorem writeByte_sip (a : Nat) (v : Byte) : (s.writeByte a v).sip = s.sip := rfl
@[simp] theorem writeByte_sscratch (a : Nat) (v : Byte) : (s.writeByte a v).sscratch = s.sscratch := rfl
@[simp] theorem writeByte_sepc (a : Nat) (v : Byte) : (s.writeByte a v).sepc = s.sepc := rfl
@[simp] theorem writeByte_scause (a : Nat) (v : Byte) : (s.writeByte a v).scause = s.scause := rfl
@[simp] theorem writeByte_stval (a : Nat) (v : Byte) : (s.writeByte a v).stval = s.stval := rfl
@[simp] theorem writeByte_satp (a : Nat) (v : Byte) : (s.writeByte a v).satp = s.satp := rfl
@[simp] theorem writeByte_mem (a : Nat) (v : Byte) : (s.writeByte a v).mem = Memory.write s.mem a v := rfl
@[simp] theorem writeByte_oracle (a : Nat) (v : Byte) : (s.writeByte a v).oracle = s.oracle := rfl
@[simp] theorem writeByte_draws (a : Nat) (v : Byte) : (s.writeByte a v).draws = s.draws := rfl

/-! ### writeWord -/

@[simp] theorem writeWord_cfg (pa : Nat) (v : BitVec 32) : (s.writeWord pa v).cfg = s.cfg := by simp [State.writeWord]
@[simp] theorem writeWord_regs (pa : Nat) (v : BitVec 32) : (s.writeWord pa v).regs = s.regs := by simp [State.writeWord]
@[simp] theorem writeWord_pc (pa : Nat) (v : BitVec 32) : (s.writeWord pa v).pc = s.pc := by simp [State.writeWord]
@[simp] theorem writeWord_priv (pa : Nat) (v : BitVec 32) : (s.writeWord pa v).priv = s.priv := by simp [State.writeWord]
@[simp] theorem writeWord_sstatus (pa : Nat) (v : BitVec 32) : (s.writeWord pa v).sstatus = s.sstatus := by simp [State.writeWord]
@[simp] theorem writeWord_stvec (pa : Nat) (v : BitVec 32) : (s.writeWord pa v).stvec = s.stvec := by simp [State.writeWord]
@[simp] theorem writeWord_sie (pa : Nat) (v : BitVec 32) : (s.writeWord pa v).sie = s.sie := by simp [State.writeWord]
@[simp] theorem writeWord_sip (pa : Nat) (v : BitVec 32) : (s.writeWord pa v).sip = s.sip := by simp [State.writeWord]
@[simp] theorem writeWord_sscratch (pa : Nat) (v : BitVec 32) : (s.writeWord pa v).sscratch = s.sscratch := by simp [State.writeWord]
@[simp] theorem writeWord_sepc (pa : Nat) (v : BitVec 32) : (s.writeWord pa v).sepc = s.sepc := by simp [State.writeWord]
@[simp] theorem writeWord_scause (pa : Nat) (v : BitVec 32) : (s.writeWord pa v).scause = s.scause := by simp [State.writeWord]
@[simp] theorem writeWord_stval (pa : Nat) (v : BitVec 32) : (s.writeWord pa v).stval = s.stval := by simp [State.writeWord]
@[simp] theorem writeWord_satp (pa : Nat) (v : BitVec 32) : (s.writeWord pa v).satp = s.satp := by simp [State.writeWord]
@[simp] theorem writeWord_oracle (pa : Nat) (v : BitVec 32) : (s.writeWord pa v).oracle = s.oracle := by simp [State.writeWord]
@[simp] theorem writeWord_draws (pa : Nat) (v : BitVec 32) : (s.writeWord pa v).draws = s.draws := by simp [State.writeWord]

/-! ### draw -/

@[simp] theorem draw_cfg : (s.draw).cfg = s.cfg := rfl
@[simp] theorem draw_regs : (s.draw).regs = s.regs := rfl
@[simp] theorem draw_pc : (s.draw).pc = s.pc := rfl
@[simp] theorem draw_priv : (s.draw).priv = s.priv := rfl
@[simp] theorem draw_sstatus : (s.draw).sstatus = s.sstatus := rfl
@[simp] theorem draw_stvec : (s.draw).stvec = s.stvec := rfl
@[simp] theorem draw_sie : (s.draw).sie = s.sie := rfl
@[simp] theorem draw_sip : (s.draw).sip = s.sip := rfl
@[simp] theorem draw_sscratch : (s.draw).sscratch = s.sscratch := rfl
@[simp] theorem draw_sepc : (s.draw).sepc = s.sepc := rfl
@[simp] theorem draw_scause : (s.draw).scause = s.scause := rfl
@[simp] theorem draw_stval : (s.draw).stval = s.stval := rfl
@[simp] theorem draw_satp : (s.draw).satp = s.satp := rfl
@[simp] theorem draw_mem : (s.draw).mem = s.mem := rfl
@[simp] theorem draw_oracle : (s.draw).oracle = s.oracle := rfl
@[simp] theorem draw_draws : (s.draw).draws = s.draws + 1 := rfl

/-! ### enterTrap -/

@[simp] theorem enterTrap_cfg (c : Cause) (tval h : Word) : (s.enterTrap c tval h).cfg = s.cfg := rfl
@[simp] theorem enterTrap_regs (c : Cause) (tval h : Word) : (s.enterTrap c tval h).regs = s.regs := rfl
@[simp] theorem enterTrap_pc (c : Cause) (tval h : Word) : (s.enterTrap c tval h).pc = low s.wlen (fill s.sxlen h) := rfl
@[simp] theorem enterTrap_priv (c : Cause) (tval h : Word) : (s.enterTrap c tval h).priv = .s := rfl
@[simp] theorem enterTrap_sstatus (c : Cause) (tval h : Word) : (s.enterTrap c tval h).sstatus = s.sstatus.onTrap (s.priv == .s) := rfl
@[simp] theorem enterTrap_stvec (c : Cause) (tval h : Word) : (s.enterTrap c tval h).stvec = s.stvec := rfl
@[simp] theorem enterTrap_sie (c : Cause) (tval h : Word) : (s.enterTrap c tval h).sie = s.sie := rfl
@[simp] theorem enterTrap_sip (c : Cause) (tval h : Word) : (s.enterTrap c tval h).sip = s.sip := rfl
@[simp] theorem enterTrap_sscratch (c : Cause) (tval h : Word) : (s.enterTrap c tval h).sscratch = s.sscratch := rfl
@[simp] theorem enterTrap_sepc (c : Cause) (tval h : Word) : (s.enterTrap c tval h).sepc = sepcLegal (low s.sxlen (fill s.xlen s.pc)) := rfl
@[simp] theorem enterTrap_scause (c : Cause) (tval h : Word) : (s.enterTrap c tval h).scause = causeWord s.sxlen c := rfl
@[simp] theorem enterTrap_stval (c : Cause) (tval h : Word) : (s.enterTrap c tval h).stval = low s.sxlen tval := rfl
@[simp] theorem enterTrap_satp (c : Cause) (tval h : Word) : (s.enterTrap c tval h).satp = s.satp := rfl
@[simp] theorem enterTrap_mem (c : Cause) (tval h : Word) : (s.enterTrap c tval h).mem = s.mem := rfl
@[simp] theorem enterTrap_oracle (c : Cause) (tval h : Word) : (s.enterTrap c tval h).oracle = s.oracle := rfl
@[simp] theorem enterTrap_draws (c : Cause) (tval h : Word) : (s.enterTrap c tval h).draws = s.draws := rfl

/-! ### leaveTrap -/

@[simp] theorem leaveTrap_cfg : (s.leaveTrap).cfg = s.cfg := rfl
@[simp] theorem leaveTrap_regs : (s.leaveTrap).regs = s.regs := rfl
@[simp] theorem leaveTrap_pc : (s.leaveTrap).pc = low s.wlen (fill s.sxlen s.sepcRead) := rfl
@[simp] theorem leaveTrap_priv : (s.leaveTrap).priv = if s.sstatus.spp then .s else .u := rfl
@[simp] theorem leaveTrap_sstatus : (s.leaveTrap).sstatus = s.sstatus.onReturn := rfl
@[simp] theorem leaveTrap_stvec : (s.leaveTrap).stvec = s.stvec := rfl
@[simp] theorem leaveTrap_sie : (s.leaveTrap).sie = s.sie := rfl
@[simp] theorem leaveTrap_sip : (s.leaveTrap).sip = s.sip := rfl
@[simp] theorem leaveTrap_sscratch : (s.leaveTrap).sscratch = s.sscratch := rfl
@[simp] theorem leaveTrap_sepc : (s.leaveTrap).sepc = s.sepc := rfl
@[simp] theorem leaveTrap_scause : (s.leaveTrap).scause = s.scause := rfl
@[simp] theorem leaveTrap_stval : (s.leaveTrap).stval = s.stval := rfl
@[simp] theorem leaveTrap_satp : (s.leaveTrap).satp = s.satp := rfl
@[simp] theorem leaveTrap_mem : (s.leaveTrap).mem = s.mem := rfl
@[simp] theorem leaveTrap_oracle : (s.leaveTrap).oracle = s.oracle := rfl
@[simp] theorem leaveTrap_draws : (s.leaveTrap).draws = s.draws := rfl

/-! ### oracleMove -/

@[simp] theorem oracleMove_cfg : (s.oracleMove).cfg = s.cfg := by unfold State.oracleMove; split <;> rfl
@[simp] theorem oracleMove_regs : (s.oracleMove).regs = s.regs := by unfold State.oracleMove; split <;> rfl
@[simp] theorem oracleMove_pc : (s.oracleMove).pc = s.pc := by unfold State.oracleMove; split <;> rfl
@[simp] theorem oracleMove_priv : (s.oracleMove).priv = s.priv := by unfold State.oracleMove; split <;> rfl
@[simp] theorem oracleMove_sstatus : (s.oracleMove).sstatus = s.sstatus := by unfold State.oracleMove; split <;> rfl
@[simp] theorem oracleMove_stvec : (s.oracleMove).stvec = s.stvec := by unfold State.oracleMove; split <;> rfl
@[simp] theorem oracleMove_sie : (s.oracleMove).sie = s.sie := by unfold State.oracleMove; split <;> rfl
@[simp] theorem oracleMove_sscratch : (s.oracleMove).sscratch = s.sscratch := by unfold State.oracleMove; split <;> rfl
@[simp] theorem oracleMove_sepc : (s.oracleMove).sepc = s.sepc := by unfold State.oracleMove; split <;> rfl
@[simp] theorem oracleMove_scause : (s.oracleMove).scause = s.scause := by unfold State.oracleMove; split <;> rfl
@[simp] theorem oracleMove_stval : (s.oracleMove).stval = s.stval := by unfold State.oracleMove; split <;> rfl
@[simp] theorem oracleMove_satp : (s.oracleMove).satp = s.satp := by unfold State.oracleMove; split <;> rfl
@[simp] theorem oracleMove_mem : (s.oracleMove).mem = s.mem := by unfold State.oracleMove; split <;> rfl
@[simp] theorem oracleMove_draws : (s.oracleMove).draws = s.draws := by unfold State.oracleMove; split <;> rfl

/-! ### writeCsr -/

@[simp] theorem writeCsr_cfg (c : Csr) (v : Word) : (s.writeCsr c v).cfg = s.cfg := by cases c <;> rfl
@[simp] theorem writeCsr_regs (c : Csr) (v : Word) : (s.writeCsr c v).regs = s.regs := by cases c <;> rfl
@[simp] theorem writeCsr_pc (c : Csr) (v : Word) : (s.writeCsr c v).pc = s.pc := by cases c <;> rfl
@[simp] theorem writeCsr_priv (c : Csr) (v : Word) : (s.writeCsr c v).priv = s.priv := by cases c <;> rfl
@[simp] theorem writeCsr_mem (c : Csr) (v : Word) : (s.writeCsr c v).mem = s.mem := by cases c <;> rfl
@[simp] theorem writeCsr_oracle (c : Csr) (v : Word) : (s.writeCsr c v).oracle = s.oracle := by cases c <;> rfl
@[simp] theorem writeCsr_draws (c : Csr) (v : Word) : (s.writeCsr c v).draws = s.draws := by cases c <;> rfl

/-! ### The widths after an update -/

@[simp] theorem writeReg_wlen (i : RegIdx) (v : Word) : (s.writeReg i v).wlen = s.wlen := by simp [State.wlen]
@[simp] theorem writeReg_sxlen (i : RegIdx) (v : Word) : (s.writeReg i v).sxlen = s.sxlen := by simp [State.sxlen]
@[simp] theorem writeReg_uxlen (i : RegIdx) (v : Word) : (s.writeReg i v).uxlen = s.uxlen := by simp [State.uxlen]
@[simp] theorem writeReg_xlen (i : RegIdx) (v : Word) : (s.writeReg i v).xlen = s.xlen := by unfold State.xlen State.xlenOf; simp
@[simp] theorem writeReg_widen (i : RegIdx) (v : Word) (w : Word) : (s.writeReg i v).widen w = s.widen w := by simp [State.widen]
@[simp] theorem wrx_wlen (i : RegIdx) (v : Word) : (s.wrx i v).wlen = s.wlen := by simp [State.wlen]
@[simp] theorem wrx_sxlen (i : RegIdx) (v : Word) : (s.wrx i v).sxlen = s.sxlen := by simp [State.sxlen]
@[simp] theorem wrx_uxlen (i : RegIdx) (v : Word) : (s.wrx i v).uxlen = s.uxlen := by simp [State.uxlen]
@[simp] theorem wrx_xlen (i : RegIdx) (v : Word) : (s.wrx i v).xlen = s.xlen := by unfold State.xlen State.xlenOf; simp
@[simp] theorem wrx_widen (i : RegIdx) (v : Word) (w : Word) : (s.wrx i v).widen w = s.widen w := by simp [State.widen]
@[simp] theorem jump_wlen (v : Word) : (s.jump v).wlen = s.wlen := by simp [State.wlen]
@[simp] theorem jump_sxlen (v : Word) : (s.jump v).sxlen = s.sxlen := by simp [State.sxlen]
@[simp] theorem jump_uxlen (v : Word) : (s.jump v).uxlen = s.uxlen := by simp [State.uxlen]
@[simp] theorem jump_xlen (v : Word) : (s.jump v).xlen = s.xlen := by unfold State.xlen State.xlenOf; simp
@[simp] theorem jump_widen (v : Word) (w : Word) : (s.jump v).widen w = s.widen w := by simp [State.widen]
@[simp] theorem advance_wlen : (s.advance).wlen = s.wlen := by simp [State.wlen]
@[simp] theorem advance_sxlen : (s.advance).sxlen = s.sxlen := by simp [State.sxlen]
@[simp] theorem advance_uxlen : (s.advance).uxlen = s.uxlen := by simp [State.uxlen]
@[simp] theorem advance_xlen : (s.advance).xlen = s.xlen := by unfold State.xlen State.xlenOf; simp
@[simp] theorem advance_widen (w : Word) : (s.advance).widen w = s.widen w := by simp [State.widen]
@[simp] theorem finish_wlen (i : RegIdx) (v : Word) : (s.finish i v).wlen = s.wlen := by simp [State.wlen]
@[simp] theorem finish_sxlen (i : RegIdx) (v : Word) : (s.finish i v).sxlen = s.sxlen := by simp [State.sxlen]
@[simp] theorem finish_uxlen (i : RegIdx) (v : Word) : (s.finish i v).uxlen = s.uxlen := by simp [State.uxlen]
@[simp] theorem finish_xlen (i : RegIdx) (v : Word) : (s.finish i v).xlen = s.xlen := by unfold State.xlen State.xlenOf; simp
@[simp] theorem finish_widen (i : RegIdx) (v : Word) (w : Word) : (s.finish i v).widen w = s.widen w := by simp [State.widen]
@[simp] theorem writeByte_wlen (a : Nat) (v : Byte) : (s.writeByte a v).wlen = s.wlen := by simp [State.wlen]
@[simp] theorem writeByte_sxlen (a : Nat) (v : Byte) : (s.writeByte a v).sxlen = s.sxlen := by simp [State.sxlen]
@[simp] theorem writeByte_uxlen (a : Nat) (v : Byte) : (s.writeByte a v).uxlen = s.uxlen := by simp [State.uxlen]
@[simp] theorem writeByte_xlen (a : Nat) (v : Byte) : (s.writeByte a v).xlen = s.xlen := by unfold State.xlen State.xlenOf; simp
@[simp] theorem writeByte_widen (a : Nat) (v : Byte) (w : Word) : (s.writeByte a v).widen w = s.widen w := by simp [State.widen]
@[simp] theorem writeWord_wlen (pa : Nat) (v : BitVec 32) : (s.writeWord pa v).wlen = s.wlen := by simp [State.wlen]
@[simp] theorem writeWord_sxlen (pa : Nat) (v : BitVec 32) : (s.writeWord pa v).sxlen = s.sxlen := by simp [State.sxlen]
@[simp] theorem writeWord_uxlen (pa : Nat) (v : BitVec 32) : (s.writeWord pa v).uxlen = s.uxlen := by simp [State.uxlen]
@[simp] theorem writeWord_xlen (pa : Nat) (v : BitVec 32) : (s.writeWord pa v).xlen = s.xlen := by unfold State.xlen State.xlenOf; simp
@[simp] theorem writeWord_widen (pa : Nat) (v : BitVec 32) (w : Word) : (s.writeWord pa v).widen w = s.widen w := by simp [State.widen]
@[simp] theorem draw_wlen : (s.draw).wlen = s.wlen := by simp [State.wlen]
@[simp] theorem draw_sxlen : (s.draw).sxlen = s.sxlen := by simp [State.sxlen]
@[simp] theorem draw_uxlen : (s.draw).uxlen = s.uxlen := by simp [State.uxlen]
@[simp] theorem draw_xlen : (s.draw).xlen = s.xlen := by unfold State.xlen State.xlenOf; simp
@[simp] theorem draw_widen (w : Word) : (s.draw).widen w = s.widen w := by simp [State.widen]
@[simp] theorem enterTrap_wlen (c : Cause) (tval h : Word) : (s.enterTrap c tval h).wlen = s.wlen := by simp [State.wlen]
@[simp] theorem enterTrap_sxlen (c : Cause) (tval h : Word) : (s.enterTrap c tval h).sxlen = s.sxlen := by simp [State.sxlen]
@[simp] theorem leaveTrap_wlen : (s.leaveTrap).wlen = s.wlen := by simp [State.wlen]
@[simp] theorem leaveTrap_sxlen : (s.leaveTrap).sxlen = s.sxlen := by simp [State.sxlen]
@[simp] theorem oracleMove_wlen : (s.oracleMove).wlen = s.wlen := by simp [State.wlen]
@[simp] theorem oracleMove_sxlen : (s.oracleMove).sxlen = s.sxlen := by simp [State.sxlen]
@[simp] theorem oracleMove_uxlen : (s.oracleMove).uxlen = s.uxlen := by simp [State.uxlen]
@[simp] theorem oracleMove_xlen : (s.oracleMove).xlen = s.xlen := by unfold State.xlen State.xlenOf; simp
@[simp] theorem oracleMove_widen (w : Word) : (s.oracleMove).widen w = s.widen w := by simp [State.widen]
@[simp] theorem writeCsr_wlen (c : Csr) (v : Word) : (s.writeCsr c v).wlen = s.wlen := by simp [State.wlen]
@[simp] theorem writeCsr_sxlen (c : Csr) (v : Word) : (s.writeCsr c v).sxlen = s.sxlen := by simp [State.sxlen]

/-- A write to a CSR can change UXLEN, and no other mode's width. -/
theorem writeCsr_xlen (c : Csr) (v : Word) (h : s.priv ≠ .u) : (s.writeCsr c v).xlen = s.xlen := by
  unfold State.xlen State.xlenOf
  cases hp : s.priv <;> simp_all

/-- A trap keeps UXLEN. -/
@[simp] theorem enterTrap_uxlen (c : Cause) (tval h : Word) : (s.enterTrap c tval h).uxlen = s.uxlen := by
  simp [State.uxlen, Sstatus.onTrap]

/-- A return keeps UXLEN. -/
@[simp] theorem leaveTrap_uxlen : s.leaveTrap.uxlen = s.uxlen := by
  simp [State.uxlen, Sstatus.onReturn]

/-! ### Registers after an update of something else -/

theorem readReg_congr {s t : State} (h : t.regs = s.regs) (i : RegIdx) : t.readReg i = s.readReg i := by
  simp [State.readReg, h]

@[simp] theorem jump_readReg (v : Word) (j : RegIdx) : (s.jump v).readReg j = s.readReg j := readReg_congr (by simp) j
@[simp] theorem advance_readReg (j : RegIdx) : (s.advance).readReg j = s.readReg j := readReg_congr (by simp) j
@[simp] theorem writeByte_readReg (a : Nat) (v : Byte) (j : RegIdx) : (s.writeByte a v).readReg j = s.readReg j := readReg_congr (by simp) j
@[simp] theorem writeWord_readReg (pa : Nat) (v : BitVec 32) (j : RegIdx) : (s.writeWord pa v).readReg j = s.readReg j := readReg_congr (by simp) j
@[simp] theorem draw_readReg (j : RegIdx) : (s.draw).readReg j = s.readReg j := readReg_congr (by simp) j
@[simp] theorem enterTrap_readReg (c : Cause) (tval h : Word) (j : RegIdx) : (s.enterTrap c tval h).readReg j = s.readReg j := readReg_congr (by simp) j
@[simp] theorem leaveTrap_readReg (j : RegIdx) : (s.leaveTrap).readReg j = s.readReg j := readReg_congr (by simp) j
@[simp] theorem oracleMove_readReg (j : RegIdx) : (s.oracleMove).readReg j = s.readReg j := readReg_congr (by simp) j
@[simp] theorem writeCsr_readReg (c : Csr) (v : Word) (j : RegIdx) : (s.writeCsr c v).readReg j = s.readReg j := readReg_congr (by simp) j

/-! ### Bytes after an update of something else -/

theorem byteAt_congr {s t : State} (h : t.mem = s.mem) (a : Nat) : t.byteAt a = s.byteAt a := by
  simp [State.byteAt, h]

@[simp] theorem writeReg_byteAt (i : RegIdx) (v : Word) (a : Nat) : (s.writeReg i v).byteAt a = s.byteAt a := byteAt_congr (by simp) a
@[simp] theorem wrx_byteAt (i : RegIdx) (v : Word) (a : Nat) : (s.wrx i v).byteAt a = s.byteAt a := byteAt_congr (by simp) a
@[simp] theorem jump_byteAt (v : Word) (a : Nat) : (s.jump v).byteAt a = s.byteAt a := byteAt_congr (by simp) a
@[simp] theorem advance_byteAt (a : Nat) : (s.advance).byteAt a = s.byteAt a := byteAt_congr (by simp) a
@[simp] theorem finish_byteAt (i : RegIdx) (v : Word) (a : Nat) : (s.finish i v).byteAt a = s.byteAt a := byteAt_congr (by simp) a
@[simp] theorem draw_byteAt (a : Nat) : (s.draw).byteAt a = s.byteAt a := byteAt_congr (by simp) a
@[simp] theorem enterTrap_byteAt (c : Cause) (tval h : Word) (a : Nat) : (s.enterTrap c tval h).byteAt a = s.byteAt a := byteAt_congr (by simp) a
@[simp] theorem leaveTrap_byteAt (a : Nat) : (s.leaveTrap).byteAt a = s.byteAt a := byteAt_congr (by simp) a
@[simp] theorem oracleMove_byteAt (a : Nat) : (s.oracleMove).byteAt a = s.byteAt a := byteAt_congr (by simp) a
@[simp] theorem writeCsr_byteAt (c : Csr) (v : Word) (a : Nat) : (s.writeCsr c v).byteAt a = s.byteAt a := byteAt_congr (by simp) a

/-! ### the wired fields of sstatus -/

variable (cfg : Config) (f : Sstatus)

@[simp] theorem wired_mxr : (f.wired cfg).mxr = f.mxr := rfl
@[simp] theorem wired_sum : (f.wired cfg).sum = f.sum := rfl
@[simp] theorem wired_spp : (f.wired cfg).spp = f.spp := rfl
@[simp] theorem wired_spie : (f.wired cfg).spie = f.spie := rfl
@[simp] theorem wired_sie : (f.wired cfg).sie = f.sie := rfl
@[simp] theorem wired_uxl : (f.wired cfg).uxl = f.uxl := rfl
@[simp] theorem wired_upie : (f.wired cfg).upie = (cfg.userInts && f.upie) := rfl
@[simp] theorem wired_uie : (f.wired cfg).uie = (cfg.userInts && f.uie) := rfl
@[simp] theorem wired_fs : (f.wired cfg).fs = if cfg.hasFpu then f.fs else 0#2 := rfl
@[simp] theorem wired_xs : (f.wired cfg).xs = if cfg.hasFpu || cfg.userInts then f.xs else 0#2 := rfl

end Sys2Proof.Laws.Fields
end

