-- ==== Sys2Proof/Laws/Values.lean ====
section
/-! SUPPORT. The machine's bit operations as numbers: `low` is `seen`, `widen` is `filled`, a register write is `RegTakes`. -/

namespace Sys2Proof.Laws

open Sys2Proof.Machine

/-! ## Widths -/

/-- A mode's XLEN is never wider than the registers (R4). -/
theorem xlen_le_wlen {s : State} (h : s.wlen = .x32) : s.xlen = .x32 := by
  unfold State.wlen at h
  unfold State.xlen State.xlenOf State.uxlen State.sxlen State.wlen
  cases hw : s.cfg.widths <;> simp_all [wlenOf, sxlenOf]
  cases s.priv <;> rfl

/-- SXLEN is never wider than the registers (R4). -/
theorem sxlen_le_wlen {s : State} (h : s.wlen = .x32) : s.sxlen = .x32 := by
  unfold State.wlen at h
  unfold State.sxlen
  cases hw : s.cfg.widths <;> simp_all [wlenOf, sxlenOf]

/-- Outside M-mode a mode's XLEN is never wider than SXLEN (R4). -/
theorem xlen_le_sxlen {s : State} (hp : s.priv ≠ .m) (h : s.sxlen = .x32) : s.xlen = .x32 := by
  unfold State.xlen State.xlenOf State.uxlen
  cases hq : s.priv <;> simp_all

@[simp] theorem xlen_of_s {s : State} (h : s.priv = .s) : s.xlen = s.sxlen := by simp [State.xlen, State.xlenOf, h]

/-! ## low and fill -/

/-- `low` keeps the number's low bits. -/
theorem low_toNat (x : Xlen) (v : Word) : (low x v).toNat = seen x v := by
  cases x
  · simp [low, seen, Xlen.bits]
    omega
  · exact (Nat.mod_eq_of_lt v.isLt).symm

theorem seen_lt (x : Xlen) (v : Word) : seen x v < 2 ^ x.bits := Nat.mod_lt _ (by cases x <;> simp [Xlen.bits])

theorem seen_of_lt {x : Xlen} {v : Word} (h : v.toNat < 2 ^ x.bits) : seen x v = v.toNat := Nat.mod_eq_of_lt h

@[simp] theorem seen_low (x : Xlen) (v : Word) : seen x (low x v) = seen x v := by
  rw [seen, low_toNat, Nat.mod_eq_of_lt (seen_lt x v)]

@[simp] theorem low_low (x : Xlen) (v : Word) : low x (low x v) = low x v := by
  apply BitVec.eq_of_toNat_eq
  rw [low_toNat, low_toNat, seen_low]

/-- Two words with the same low bits are the same to `low`. -/
theorem low_congr {x : Xlen} {v w : Word} (h : seen x v = seen x w) : low x v = low x w :=
  BitVec.eq_of_toNat_eq (by rw [low_toNat, low_toNat, h])

theorem low_lt (x : Xlen) (v : Word) : (low x v).toNat < 2 ^ x.bits := by rw [low_toNat]; exact seen_lt x v

/-- A sum seen at a width depends on what is seen of its parts. -/
theorem seen_add (x : Xlen) (v w : Word) : seen x (v + w) = (seen x v + seen x w) % 2 ^ x.bits := by
  cases x <;> simp [seen, Xlen.bits, BitVec.toNat_add]

/-- `low` after `fill` is the sign-filled number, for the admitted pairs of widths. -/
theorem low_fill_toNat {w x : Xlen} (h : w = .x32 → x = .x32) (v : Word) : (low w (fill x v)).toNat = filled w x v.toNat := by
  have hv := v.isLt
  rw [low_toNat, seen, filled]
  cases x
  · have hf : (fill .x32 v).toNat =
        v.toNat % 4294967296 + if 2147483648 ≤ v.toNat % 4294967296 then 18446744069414584320 else 0 := by
      simp [fill, BitVec.toNat_signExtend, BitVec.msb_eq_decide]
      omega
    rw [hf]
    by_cases hm : 2147483648 ≤ v.toNat % 4294967296
    · rw [if_pos hm, if_neg (by simpa [Xlen.bits] using hm)]
      cases w <;> simp [Xlen.bits] <;> omega
    · rw [if_neg hm, if_pos (by simpa [Xlen.bits] using hm)]
      cases w <;> simp [Xlen.bits]
      omega
  · cases w
    · exact absurd (h rfl) (by decide)
    · simp [fill, Xlen.bits]

/-- `widen` as a number. -/
theorem widen_toNat (s : State) (v : Word) : (s.widen v).toNat = filled s.wlen s.xlen v.toNat :=
  low_fill_toNat xlen_le_wlen v

/-- `filled` depends on the low bits only. -/
@[simp] theorem filled_mod (w x : Xlen) (n : Nat) : filled w x (n % 2 ^ x.bits) = filled w x n := by
  simp [filled]

/-- What is seen of a filled number at its own width is the number. -/
theorem filled_mod_self {w x : Xlen} (h : w = .x32 → x = .x32) (n : Nat) : filled w x n % 2 ^ x.bits = n % 2 ^ x.bits := by
  unfold filled
  split
  · exact Nat.mod_mod _ _
  · cases x <;> cases w <;> simp_all [Xlen.bits]
    omega

/-! ## Registers -/

@[simp] theorem readReg_zero (s : State) : s.readReg 0#5 = 0#64 := by simp [State.readReg]

theorem rdx_toNat (s : State) (i : RegIdx) : (s.rdx i).toNat = seen s.xlen (s.readReg i) := low_toNat _ _

/-- Reading the register that was written. -/
theorem readReg_writeReg_same (s : State) {i : RegIdx} (v : Word) (h : i ≠ 0#5) : (s.writeReg i v).readReg i = v := by
  simp [State.readReg, State.writeReg, h]

/-- Reading another register than the one written. -/
theorem readReg_writeReg_other (s : State) {i j : RegIdx} (v : Word) (h : j ≠ i) : (s.writeReg i v).readReg j = s.readReg j := by
  unfold State.readReg State.writeReg
  by_cases hi : i = 0#5
  · simp [hi]
  · by_cases hj : j = 0#5
    · simp [hj]
    · have hi' : i.toNat ≠ 0 := fun e => hi (BitVec.eq_of_toNat_eq (by simpa using e))
      have hj' : j.toNat ≠ 0 := fun e => hj (BitVec.eq_of_toNat_eq (by simpa using e))
      have hne : j.toNat ≠ i.toNat := fun e => h (BitVec.eq_of_toNat_eq e)
      simp only [hi, hj, if_false]
      rw [Vector.getElem_set_ne]
      omega

/-- A write of an instruction's result, in the spec's words. -/
theorem wrx_regTakes (s : State) (rd : RegIdx) (v : Word) : RegTakes s (s.wrx rd v) rd v.toNat := by
  refine ⟨fun h => ?_, readReg_zero _, fun j hj => readReg_writeReg_other s _ hj⟩
  rw [State.wrx, readReg_writeReg_same _ _ h, widen_toNat]

/-- `filled` of a sum depends on what is seen of its first part. -/
theorem filled_add (w x : Xlen) (m n : Nat) : filled w x (m % 2 ^ x.bits + n) = filled w x (m + n) := by
  rw [← filled_mod w x (m % 2 ^ x.bits + n), ← filled_mod w x (m + n), Nat.mod_add_mod]

/-- `advance` moves to the next word. -/
theorem advance_pcNext (s : State) : PcNext s s.advance := by
  have h4 : (s.pcLow + 4#64).toNat = (s.pcLow.toNat + 4) % 2 ^ 64 := by simp [BitVec.toNat_add]
  unfold PcNext PcTakes
  rw [Fields.advance_pc, widen_toNat, h4, State.pcLow, low_toNat, ← filled_mod, ← filled_mod (n := seen _ _ + 4)]
  congr 1
  cases s.xlen <;> simp [Xlen.bits]

end Sys2Proof.Laws
end

