-- ==== Sys2Proof/Laws/Memory.lean ====
section
/-! SUPPORT. The laws of physical memory: a read after a write, the canonical form kept, and the same for words. -/

namespace Sys2Proof.Laws

open Sys2Proof.Machine

/-- Reading the byte that was written. -/
theorem read_write_same (m : List Host.Cell) (a : Nat) (v : Byte) : Memory.read? (Memory.write m a v) a = some v := by
  induction m with
  | nil => simp [Memory.write, Memory.read?]
  | cons c m ih =>
    obtain ⟨b, w⟩ := c
    simp only [Memory.write]
    split
    · simp [Memory.read?]
    · split
      · simp [Memory.read?]
      · rename_i h; simp [Memory.read?, h, ih]

/-- Reading another byte than the one written. -/
theorem read_write_other (m : List Host.Cell) {a b : Nat} (v : Byte) (h : b ≠ a) :
    Memory.read? (Memory.write m a v) b = Memory.read? m b := by
  induction m with
  | nil => simp [Memory.write, Memory.read?, h]
  | cons c m ih =>
    obtain ⟨k, w⟩ := c
    simp only [Memory.write]
    split
    · simp [Memory.read?, h]
    · split
      · rename_i hk; subst hk; simp [Memory.read?, h]
      · simp [Memory.read?, ih]

/-- A written memory lists the written address and what was listed. -/
theorem mem_write {m : List Host.Cell} {a : Nat} {v : Byte} {c : Host.Cell} (h : c ∈ Memory.write m a v) : c = (a, v) ∨ c ∈ m := by
  induction m with
  | nil => simpa [Memory.write] using h
  | cons d m ih =>
    obtain ⟨k, w⟩ := d
    simp only [Memory.write] at h
    split at h
    · simpa using h
    · split at h
      · rcases List.mem_cons.1 h with h | h
        · exact .inl h
        · exact .inr (List.mem_cons_of_mem _ h)
      · rcases List.mem_cons.1 h with h | h
        · exact .inr (by simp [h])
        · exact (ih h).imp_right (List.mem_cons_of_mem _)

/-- A write keeps the canonical form. -/
theorem write_wf {m : List Host.Cell} (a : Nat) (v : Byte) (h : Memory.wf m) : Memory.wf (Memory.write m a v) := by
  induction m with
  | nil => simp [Memory.wf, Memory.write]
  | cons c m ih =>
    obtain ⟨k, w⟩ := c
    obtain ⟨hk, hm⟩ := List.pairwise_cons.1 h
    simp only [Memory.write]
    split
    · rename_i hlt
      refine List.pairwise_cons.2 ⟨fun d hd => ?_, h⟩
      rcases List.mem_cons.1 hd with rfl | hd
      · exact hlt
      · exact lt_trans hlt (hk d hd)
    · split
      · rename_i heq; subst heq; exact List.pairwise_cons.2 ⟨hk, hm⟩
      · refine List.pairwise_cons.2 ⟨fun d hd => ?_, ih hm⟩
        rcases mem_write hd with rfl | hd
        · show k < a; omega
        · exact hk d hd

/-- The memory at reset is canonical. -/
theorem reset_mem_wf : Memory.wf State.reset.mem := List.Pairwise.nil

/-! ## Bytes of the state -/

theorem byteAt_writeByte_same (s : State) (a : Nat) (v : Byte) : (s.writeByte a v).byteAt a = v := by
  simp [State.byteAt, read_write_same]

theorem byteAt_writeByte_other (s : State) {a b : Nat} (v : Byte) (h : b ≠ a) : (s.writeByte a v).byteAt b = s.byteAt b := by
  simp [State.byteAt, read_write_other _ _ h]

/-- A byte outside a written word reads as before. -/
theorem byteAt_writeWord_other (s : State) (pa : Nat) (v : BitVec 32) (a : Nat) (h : ∀ k, k < 4 → a ≠ s.phys pa k) :
    (s.writeWord pa v).byteAt a = s.byteAt a := by
  unfold State.writeWord
  rw [byteAt_writeByte_other _ _ (h 3 (by decide)), byteAt_writeByte_other _ _ (h 2 (by decide)),
    byteAt_writeByte_other _ _ (h 1 (by decide)), byteAt_writeByte_other _ _ (h 0 (by decide))]

/-- The four addresses of a word differ when physical addresses have at least two bits. -/
theorem phys_inj {s : State} (hp : 2 ≤ s.cfg.palen) (pa : Nat) {j k : Nat} (hj : j < 4) (hk : k < 4) (h : j ≠ k) :
    s.phys pa j ≠ s.phys pa k := by
  obtain ⟨n, hn⟩ : ∃ n, 2 ^ s.cfg.palen = 4 * n := ⟨2 ^ (s.cfg.palen - 2), by rw [← pow_mul_pow_sub 2 hp]; norm_num⟩
  unfold State.phys
  intro e
  have e4 := congrArg (· % 4) e
  simp only [hn, Nat.mod_mul_right_mod] at e4
  omega

/-- A byte of a written word. -/
theorem byteAt_writeWord_same (s : State) (hp : 2 ≤ s.cfg.palen) (pa : Nat) (v : BitVec 32) {k : Nat} (hk : k < 4) :
    (s.writeWord pa v).byteAt (s.phys pa k) = v.extractLsb' (8 * k) 8 := by
  unfold State.writeWord
  have ne : ∀ {j}, j < 4 → k ≠ j → s.phys pa k ≠ s.phys pa j := fun hj h => phys_inj hp pa hk hj h
  interval_cases k
  · rw [byteAt_writeByte_other _ _ (ne (by decide) (by decide)), byteAt_writeByte_other _ _ (ne (by decide) (by decide)),
      byteAt_writeByte_other _ _ (ne (by decide) (by decide)), byteAt_writeByte_same]
  · rw [byteAt_writeByte_other _ _ (ne (by decide) (by decide)), byteAt_writeByte_other _ _ (ne (by decide) (by decide)),
      byteAt_writeByte_same]
  · rw [byteAt_writeByte_other _ _ (ne (by decide) (by decide)), byteAt_writeByte_same]
  · rw [byteAt_writeByte_same]

/-- The bytes of a word put together again. -/
theorem wordOfBytes_extract (v : BitVec 32) :
    wordOfBytes (v.extractLsb' 0 8) (v.extractLsb' 8 8) (v.extractLsb' 16 8) (v.extractLsb' 24 8) = v := by
  unfold wordOfBytes
  ext j hj
  simp only [BitVec.getElem_append, BitVec.getElem_extractLsb']
  interval_cases j <;> simp

/-- Reading the word that was written (R44, R60). -/
theorem readWord_writeWord (s : State) (hp : 2 ≤ s.cfg.palen) (pa : Nat) (v : BitVec 32) : (s.writeWord pa v).readWord pa = v := by
  have hphys : ∀ k, (s.writeWord pa v).phys pa k = s.phys pa k := fun k => by simp [State.phys]
  unfold State.readWord
  rw [hphys, hphys, hphys, hphys, byteAt_writeWord_same s hp pa v (by decide), byteAt_writeWord_same s hp pa v (by decide),
    byteAt_writeWord_same s hp pa v (by decide), byteAt_writeWord_same s hp pa v (by decide)]
  exact wordOfBytes_extract v

/-- A written word keeps memory canonical and within the physical address space. -/
theorem writeWord_wf {s : State} (pa : Nat) (v : BitVec 32) (h : Memory.wf s.mem) : Memory.wf (s.writeWord pa v).mem := by
  unfold State.writeWord
  exact write_wf _ _ (write_wf _ _ (write_wf _ _ (write_wf _ _ h)))

theorem writeWord_phys {s : State} (pa : Nat) (v : BitVec 32) (h : ∀ c ∈ s.mem, c.1 < 2 ^ s.cfg.palen) :
    ∀ c ∈ (s.writeWord pa v).mem, c.1 < 2 ^ s.cfg.palen := by
  have hlt : ∀ k, s.phys pa k < 2 ^ s.cfg.palen := fun k => Nat.mod_lt _ (Nat.two_pow_pos _)
  intro c hc
  unfold State.writeWord at hc
  rcases mem_write hc with rfl | hc
  · exact hlt 3
  rcases mem_write hc with rfl | hc
  · exact hlt 2
  rcases mem_write hc with rfl | hc
  · exact hlt 1
  rcases mem_write hc with rfl | hc
  · exact hlt 0
  exact h c hc

/-- The number of a word of bytes. -/
theorem wordOfBytes_toNat (b0 b1 b2 b3 : Byte) : (wordOfBytes b0 b1 b2 b3).toNat = wordNat b0 b1 b2 b3 := by
  have h0 := b0.isLt; have h1 := b1.isLt; have h2 := b2.isLt; have h3 := b3.isLt
  unfold wordOfBytes wordNat
  simp only [BitVec.toNat_append]
  rw [← Nat.shiftLeft_add_eq_or_of_lt (by omega), ← Nat.shiftLeft_add_eq_or_of_lt (by omega),
    ← Nat.shiftLeft_add_eq_or_of_lt (by omega)]
  simp only [Nat.shiftLeft_eq]
  omega

end Sys2Proof.Laws
end

