-- ==== Sys2Proof/Laws/Traps.lean ====
section
/-! SUPPORT. What taking a trap, raising an exception and an access can do, each said once. -/

namespace Sys2Proof.Laws

open Sys2Proof.Machine

/-! ## stvec -/

theorem stvecMode_toNat (v : Word) : (stvecMode v).toNat = v.toNat % 4 := by simp [stvecMode]

theorem stvecBase_toNat (v : Word) : (stvecBase v).toNat = v.toNat / 4 * 4 := by
  have h : stvecBase v = (v >>> 2) <<< 2 := by
    ext j hj
    simp only [stvecBase, BitVec.getElem_and, BitVec.getElem_not, BitVec.getElem_shiftLeft]
    by_cases h2 : j < 2
    · interval_cases j <;> simp
    · have : (3#64)[j] = false := by
        rw [BitVec.getElem_eq_testBit_toNat]
        exact Nat.testBit_lt_two_pow (lt_of_lt_of_le (by decide : (3#64).toNat < 2 ^ 2) (Nat.pow_le_pow_right (by decide) (by omega)))
      simp [this, h2, show 2 + (j - 2) = j by omega, BitVec.getLsbD_eq_getElem hj]
  have := v.isLt
  rw [h, BitVec.toNat_shiftLeft, BitVec.toNat_ushiftRight, Nat.shiftLeft_eq, Nat.shiftRight_eq_div_pow]
  omega

theorem sepcLegal_toNat (v : Word) : (sepcLegal v).toNat = v.toNat / 4 * 4 := stvecBase_toNat v

/-- BASE, seen at a width. -/
theorem seen_stvecBase (x : Xlen) (v : Word) : seen x (stvecBase v) = seen x v / 4 * 4 := by
  rw [seen, seen, stvecBase_toNat]
  cases x <;> simp only [Xlen.bits] <;> omega

/-- For a legal MODE there is a handler address, and it is the spec's (R172). -/
theorem trapVector_some {s : State} (c : Cause) (h : s.stvec.toNat % 4 < 2) :
    ∃ v, trapVector s.sxlen s.stvec c = some v ∧ seen s.sxlen v = handlerNat s (causeCode c) (causeIsIrq c) := by
  have hm := stvecMode_toNat s.stvec
  unfold trapVector handlerNat
  by_cases h0 : s.stvec.toNat % 4 = 0
  · have e0 : stvecMode s.stvec = 0#2 := BitVec.eq_of_toNat_eq (by rw [hm, h0]; rfl)
    exact ⟨_, if_pos e0, by simp [h0, seen_stvecBase]⟩
  · have h1 : s.stvec.toNat % 4 = 1 := by omega
    have e1 : stvecMode s.stvec = 1#2 := BitVec.eq_of_toNat_eq (by rw [hm, h1]; rfl)
    rw [if_neg (by rw [e1]; decide), if_pos e1]
    refine ⟨_, rfl, ?_⟩
    cases hi : causeIsIrq c
    · simp [seen_stvecBase]
    · have hc : causeCode c < 16 := by cases c with | exc e => cases e <;> decide | irq k => cases k <;> decide
      simp only [if_true, h1, and_self]
      have hs : seen s.sxlen (BitVec.ofNat 64 (4 * causeCode c)) = 4 * causeCode c := by
        cases s.sxlen <;> simp [seen, Xlen.bits] <;> omega
      rw [seen_low, seen_add, seen_stvecBase, hs]

/-- Without a legal MODE there is none. -/
theorem trapVector_none {x : Xlen} {v : Word} (c : Cause) (h : 2 ≤ v.toNat % 4) : trapVector x v c = none := by
  have hm := stvecMode_toNat v
  have e0 : stvecMode v ≠ 0#2 := fun e => by rw [e] at hm; simp at hm; omega
  have e1 : stvecMode v ≠ 1#2 := fun e => by rw [e] at hm; simp at hm; omega
  simp [trapVector, e0, e1]

/-! ## Entering a trap -/

/-- The cause register as a number (R170). -/
theorem causeWord_toNat (x : Xlen) (c : Cause) :
    (causeWord x c).toNat = (if causeIsIrq c then 2 ^ (x.bits - 1) else 0) + causeCode c := by
  cases x <;> cases c with
  | exc e => cases e <;> rfl
  | irq k => cases k <;> rfl

theorem trapTarget_toS {s : State} {c : Cause} (h : s.trapTarget c = .toS) : s.priv ≠ .m := by
  intro hp; simp [State.trapTarget, hp] at h

/-- The state after a trap is the one R170 describes. -/
theorem enterTrap_trapped {s : State} {c : Cause} {tval v : Word} (hp : s.priv ≠ .m)
    (hv : seen s.sxlen v = handlerNat s (causeCode c) (causeIsIrq c)) :
    Trapped s (s.enterTrap c tval v) (causeCode c) (causeIsIrq c) tval.toNat where
  sepc := by
    rw [Fields.enterTrap_sepc, sepcLegal_toNat, low_fill_toNat (xlen_le_sxlen hp), ← filled_mod s.sxlen s.xlen s.pc.toNat]
    rfl
  scause := by rw [Fields.enterTrap_scause, causeWord_toNat]
  stval := by rw [Fields.enterTrap_stval, low_toNat]; rfl
  sstatus := by
    rw [Fields.enterTrap_sstatus]
    cases h : s.priv <;> simp [Sstatus.onTrap]
  priv := rfl
  pc := by rw [Fields.enterTrap_pc, seen, low_fill_toNat sxlen_le_wlen, filled_mod_self sxlen_le_wlen]; exact hv
  regs := fun j => by simp
  mem := fun a => by simp
  stvec := rfl
  sie := rfl
  sip := rfl
  sscratch := rfl
  satp := rfl
  setup := ⟨rfl, rfl⟩

/-- A trap that can be taken is taken (R170). -/
theorem takeTrap_of_can {s : State} {c : Cause} (tval : Word) (h : s.CanTrap c) :
    ∃ v, takeTrap c tval s = .next (s.enterTrap c tval v) ∧
      Trapped s (s.enterTrap c tval v) (causeCode c) (causeIsIrq c) tval.toNat := by
  obtain ⟨v, hv, hn⟩ := trapVector_some c h.1
  exact ⟨v, by simp [takeTrap, h.2, hv], enterTrap_trapped (trapTarget_toS h.2) hn⟩

/-- What taking a trap can answer: a next state only where the trap can be taken, and then the one of R170. -/
theorem takeTrap_next {s t : State} {c : Cause} {tval : Word} (h : takeTrap c tval s = .next t) :
    s.CanTrap c ∧ ∃ v, t = s.enterTrap c tval v ∧ seen s.sxlen v = handlerNat s (causeCode c) (causeIsIrq c) := by
  unfold takeTrap at h
  split at h
  · cases h
  · rename_i ht
    by_cases hm : s.stvec.toNat % 4 < 2
    · obtain ⟨v, hv, hn⟩ := trapVector_some c hm
      rw [hv] at h
      cases h
      exact ⟨⟨hm, ht⟩, v, rfl, hn⟩
    · rw [trapVector_none c (by omega)] at h
      cases h

/-- The state of R170, from a trap that was taken. -/
theorem takeTrap_trapped {s t : State} {c : Cause} {tval : Word} (h : takeTrap c tval s = .next t) :
    Trapped s t (causeCode c) (causeIsIrq c) tval.toNat ∧ t.draws = s.draws := by
  obtain ⟨hc, v, rfl, hv⟩ := takeTrap_next h
  exact ⟨enterTrap_trapped (trapTarget_toS hc.2) hv, rfl⟩

/-- A trap is refused where it goes to M-mode, and for no other reason (R175). -/
theorem takeTrap_refused {s : State} {c : Cause} {tval : Word} {r : Refusal} (h : takeTrap c tval s = .refused r) :
    r = .trapToMMode ∧ s.trapTarget c = .toM := by
  unfold takeTrap at h
  split at h
  · cases h; exact ⟨rfl, ‹_›⟩
  · split at h <;> cases h

/-- A trap faults only where the MODE of `stvec` is reserved (R172). -/
theorem takeTrap_fault {s : State} {c : Cause} {tval : Word} {f : Fault} (h : takeTrap c tval s = .fault f) :
    2 ≤ s.stvec.toNat % 4 := by
  by_contra hm
  obtain ⟨v, hv, -⟩ := trapVector_some c (by omega : s.stvec.toNat % 4 < 2)
  unfold takeTrap at h
  split at h
  · cases h
  · rw [hv] at h; cases h

/-- A draw changes nothing a trap's description speaks of. -/
theorem trapped_of_draw {s t : State} {code : Nat} {irq : Bool} {tval : Nat} (h : Trapped s.draw t code irq tval) :
    Trapped s t code irq tval :=
  ⟨h.sepc, h.scause, h.stval, h.sstatus, h.priv, h.pc, fun j => (h.regs j).trans (by simp), fun a => (h.mem a).trans (by simp),
    h.stvec, h.sie, h.sip, h.sscratch, h.satp, h.setup⟩

theorem canTrap_draw {s : State} {c : Cause} (h : s.CanTrap c) : s.draw.CanTrap c := h

/-- IllegalInstruction, taken: code 2, with the word or zero as trap value (R163). -/
theorem raiseIllegal_of_can {s : State} (w : InstrWord) (h : s.CanTrap (.exc .illegal)) :
    ∃ t tval, raiseIllegal w s = .next t ∧ Trapped s t 2 false tval ∧ (tval = w.toNat ∨ tval = 0) := by
  obtain ⟨v, hv, ht⟩ :=
    takeTrap_of_can (if Config.tvalIsWord s.draws then w.setWidth 64 else 0#64) (canTrap_draw h)
  refine ⟨_, _, hv, trapped_of_draw ht, ?_⟩
  split
  · left; have := w.isLt; simp; omega
  · right; rfl

/-- What IllegalInstruction can answer with a next state. -/
theorem raiseIllegal_next {s t : State} {w : InstrWord} (h : raiseIllegal w s = .next t) :
    s.CanTrap (.exc .illegal) ∧ ∃ tval, Trapped s t 2 false tval := by
  obtain ⟨ht, -⟩ := takeTrap_trapped h
  exact ⟨(takeTrap_next h).1, _, trapped_of_draw ht⟩

/-- What raising an exception can answer with a next state. -/
theorem raiseExc_next {s t : State} {e : Exc} {tval : Word} (h : raiseExc e tval s = .next t) :
    s.CanTrap (.exc e) ∧ Trapped s t (excCode e) false tval.toNat ∧ t.draws = s.draws :=
  ⟨(takeTrap_next h).1, takeTrap_trapped h⟩

/-- An instruction goes on from its access only where the access is granted; else it takes the access's exception. -/
theorem andThen_next {α : Type} {s t : State} {a : Access α} {k : α → Host.Outcome State Fault Refusal}
    (h : a.andThen s k = .next t) :
    (∃ v, a = .ok v ∧ k v = .next t) ∨ ∃ e tval, a = .raise e tval ∧ raiseExc e tval s = .next t := by
  cases a with
  | ok v => exact .inl ⟨v, rfl, h⟩
  | raise e tval => exact .inr ⟨e, tval, rfl, h⟩
  | refuse r => cases h

end Sys2Proof.Laws
end

