-- ==== Sys2Proof/Laws/Access.lean ====
section
/-! SUPPORT. The access pipeline of R40, said once: the address it reduces, the page's marks, and what an access can answer. -/

namespace Sys2Proof.Laws

open Sys2Proof.Machine

/-- The reduced address as the number the claims use. -/
theorem low_eq_ofNat (x : Xlen) (v : Word) : low x v = BitVec.ofNat 64 (seen x v) := by
  apply BitVec.eq_of_toNat_eq
  rw [low_toNat, BitVec.toNat_ofNat]
  exact (Nat.mod_eq_of_lt (lt_of_le_of_lt (Nat.mod_le _ _) v.isLt)).symm

/-- A signed immediate added to a word, seen at a width, is `plusImm`. -/
theorem seen_add_signExtend {n : Nat} (hn : n ≤ 32) (x : Xlen) (v : Word) (imm : BitVec n) :
    seen x (v + imm.signExtend 64) = plusImm x (seen x v) imm.toInt := by
  have hi : ((imm.signExtend 64).toNat : Int) % (2 ^ 64 : Int) = imm.toInt % 2 ^ 64 := by
    have := BitVec.toInt_signExtend_of_le (x := imm) (show n ≤ 64 by omega)
    rw [BitVec.toInt_eq_toNat_bmod] at this
    rw [← this]
    simp [Int.bmod_def]
    split <;> omega
  rw [seen_add, plusImm]
  have hd : ∀ a : Int, a % (2 ^ 64 : Int) % ((2 ^ x.bits : Nat) : Int) = a % ((2 ^ x.bits : Nat) : Int) := fun a => by
    cases x <;> simp [Xlen.bits]
  have hs : ((seen x (imm.signExtend 64) : Nat) : Int) % ((2 ^ x.bits : Nat) : Int) = imm.toInt % ((2 ^ x.bits : Nat) : Int) := by
    rw [← hd imm.toInt, ← hi, hd, seen]
    push_cast
    simp
  have : (((seen x v + seen x (imm.signExtend 64)) % 2 ^ x.bits : Nat) : Int) = (seen x v + imm.toInt) % ((2 ^ x.bits : Nat) : Int) := by
    push_cast
    rw [Int.add_emod, Int.add_emod (seen x v : Int) imm.toInt]
    push_cast at hs
    rw [hs]
  rw [← this, Int.toNat_natCast]

/-- The effective address is the one of the claims (R95). -/
theorem effAddr_eq (s : State) (rs1 : RegIdx) (imm : BitVec 12) : s.effAddr rs1 imm = BitVec.ofNat 64 (effAddrNat s rs1 imm) := by
  rw [State.effAddr, low_eq_ofNat, imm12, seen_add_signExtend (by decide), State.rdx, seen_low, effAddrNat]

theorem plusImm_lt (x : Xlen) (n : Nat) (imm : Int) : plusImm x n imm < 2 ^ x.bits := by
  unfold plusImm
  have h2 : (0 : Int) < ((2 ^ x.bits : Nat) : Int) := by exact_mod_cast Nat.two_pow_pos _
  have := Int.emod_lt_of_pos (n + imm : Int) h2
  have := Int.emod_nonneg (n + imm : Int) (ne_of_gt h2)
  omega

theorem seen_ofNat {x : Xlen} {n : Nat} (h : n < 2 ^ x.bits) : seen x (BitVec.ofNat 64 n) = n := by
  cases x <;> simp [seen, Xlen.bits] at * <;> omega

theorem seen_effAddrNat (s : State) (rs1 : RegIdx) (imm : BitVec 12) :
    seen s.xlen (BitVec.ofNat 64 (effAddrNat s rs1 imm)) = effAddrNat s rs1 imm :=
  seen_ofNat (plusImm_lt _ _ _)

/-! ## Permissions -/

/-- In U-mode and S-mode the machine's `permOK` decides the spec's `PagePermits` (R54). -/
theorem permOK_eq {priv : Priv} (hp : priv ≠ .m) (kind : AccessKind) (sum mxr : Bool) (l : Leaf) :
    ∃ b, permOK kind priv sum mxr l = some b ∧ (b = true ↔ PagePermits kind priv sum mxr l) := by
  cases priv with
  | m => exact absurd rfl hp
  | u => cases kind <;> simp [permOK, userPageOK, typeOK, readOK, PagePermits]
  | s => cases kind <;> simp [permOK, userPageOK, typeOK, readOK, PagePermits]

theorem permOK_true {priv : Priv} (hp : priv ≠ .m) {kind : AccessKind} {sum mxr : Bool} {l : Leaf}
    (h : PagePermits kind priv sum mxr l) : permOK kind priv sum mxr l = some true := by
  obtain ⟨b, hb, hi⟩ := permOK_eq hp kind sum mxr l
  rw [hb, hi.2 h]

theorem permOK_false {priv : Priv} (hp : priv ≠ .m) {kind : AccessKind} {sum mxr : Bool} {l : Leaf}
    (h : ¬ PagePermits kind priv sum mxr l) : permOK kind priv sum mxr l = some false := by
  obtain ⟨b, hb, hi⟩ := permOK_eq hp kind sum mxr l
  cases b
  · exact hb
  · exact absurd (hi.1 rfl) h

/-- Translation is never in effect in M-mode (R55). -/
theorem vmActive_not_m {s : State} (h : s.vmActive = true) : s.priv ≠ .m := by
  intro hp; simp [State.vmActive, hp] at h

/-! ## The pipeline -/

variable {s : State} {kind : AccessKind} {ea : Word} {n : Nat}

theorem access_misaligned (h : seen s.xlen ea % n ≠ 0) : s.access kind ea n = s.misaligned kind (low s.xlen ea) := by
  simp [State.access, low_toNat, h]

/-- An aligned access is what its translation comes to, checked against the physical map. -/
theorem access_aligned (h : seen s.xlen ea % n = 0) : s.access kind ea n =
    match s.translate kind (low s.xlen ea) with
    | .ok pa => if s.physAccessOK kind pa n then .ok pa else .raise (accessFaultExc kind) (low s.xlen ea)
    | .raise e tval => .raise e tval
    | .refuse r => .refuse r := by
  simp only [State.access, low_toNat, h, ne_eq, not_true_eq_false, if_false] <;> (cases s.translate kind (low s.xlen ea) <;> rfl)

/-- Without translation an aligned access is at its own address. -/
theorem access_bare (h : seen s.xlen ea % n = 0) (hv : s.vmActive = false) : s.access kind ea n =
    if s.physAccessOK kind (seen s.xlen ea % 2 ^ s.cfg.palen) n then .ok (seen s.xlen ea % 2 ^ s.cfg.palen)
    else .raise (accessFaultExc kind) (low s.xlen ea) := by
  rw [access_aligned h]
  simp [State.translate, hv, State.phys, low_toNat]

/-- An aligned access to an address with no mapping faults. -/
theorem access_unmapped (h : seen s.xlen ea % n = 0) (hv : s.vmActive = true) (hl : s.pageLookup (seen s.xlen ea) = none) :
    s.access kind ea n = .raise (pageFaultExc kind) (low s.xlen ea) := by
  rw [access_aligned h]
  simp [State.translate, hv, low_toNat, hl]

/-- An aligned access to a page whose marks forbid it faults. -/
theorem access_forbidden {l : Leaf} (h : seen s.xlen ea % n = 0) (hv : s.vmActive = true)
    (hl : s.pageLookup (seen s.xlen ea) = some l) (hp : ¬ PagePermits kind s.priv s.sstatus.sum s.sstatus.mxr l) :
    s.access kind ea n = .raise (pageFaultExc kind) (low s.xlen ea) := by
  rw [access_aligned h]
  simp [State.translate, hv, low_toNat, hl, permOK_false (vmActive_not_m hv) hp]

/-- An aligned access to a page whose marks permit it is at the page's physical address. -/
theorem access_permitted {l : Leaf} (h : seen s.xlen ea % n = 0) (hv : s.vmActive = true)
    (hl : s.pageLookup (seen s.xlen ea) = some l) (hp : PagePermits kind s.priv s.sstatus.sum s.sstatus.mxr l) :
    s.access kind ea n = if s.physAccessOK kind (l.pa % 2 ^ s.cfg.palen) n then .ok (l.pa % 2 ^ s.cfg.palen)
      else .raise (accessFaultExc kind) (low s.xlen ea) := by
  rw [access_aligned h]
  simp [State.translate, hv, low_toNat, hl, permOK_true (vmActive_not_m hv) hp, State.phys]

/-- A refused access: the misaligned one under `MisalignedPolicy = split`, and no other (the refusal of R54 is not reached). -/
theorem access_refuse {r : Refusal} (h : s.access kind ea n = .refuse r) :
    r = .misalignedSplit ∧ s.cfg.misaligned = .split ∧ kind ≠ .fetch ∧ seen s.xlen ea % n ≠ 0 := by
  by_cases ha : seen s.xlen ea % n = 0
  · rw [access_aligned ha] at h
    unfold State.translate at h
    by_cases hv : s.vmActive = true
    · rw [if_pos hv] at h
      cases hl : s.pageLookup (low s.xlen ea).toNat with
      | none => simp [hl] at h
      | some l =>
        obtain ⟨b, hb, -⟩ := permOK_eq (vmActive_not_m hv) kind s.sstatus.sum s.sstatus.mxr l
        cases b <;> simp [hl, hb] at h
        split at h <;> cases h
    · simp only [if_neg hv] at h
      split at h <;> cases h
  · rw [access_misaligned ha] at h
    unfold State.misaligned at h
    split at h <;> simp_all

/-- A fetch is never refused. -/
theorem fetchWord_not_refused {r : Refusal} : s.fetchWord ≠ .refuse r := by
  intro h
  unfold State.fetchWord at h
  split at h <;> cases h
  exact (access_refuse ‹_›).2.2.1 rfl

/-- An access depends on the state's registers, pc, trap registers and draws not at all. -/
theorem access_congr {s t : State} (hc : t.cfg = s.cfg) (hp : t.priv = s.priv) (hs : t.sstatus = s.sstatus)
    (ha : t.satp = s.satp) (hm : t.mem = s.mem) (kind : AccessKind) (ea : Word) (n : Nat) :
    t.access kind ea n = s.access kind ea n := by
  have hx : t.xlen = s.xlen := by
    simp [State.xlen, State.xlenOf, State.uxlen, State.sxlen, State.wlen, hc, hp, hs]
  have hv : t.vmActive = s.vmActive := by simp [State.vmActive, State.sxlen, hc, hp, ha]
  have hl : ∀ va, t.pageLookup va = s.pageLookup va := fun va => by simp [State.pageLookup, hc, ha, hm]
  have hk : ∀ pa, t.physAccessOK kind pa n = s.physAccessOK kind pa n := fun pa => by simp [State.physAccessOK, hc]
  have hy : ∀ pa k, t.phys pa k = s.phys pa k := fun pa k => by simp [State.phys, hc]
  simp [State.access, State.translate, State.misaligned, hx, hv, hl, hk, hy, hc, hp, hs]

end Sys2Proof.Laws
end

