-- ==== Sys2Proof/Laws/Frames.lean ====
section
/-! SUPPORT. What the common ends of an instruction take and keep, in the words of the claims. -/

namespace Sys2Proof.Laws

open Sys2Proof.Machine

/-- A result that is the same modulo `2^X` is the same result. -/
theorem regTakes_congr {s t : State} {rd : RegIdx} {m n : Nat} (h : RegTakes s t rd m)
    (e : m % 2 ^ s.xlen.bits = n % 2 ^ s.xlen.bits) : RegTakes s t rd n :=
  ⟨fun hr => by rw [h.1 hr, ← filled_mod, e, filled_mod], h.2⟩

/-- `finish` writes its result. -/
theorem finish_regTakes (s : State) (rd : RegIdx) (v : Word) : RegTakes s (s.finish rd v) rd v.toNat := by
  obtain ⟨h1, -, h3⟩ := wrx_regTakes s rd v
  have e : ∀ j, (s.finish rd v).readReg j = (s.wrx rd v).readReg j := fun j => by simp [State.finish]
  exact ⟨fun h => by rw [e, h1 h], readReg_zero _, fun j hj => by rw [e, h3 j hj]⟩

/-- `finish` goes to the next word. -/
theorem finish_pcNext (s : State) (rd : RegIdx) (v : Word) : PcNext s (s.finish rd v) := by
  have h := advance_pcNext (s.wrx rd v)
  unfold PcNext PcTakes at *
  simpa [State.finish] using h

/-- `finish` changes nothing but registers and the pc. -/
theorem finish_only (s : State) (rd : RegIdx) (v : Word) : OnlyRegsAndPc s (s.finish rd v) := by
  refine ⟨⟨?_, ?_, ?_, ?_, ?_, ?_, ?_, ?_, ?_⟩, fun a => ?_, ⟨?_, ?_⟩, ?_, ?_⟩ <;> simp

/-- `jump` changes nothing but the pc. -/
theorem jump_only (s : State) (v : Word) : OnlyPc s (s.jump v) :=
  ⟨fun j => by simp, ⟨rfl, rfl, rfl, rfl, rfl, rfl, rfl, rfl, rfl⟩, fun a => by simp, ⟨rfl, rfl⟩, rfl, rfl⟩

/-- `advance` changes nothing but the pc. -/
theorem advance_only (s : State) : OnlyPc s s.advance := jump_only s _

/-- U-imm as a number (R73). -/
theorem immUpper_toNat (imm : BitVec 20) : (immUpper imm).toNat = filled .x64 .x32 (imm.toNat * 4096) := by
  have hi := imm.isLt
  have e : (imm ++ 0#12 : BitVec 32).toNat = imm.toNat * 4096 := by
    refine (BitVec.toNat_append imm 0#12).trans ?_
    simp [Nat.shiftLeft_eq]
  have h := low_fill_toNat (w := .x64) (x := .x32) (by simp) ((imm ++ 0#12 : BitVec 32).setWidth 64)
  rw [BitVec.toNat_setWidth, e, Nat.mod_eq_of_lt (by omega)] at h
  rw [← h]
  simp [immUpper, low, fill]

/-- A loaded word as a number, sign-extended (R143). -/
theorem signExtend_toNat (v : BitVec 32) : (v.signExtend 64).toNat = filled .x64 .x32 v.toNat := by
  have h := low_fill_toNat (w := .x64) (x := .x32) (by simp) (v.setWidth 64)
  rw [BitVec.toNat_setWidth, Nat.mod_eq_of_lt (lt_trans v.isLt (by decide))] at h
  rw [← h]
  simp [low, fill]

end Sys2Proof.Laws
end

