-- ==== Sys2Proof/Laws/Csrs.lean ====
section
/-! SUPPORT. What the operations on the control registers can do, each said once: single bits, the legal values of `stvec`, what a
write of a register keeps, the checks of R100, the oracle's move. -/

namespace Sys2Proof.Laws

open Sys2Proof.Machine

/-! ## Bits -/

theorem setBit_getLsbD (w : Word) (b : Bool) (n : Nat) {k : Nat} (hk : k < 64) :
    (setBit w k b).getLsbD n = if n = k then b else w.getLsbD n := by
  unfold setBit
  by_cases hn : n < 64
  · by_cases h : n = k
    · subst h; cases b <;> simp [hn]
    · cases b <;> simp [hn, h] <;> omega
  · have hw : w.getLsbD n = false := BitVec.getLsbD_of_ge _ _ (by omega)
    have h : n ≠ k := by omega
    cases b <;> simp [h, hw, hn]

theorem bitAt_getLsbD (b : Bool) (n : Nat) {k : Nat} (hk : k < 64) : (bitAt b k).getLsbD n = (decide (n = k) && b) := by
  unfold bitAt
  cases b
  · simp
  · by_cases h : n = k
    · subst h; simp [hk]
    · by_cases hn : n < 64
      · simp [hn, h]; omega
      · simp [hn, h]

theorem low_getLsbD (x : Xlen) (v : Word) (k : Nat) : (low x v).getLsbD k = (decide (k < x.bits) && v.getLsbD k) := by
  cases x
  · by_cases hk : k < 32
    · simp [low, Xlen.bits, hk]; omega
    · simp [low, Xlen.bits, hk]
  · by_cases hk : k < 64
    · simp [low, Xlen.bits, hk]
    · simp [low, Xlen.bits, hk, BitVec.getLsbD_of_ge v k (by omega)]

/-- A bit of what an instruction sees of a register. -/
theorem rdx_getLsbD (s : State) (r : RegIdx) (k : Nat) : (s.rdx r).getLsbD k = (seen s.xlen (s.readReg r)).testBit k := by
  rw [BitVec.getLsbD, rdx_toNat]

/-! ## stvec -/

/-- What makes a value legal, as numbers (R33). -/
theorem stvecLegal_iff (cfg : Config) (r : Word) : stvecLegal cfg r = true ↔
    r.toNat < 2 ^ (sxlenOf cfg.widths).bits ∧ modeSupported cfg.stvecModes (stvecMode r) = true ∧
    (r.toNat / 4 * 4) % stvecAlign cfg (stvecMode r) = 0 := by
  have h : low (sxlenOf cfg.widths) r = r ↔ r.toNat < 2 ^ (sxlenOf cfg.widths).bits := by
    rw [← BitVec.toNat_inj, low_toNat]
    exact ⟨fun h => by rw [← h]; exact seen_lt _ _, seen_of_lt⟩
  simp [stvecLegal, h, stvecBase_toNat, and_assoc]

/-- A supported MODE is Direct or Vectored. -/
theorem modeSupported_cases {modes : StvecModes} {m : BitVec 2} (h : modeSupported modes m = true) : m = 0#2 ∨ m = 1#2 := by
  cases modes <;> simp_all [modeSupported]

theorem supportedMode_supported (modes : StvecModes) (m : BitVec 2) : modeSupported modes (supportedMode modes m) = true := by
  unfold supportedMode
  split
  · assumption
  · cases modes <;> rfl

/-- `stvecFix` makes a legal value of any value. -/
theorem stvecFix_legal (cfg : Config) (v : Word) : stvecLegal cfg (stvecFix cfg v) = true := by
  have hs := supportedMode_supported cfg.stvecModes (stvecMode (low (sxlenOf cfg.widths) v))
  have hx := low_lt (sxlenOf cfg.widths) v
  rw [stvecLegal_iff]
  simp only [stvecFix]
  generalize low (sxlenOf cfg.widths) v = x at *
  generalize supportedMode cfg.stvecModes (stvecMode x) = m at hs ⊢
  have hm : m.toNat ≤ 1 := by rcases modeSupported_cases hs with rfl | rfl <;> decide
  obtain ⟨c, hc⟩ : ∃ c, stvecAlign cfg m = 4 * c := by
    unfold stvecAlign
    split
    · exact ⟨_, rfl⟩
    · exact ⟨1, rfl⟩
  obtain ⟨q, hq⟩ : ∃ q, x.toNat / stvecAlign cfg m * stvecAlign cfg m = 4 * q := ⟨x.toNat / stvecAlign cfg m * c, by rw [hc]; ring⟩
  have hle : 4 * q ≤ x.toNat := by rw [← hq]; exact Nat.div_mul_le_self _ _
  obtain ⟨b, hb⟩ : ∃ b, 2 ^ (sxlenOf cfg.widths).bits = 4 * b := by
    cases sxlenOf cfg.widths
    · exact ⟨2 ^ 30, rfl⟩
    · exact ⟨2 ^ 62, rfl⟩
  have hlt := x.isLt
  have hn : (BitVec.ofNat 64 (x.toNat / stvecAlign cfg m * stvecAlign cfg m + m.toNat)).toNat = 4 * q + m.toNat := by
    rw [hq, BitVec.toNat_ofNat, Nat.mod_eq_of_lt (by omega)]
  have hmode : stvecMode (BitVec.ofNat 64 (x.toNat / stvecAlign cfg m * stvecAlign cfg m + m.toNat)) = m :=
    BitVec.eq_of_toNat_eq (by rw [stvecMode_toNat, hn]; omega)
  refine ⟨?_, ?_, ?_⟩
  · rw [hn, hb]; omega
  · rw [hmode]; exact hs
  · rw [hmode, hn, show (4 * q + m.toNat) / 4 * 4 = 4 * q by omega, ← hq]
    exact Nat.mul_mod_left _ _

/-- Every write leaves a legal value (R33). -/
theorem stvecLegalize_legal (cfg : Config) (old w : Word) : stvecLegal cfg (stvecLegalize cfg old w) = true := by
  unfold stvecLegalize
  split
  · rename_i h
    exact (Bool.and_eq_true _ _ ▸ h).1
  · exact stvecFix_legal _ _

/-! ## Writing a register -/

/-- A write of a control register changes no integer register, pc, mode, memory, parameter or count. -/
theorem writeCsr_kept (s : State) (c : Csr) (w : Word) :
    (s.writeCsr c w).cfg = s.cfg ∧ (s.writeCsr c w).regs = s.regs ∧ (s.writeCsr c w).pc = s.pc ∧
    (s.writeCsr c w).priv = s.priv ∧ (s.writeCsr c w).mem = s.mem ∧ (s.writeCsr c w).oracle = s.oracle ∧
    (s.writeCsr c w).draws = s.draws := by
  cases c <;> exact ⟨rfl, rfl, rfl, rfl, rfl, rfl, rfl⟩

/-! ## The checks of R100 -/

/-- A listed register's address is its own. -/
theorem csrHeld_eq {a : CsrAddr} {c : Csr} (h : csrHeld a = some c) : a = csrAddress c := by
  unfold csrHeld at h
  have e := List.find?_some h
  exact (beq_iff_eq.1 e).symm

/-- What the checks answer when an access goes on: the register is held and the mode is not U. -/
theorem csrCheck_ok {s : State} {a : CsrAddr} {writes : Bool} {c : Csr} (h : s.csrCheck a writes = .ok c) :
    a = csrAddress c ∧ s.priv ≠ .u := by
  unfold State.csrCheck at h
  cases hh : csrHeld a with
  | none => simp only [hh] at h; split at h <;> [split at h; skip] <;> cases h
  | some d =>
    simp only [hh] at h
    split at h
    · cases h
    · rename_i hf
      split at h
      · cases h
      · cases h
        refine ⟨csrHeld_eq hh, fun hu => hf ?_⟩
        rw [csrHeld_eq hh, hu]
        cases c <;> cases writes <;> decide

/-- The mode and read-only checks as numbers (R36, R100). -/
theorem csrForbidden_iff (a : CsrAddr) (priv : Priv) (writes : Bool) :
    csrForbidden a priv writes = true ↔ a.toNat / 256 % 4 > privCode priv ∨ (writes = true ∧ a.toNat / 1024 = 3) := by
  have h8 : (a.extractLsb' 8 2).toNat = a.toNat / 256 % 4 := by simp [Nat.shiftRight_eq_div_pow]
  have h10 : (a.extractLsb' 10 2 == 3#2) = decide (a.toNat / 1024 = 3) := by
    have := a.isLt
    rw [Bool.eq_iff_iff, beq_iff_eq, ← BitVec.toNat_inj, decide_eq_true_iff]
    simp [Nat.shiftRight_eq_div_pow]
    omega
  simp [csrForbidden, h8, h10]

/-- The checks turn away exactly the accesses of `CsrIllegal`. -/
theorem csrCheck_illegal {s : State} {a : CsrAddr} {writes : Bool} (h : s.csrCheck a writes = .illegal) : s.CsrIllegal a writes := by
  unfold State.csrCheck at h
  cases hh : csrHeld a with
  | none =>
    simp only [hh] at h
    split at h
    · split at h
      · exact .inr ((csrForbidden_iff _ _ _).1 ‹_›)
      · cases h
    · exact .inl ⟨hh, by simpa using ‹¬ csrListed a = true›⟩
  | some c =>
    simp only [hh] at h
    split at h
    · exact .inr ((csrForbidden_iff _ _ _).1 ‹_›)
    · split at h <;> cases h

/-- What the checks refuse, and why. -/
theorem csrCheck_refuse {s : State} {a : CsrAddr} {writes : Bool} {r : Refusal} (h : s.csrCheck a writes = .refuse r) :
    (r = .csrNotSpecified a ∧ csrHeld a = none ∧ csrListed a = true ∧ ¬ s.CsrIllegal a writes) ∨
    (r = .csrFromWiderMMode ∧ s.priv = .m ∧ s.wlen ≠ s.sxlen ∧ ∃ c, a = csrAddress c) := by
  unfold State.csrCheck at h
  cases hh : csrHeld a with
  | none =>
    simp only [hh] at h
    split at h
    · rename_i hl
      split at h
      · cases h
      · rename_i hf
        cases h
        refine .inl ⟨rfl, rfl, hl, ?_⟩
        rintro (⟨-, hn⟩ | hx)
        · simp [hl] at hn
        · exact hf ((csrForbidden_iff _ _ _).2 hx)
    · cases h
  | some c =>
    simp only [hh] at h
    split at h
    · cases h
    · split at h
      · rename_i hm
        cases h
        exact .inr ⟨rfl, hm.1, hm.2, c, csrHeld_eq hh⟩
      · cases h

/-! ## The oracle's move -/

/-- The oracle's move changes `sip` and the moves left, and nothing else. -/
theorem oracleMove_kept (s : State) : s.oracleMove = { s with sip := s.oracleMove.sip, oracle := s.oracleMove.oracle } := by
  unfold State.oracleMove
  split <;> rfl

/-- A move changes no bit of an interrupt that does not exist. -/
theorem setPending_foldl_other (cfg : Config) (m : OracleMove) {n : Nat} (hn : (irqMask cfg).getLsbD n = false) (w : Word) :
    (m.foldl (setPending cfg) w).getLsbD n = w.getLsbD n := by
  induction m generalizing w with
  | nil => rfl
  | cons c m ih =>
    rw [List.foldl_cons, ih]
    unfold setPending
    split
    · rename_i h
      rw [setBit_getLsbD _ _ _ (by cases c.1 <;> decide), if_neg]
      rintro rfl
      simp [hn] at h
    · rfl

/-- Interrupts with the same code are the same. -/
theorem irqCode_injective {a b : Irq} (h : irqCode a = irqCode b) : a = b := by
  cases a <;> cases b <;> first | rfl | cases h

/-- The order of R165 as bit numbers. -/
theorem irqOrder_codes : irqOrder.map irqCode = [9, 1, 5, 8, 0, 4] := rfl

/-- The bits of the interrupts that exist (R35, R180). -/
theorem irqMask_iff (cfg : Config) (n : Nat) : (irqMask cfg).getLsbD n = true ↔
    n = 1 ∨ n = 5 ∨ n = 9 ∨ (cfg.userInts = true ∧ (n = 0 ∨ n = 4 ∨ n = 8)) := by
  unfold irqMask
  by_cases hn : n < 64
  · cases cfg.userInts <;> interval_cases n <;> decide
  · rw [BitVec.getLsbD_of_ge _ _ (by omega)]
    cases cfg.userInts <;> simp <;> omega

/-- A move keeps the bit of an interrupt it does not name. -/
theorem setPending_foldl_unnamed (cfg : Config) (m : OracleMove) {k : Irq} (h : ∀ c ∈ m, c.1 ≠ k) (w : Word) :
    (m.foldl (setPending cfg) w).getLsbD (irqCode k) = w.getLsbD (irqCode k) := by
  induction m generalizing w with
  | nil => rfl
  | cons c m ih =>
    rw [List.foldl_cons, ih fun d hd => h d (List.mem_cons_of_mem _ hd)]
    unfold setPending
    split
    · rw [setBit_getLsbD _ _ _ (by cases c.1 <;> decide), if_neg]
      exact fun e => h c List.mem_cons_self (irqCode_injective e.symm)
    · rfl

end Sys2Proof.Laws
end

