-- ==== Sys2Proof/Laws/Encoding.lean ====
section
/-! SUPPORT. The fields of an encoded word (R71, R72, R73), and a word as the bits of its fields. -/

namespace Sys2Proof.Laws

@[simp] theorem opcodeOf_encR (f7 : BitVec 7) (rs2 rs1 : RegIdx) (f3 : BitVec 3) (rd : RegIdx) (op : BitVec 7) : opcodeOf (encR f7 rs2 rs1 f3 rd op) = op := by
  unfold opcodeOf encR
  ext j hj
  simp only [BitVec.getLsbD_append, BitVec.getElem_extractLsb']
  interval_cases j <;> simp [BitVec.getLsbD_eq_getElem]

@[simp] theorem rdOf_encR (f7 : BitVec 7) (rs2 rs1 : RegIdx) (f3 : BitVec 3) (rd : RegIdx) (op : BitVec 7) : rdOf (encR f7 rs2 rs1 f3 rd op) = rd := by
  unfold rdOf encR
  ext j hj
  simp only [BitVec.getLsbD_append, BitVec.getElem_extractLsb']
  interval_cases j <;> simp [BitVec.getLsbD_eq_getElem]

@[simp] theorem funct3Of_encR (f7 : BitVec 7) (rs2 rs1 : RegIdx) (f3 : BitVec 3) (rd : RegIdx) (op : BitVec 7) : funct3Of (encR f7 rs2 rs1 f3 rd op) = f3 := by
  unfold funct3Of encR
  ext j hj
  simp only [BitVec.getLsbD_append, BitVec.getElem_extractLsb']
  interval_cases j <;> simp [BitVec.getLsbD_eq_getElem]

@[simp] theorem rs1Of_encR (f7 : BitVec 7) (rs2 rs1 : RegIdx) (f3 : BitVec 3) (rd : RegIdx) (op : BitVec 7) : rs1Of (encR f7 rs2 rs1 f3 rd op) = rs1 := by
  unfold rs1Of encR
  ext j hj
  simp only [BitVec.getLsbD_append, BitVec.getElem_extractLsb']
  interval_cases j <;> simp [BitVec.getLsbD_eq_getElem]

@[simp] theorem rs2Of_encR (f7 : BitVec 7) (rs2 rs1 : RegIdx) (f3 : BitVec 3) (rd : RegIdx) (op : BitVec 7) : rs2Of (encR f7 rs2 rs1 f3 rd op) = rs2 := by
  unfold rs2Of encR
  ext j hj
  simp only [BitVec.getLsbD_append, BitVec.getElem_extractLsb']
  interval_cases j <;> simp [BitVec.getLsbD_eq_getElem]

@[simp] theorem funct7Of_encR (f7 : BitVec 7) (rs2 rs1 : RegIdx) (f3 : BitVec 3) (rd : RegIdx) (op : BitVec 7) : funct7Of (encR f7 rs2 rs1 f3 rd op) = f7 := by
  unfold funct7Of encR
  ext j hj
  simp only [BitVec.getLsbD_append, BitVec.getElem_extractLsb']
  interval_cases j <;> simp [BitVec.getLsbD_eq_getElem]

@[simp] theorem opcodeOf_encI (imm : BitVec 12) (rs1 : RegIdx) (f3 : BitVec 3) (rd : RegIdx) (op : BitVec 7) : opcodeOf (encI imm rs1 f3 rd op) = op := by
  unfold opcodeOf encI
  ext j hj
  simp only [BitVec.getLsbD_append, BitVec.getElem_extractLsb']
  interval_cases j <;> simp [BitVec.getLsbD_eq_getElem]

@[simp] theorem rdOf_encI (imm : BitVec 12) (rs1 : RegIdx) (f3 : BitVec 3) (rd : RegIdx) (op : BitVec 7) : rdOf (encI imm rs1 f3 rd op) = rd := by
  unfold rdOf encI
  ext j hj
  simp only [BitVec.getLsbD_append, BitVec.getElem_extractLsb']
  interval_cases j <;> simp [BitVec.getLsbD_eq_getElem]

@[simp] theorem funct3Of_encI (imm : BitVec 12) (rs1 : RegIdx) (f3 : BitVec 3) (rd : RegIdx) (op : BitVec 7) : funct3Of (encI imm rs1 f3 rd op) = f3 := by
  unfold funct3Of encI
  ext j hj
  simp only [BitVec.getLsbD_append, BitVec.getElem_extractLsb']
  interval_cases j <;> simp [BitVec.getLsbD_eq_getElem]

@[simp] theorem rs1Of_encI (imm : BitVec 12) (rs1 : RegIdx) (f3 : BitVec 3) (rd : RegIdx) (op : BitVec 7) : rs1Of (encI imm rs1 f3 rd op) = rs1 := by
  unfold rs1Of encI
  ext j hj
  simp only [BitVec.getLsbD_append, BitVec.getElem_extractLsb']
  interval_cases j <;> simp [BitVec.getLsbD_eq_getElem]

@[simp] theorem immIOf_encI (imm : BitVec 12) (rs1 : RegIdx) (f3 : BitVec 3) (rd : RegIdx) (op : BitVec 7) : immIOf (encI imm rs1 f3 rd op) = imm := by
  unfold immIOf encI
  ext j hj
  simp only [BitVec.getLsbD_append, BitVec.getElem_extractLsb']
  interval_cases j <;> simp [BitVec.getLsbD_eq_getElem]

@[simp] theorem opcodeOf_encS (imm : BitVec 12) (rs2 rs1 : RegIdx) (f3 : BitVec 3) (op : BitVec 7) : opcodeOf (encS imm rs2 rs1 f3 op) = op := by
  unfold opcodeOf encS
  ext j hj
  simp only [BitVec.getLsbD_append, BitVec.getElem_extractLsb', BitVec.getLsbD_extractLsb']
  interval_cases j <;> simp [BitVec.getLsbD_eq_getElem]

@[simp] theorem funct3Of_encS (imm : BitVec 12) (rs2 rs1 : RegIdx) (f3 : BitVec 3) (op : BitVec 7) : funct3Of (encS imm rs2 rs1 f3 op) = f3 := by
  unfold funct3Of encS
  ext j hj
  simp only [BitVec.getLsbD_append, BitVec.getElem_extractLsb', BitVec.getLsbD_extractLsb']
  interval_cases j <;> simp [BitVec.getLsbD_eq_getElem]

@[simp] theorem rs1Of_encS (imm : BitVec 12) (rs2 rs1 : RegIdx) (f3 : BitVec 3) (op : BitVec 7) : rs1Of (encS imm rs2 rs1 f3 op) = rs1 := by
  unfold rs1Of encS
  ext j hj
  simp only [BitVec.getLsbD_append, BitVec.getElem_extractLsb', BitVec.getLsbD_extractLsb']
  interval_cases j <;> simp [BitVec.getLsbD_eq_getElem]

@[simp] theorem rs2Of_encS (imm : BitVec 12) (rs2 rs1 : RegIdx) (f3 : BitVec 3) (op : BitVec 7) : rs2Of (encS imm rs2 rs1 f3 op) = rs2 := by
  unfold rs2Of encS
  ext j hj
  simp only [BitVec.getLsbD_append, BitVec.getElem_extractLsb', BitVec.getLsbD_extractLsb']
  interval_cases j <;> simp [BitVec.getLsbD_eq_getElem]

@[simp] theorem immSOf_encS (imm : BitVec 12) (rs2 rs1 : RegIdx) (f3 : BitVec 3) (op : BitVec 7) : immSOf (encS imm rs2 rs1 f3 op) = imm := by
  unfold immSOf encS
  ext j hj
  simp only [BitVec.getElem_append, BitVec.getLsbD_append, BitVec.getElem_extractLsb', BitVec.getLsbD_extractLsb']
  interval_cases j <;> simp [BitVec.getLsbD_eq_getElem]

@[simp] theorem opcodeOf_encB (imm : BitVec 13) (rs2 rs1 : RegIdx) (f3 : BitVec 3) (op : BitVec 7) : opcodeOf (encB imm rs2 rs1 f3 op) = op := by
  unfold opcodeOf encB
  ext j hj
  simp only [BitVec.getLsbD_append, BitVec.getElem_extractLsb', BitVec.getLsbD_extractLsb']
  interval_cases j <;> simp [BitVec.getLsbD_eq_getElem]

@[simp] theorem funct3Of_encB (imm : BitVec 13) (rs2 rs1 : RegIdx) (f3 : BitVec 3) (op : BitVec 7) : funct3Of (encB imm rs2 rs1 f3 op) = f3 := by
  unfold funct3Of encB
  ext j hj
  simp only [BitVec.getLsbD_append, BitVec.getElem_extractLsb', BitVec.getLsbD_extractLsb']
  interval_cases j <;> simp [BitVec.getLsbD_eq_getElem]

@[simp] theorem rs1Of_encB (imm : BitVec 13) (rs2 rs1 : RegIdx) (f3 : BitVec 3) (op : BitVec 7) : rs1Of (encB imm rs2 rs1 f3 op) = rs1 := by
  unfold rs1Of encB
  ext j hj
  simp only [BitVec.getLsbD_append, BitVec.getElem_extractLsb', BitVec.getLsbD_extractLsb']
  interval_cases j <;> simp [BitVec.getLsbD_eq_getElem]

@[simp] theorem rs2Of_encB (imm : BitVec 13) (rs2 rs1 : RegIdx) (f3 : BitVec 3) (op : BitVec 7) : rs2Of (encB imm rs2 rs1 f3 op) = rs2 := by
  unfold rs2Of encB
  ext j hj
  simp only [BitVec.getLsbD_append, BitVec.getElem_extractLsb', BitVec.getLsbD_extractLsb']
  interval_cases j <;> simp [BitVec.getLsbD_eq_getElem]

@[simp] theorem opcodeOf_encU (imm : BitVec 20) (rd : RegIdx) (op : BitVec 7) : opcodeOf (encU imm rd op) = op := by
  unfold opcodeOf encU
  ext j hj
  simp only [BitVec.getLsbD_append, BitVec.getElem_extractLsb']
  interval_cases j <;> simp [BitVec.getLsbD_eq_getElem]

@[simp] theorem rdOf_encU (imm : BitVec 20) (rd : RegIdx) (op : BitVec 7) : rdOf (encU imm rd op) = rd := by
  unfold rdOf encU
  ext j hj
  simp only [BitVec.getLsbD_append, BitVec.getElem_extractLsb']
  interval_cases j <;> simp [BitVec.getLsbD_eq_getElem]

@[simp] theorem immUOf_encU (imm : BitVec 20) (rd : RegIdx) (op : BitVec 7) : immUOf (encU imm rd op) = imm := by
  unfold immUOf encU
  ext j hj
  simp only [BitVec.getLsbD_append, BitVec.getElem_extractLsb']
  interval_cases j <;> simp [BitVec.getLsbD_eq_getElem]

/-- B-imm, which ends in a 0 the word does not hold (R73). -/
theorem immBOf_encB {imm : BitVec 13} (h : imm.getLsbD 0 = false) (rs2 rs1 : RegIdx) (f3 : BitVec 3) (op : BitVec 7) :
    immBOf (encB imm rs2 rs1 f3 op) = imm := by
  unfold immBOf encB
  ext j hj
  simp only [BitVec.getElem_append, BitVec.getLsbD_append, BitVec.getElem_extractLsb', BitVec.getLsbD_extractLsb']
  interval_cases j <;> simp_all [BitVec.getLsbD_eq_getElem]

/-! ## A word as the word of its fields -/

theorem encR_fields (w : InstrWord) : encR (funct7Of w) (rs2Of w) (rs1Of w) (funct3Of w) (rdOf w) (opcodeOf w) = w := by
  unfold encR funct7Of rs2Of rs1Of funct3Of rdOf opcodeOf
  ext j hj
  simp only [BitVec.getElem_append, BitVec.getElem_extractLsb']
  interval_cases j <;> simp

theorem encI_fields (w : InstrWord) : encI (immIOf w) (rs1Of w) (funct3Of w) (rdOf w) (opcodeOf w) = w := by
  unfold encI immIOf rs1Of funct3Of rdOf opcodeOf
  ext j hj
  simp only [BitVec.getElem_append, BitVec.getElem_extractLsb']
  interval_cases j <;> simp

theorem encS_fields (w : InstrWord) : encS (immSOf w) (rs2Of w) (rs1Of w) (funct3Of w) (opcodeOf w) = w := by
  unfold encS immSOf rs2Of rs1Of funct3Of opcodeOf
  ext j hj
  simp only [BitVec.getElem_append, BitVec.getElem_extractLsb', BitVec.getLsbD_extractLsb', BitVec.getLsbD_append]
  interval_cases j <;> simp

theorem encB_fields (w : InstrWord) : encB (immBOf w) (rs2Of w) (rs1Of w) (funct3Of w) (opcodeOf w) = w := by
  unfold encB immBOf rs2Of rs1Of funct3Of opcodeOf
  ext j hj
  simp only [BitVec.getElem_append, BitVec.getElem_extractLsb', BitVec.getLsbD_extractLsb', BitVec.getLsbD_append]
  interval_cases j <;> simp

theorem encU_fields (w : InstrWord) : encU (immUOf w) (rdOf w) (opcodeOf w) = w := by
  unfold encU immUOf rdOf opcodeOf
  ext j hj
  simp only [BitVec.getElem_append, BitVec.getElem_extractLsb']
  interval_cases j <;> simp

end Sys2Proof.Laws
end

