-- ==== Sys2Proof/Laws/PerInstr.lean ====
section
/-! SUPPORT. Statements made of every instruction, one lemma per constructor. -/

namespace Sys2Proof.Laws.EncodesRow

/-- The instruction's word matches the row of spec/opcode_table.json that bears its mnemonic (R75, R76, R77). -/
def Statement (i : Instr) : Prop :=
  ∃ r ∈ opcodeTable, r.mnemonic = i.mnemonic ∧ encode i &&& r.mask = r.val

/-- The row at a place of the table. -/
theorem of_row {i : Instr} (n : Nat) (h : n < opcodeTable.length) (hm : (opcodeTable[n]'h).mnemonic = i.mnemonic)
    (he : encode i &&& (opcodeTable[n]'h).mask = (opcodeTable[n]'h).val) : Statement i :=
  ⟨_, List.getElem_mem h, hm, he⟩

theorem csrrw (rd : RegIdx) (csr : CsrAddr) (rs1 : RegIdx) : Statement (.csrrw rd csr rs1) := by
  refine of_row 0 (by decide) rfl ?_
  simp only [encode, encI, opcodeTable, List.cons_append, List.nil_append, List.getElem_cons_zero]
  ext j hj
  simp only [BitVec.getElem_and, BitVec.getElem_append]
  interval_cases j <;> simp

theorem csrrs (rd : RegIdx) (csr : CsrAddr) (rs1 : RegIdx) : Statement (.csrrs rd csr rs1) := by
  refine of_row 1 (by decide) rfl ?_
  simp only [encode, encI, opcodeTable, List.cons_append, List.nil_append, List.getElem_cons_succ, List.getElem_cons_zero]
  ext j hj
  simp only [BitVec.getElem_and, BitVec.getElem_append]
  interval_cases j <;> simp

theorem csrrc (rd : RegIdx) (csr : CsrAddr) (rs1 : RegIdx) : Statement (.csrrc rd csr rs1) := by
  refine of_row 2 (by decide) rfl ?_
  simp only [encode, encI, opcodeTable, List.cons_append, List.nil_append, List.getElem_cons_succ, List.getElem_cons_zero]
  ext j hj
  simp only [BitVec.getElem_and, BitVec.getElem_append]
  interval_cases j <;> simp

theorem csrrwi (rd : RegIdx) (csr : CsrAddr) (uimm : BitVec 5) : Statement (.csrrwi rd csr uimm) := by
  refine of_row 3 (by decide) rfl ?_
  simp only [encode, encI, opcodeTable, List.cons_append, List.nil_append, List.getElem_cons_succ, List.getElem_cons_zero]
  ext j hj
  simp only [BitVec.getElem_and, BitVec.getElem_append]
  interval_cases j <;> simp

theorem csrrsi (rd : RegIdx) (csr : CsrAddr) (uimm : BitVec 5) : Statement (.csrrsi rd csr uimm) := by
  refine of_row 4 (by decide) rfl ?_
  simp only [encode, encI, opcodeTable, List.cons_append, List.nil_append, List.getElem_cons_succ, List.getElem_cons_zero]
  ext j hj
  simp only [BitVec.getElem_and, BitVec.getElem_append]
  interval_cases j <;> simp

theorem csrrci (rd : RegIdx) (csr : CsrAddr) (uimm : BitVec 5) : Statement (.csrrci rd csr uimm) := by
  refine of_row 5 (by decide) rfl ?_
  simp only [encode, encI, opcodeTable, List.cons_append, List.nil_append, List.getElem_cons_succ, List.getElem_cons_zero]
  ext j hj
  simp only [BitVec.getElem_and, BitVec.getElem_append]
  interval_cases j <;> simp

theorem ecall : Statement .ecall := of_row 6 (by decide) rfl (by decide)

theorem ebreak : Statement .ebreak := of_row 7 (by decide) rfl (by decide)

theorem sret : Statement .sret := of_row 8 (by decide) rfl (by decide)

theorem mret : Statement .mret := of_row 9 (by decide) rfl (by decide)

theorem wfi : Statement .wfi := of_row 10 (by decide) rfl (by decide)

theorem sfenceVma (rs1 rs2 : RegIdx) : Statement (.sfenceVma rs1 rs2) := by
  refine of_row 11 (by decide) rfl ?_
  simp only [encode, encR, opcodeTable, List.cons_append, List.nil_append, List.getElem_cons_succ, List.getElem_cons_zero]
  ext j hj
  simp only [BitVec.getElem_and, BitVec.getElem_append]
  interval_cases j <;> simp

theorem lui (rd : RegIdx) (imm : BitVec 20) : Statement (.lui rd imm) := by
  refine of_row 12 (by decide) rfl ?_
  simp only [encode, encU, opcodeTable, List.cons_append, List.nil_append, List.getElem_cons_succ, List.getElem_cons_zero]
  ext j hj
  simp only [BitVec.getElem_and, BitVec.getElem_append]
  interval_cases j <;> simp

theorem addi (rd rs1 : RegIdx) (imm : BitVec 12) : Statement (.addi rd rs1 imm) := by
  refine of_row 13 (by decide) rfl ?_
  simp only [encode, encI, opcodeTable, List.cons_append, List.nil_append, List.getElem_cons_succ, List.getElem_cons_zero]
  ext j hj
  simp only [BitVec.getElem_and, BitVec.getElem_append]
  interval_cases j <;> simp

theorem add (rd rs1 rs2 : RegIdx) : Statement (.add rd rs1 rs2) := by
  refine of_row 14 (by decide) rfl ?_
  simp only [encode, encR, opcodeTable, List.cons_append, List.nil_append, List.getElem_cons_succ, List.getElem_cons_zero]
  ext j hj
  simp only [BitVec.getElem_and, BitVec.getElem_append]
  interval_cases j <;> simp

theorem lw (rd rs1 : RegIdx) (imm : BitVec 12) : Statement (.lw rd rs1 imm) := by
  refine of_row 15 (by decide) rfl ?_
  simp only [encode, encI, opcodeTable, List.cons_append, List.nil_append, List.getElem_cons_succ, List.getElem_cons_zero]
  ext j hj
  simp only [BitVec.getElem_and, BitVec.getElem_append]
  interval_cases j <;> simp

theorem sw (rs2 rs1 : RegIdx) (imm : BitVec 12) : Statement (.sw rs2 rs1 imm) := by
  refine of_row 16 (by decide) rfl ?_
  simp only [encode, encS, opcodeTable, List.cons_append, List.nil_append, List.getElem_cons_succ, List.getElem_cons_zero]
  ext j hj
  simp only [BitVec.getElem_and, BitVec.getElem_append]
  interval_cases j <;> simp

theorem bne (rs1 rs2 : RegIdx) (offset : BitVec 13) : Statement (.bne rs1 rs2 offset) := by
  refine of_row 17 (by decide) rfl ?_
  simp only [encode, encB, opcodeTable, List.cons_append, List.nil_append, List.getElem_cons_succ, List.getElem_cons_zero]
  ext j hj
  simp only [BitVec.getElem_and, BitVec.getElem_append]
  interval_cases j <;> simp

end Sys2Proof.Laws.EncodesRow
end

