-- ==== Sys2Proof/Laws/Steps.lean ====
section
/-! SUPPORT. What an instruction and a step can do, each said once: every next state has one of a few shapes. -/

namespace Sys2Proof.Laws

open Sys2Proof.Machine

/-- `!=` as the decided disequality. -/
theorem decide_ne_eq {n : Nat} (a b : BitVec n) : decide (a ≠ b) = (a != b) := by
  by_cases h : a = b <;> simp [h]

/-- The shapes of the state after an instruction. -/
inductive Shape (i : Instr) (s t : State) : Prop where
  /-- A trap into S-mode, for an exception the instruction raises. -/
  | trap (e : Exc) (tval : Nat) (raises : s.Raises i e) (can : s.CanTrap (.exc e)) (h : Trapped s t (excCode e) false tval)
      (entry : ∃ (v w : Word) (s' : State), t = s'.enterTrap (.exc e) v w ∧ (s' = s ∨ s' = s.draw ∨ s' = s.draw.draw) ∧
        seen s.sxlen w = handlerNat s (excCode e) false)
  /-- A register written, the pc to the next word. -/
  | finish (rd : RegIdx) (v : Word) (e : t = s.finish rd v)
  /-- A CSR written, a register written, the pc to the next word. -/
  | csr (rd : RegIdx) (c : Csr) (w : Word) (parts : csrParts i = some (rd, csrAddress c, true)) (mode : s.priv ≠ .u)
      (e : t = (s.writeCsr c w).finish rd (s.readCsr c))
  /-- A word stored, the pc to the next word. -/
  | store (rs2 rs1 : RegIdx) (imm : BitVec 12) (pa : Nat) (v : BitVec 32) (sw : i = .sw rs2 rs1 imm)
      (e : t = (s.writeWord pa v).advance)
  /-- A move of the pc alone, to a multiple of 4 or to the next word. -/
  | move (v : Word) (e : t = s.jump v) (aligned : v = s.pcLow + 4#64 ∨ (low s.xlen v).toNat % 4 = 0)
  /-- A wait that completes by a draw. -/
  | wait (e : t = s.draw.advance)
  /-- A return from a trap. -/
  | ret (sret : i = .sret) (mode : s.priv ≠ .u) (e : t = s.leaveTrap)

theorem shape_of_raise {i : Instr} {s s' t : State} {e : Exc} {tval : Word} (hi : s.Raises i e)
    (hs : s' = s ∨ s' = s.draw ∨ s' = s.draw.draw) (h : raiseExc e tval s' = .next t) : Shape i s t := by
  obtain ⟨hc, v, rfl, hv⟩ := takeTrap_next h
  have ht := enterTrap_trapped (s := s') (tval := tval) (trapTarget_toS hc.2) hv
  rcases hs with rfl | rfl | rfl
  · exact .trap e _ hi hc ht ⟨tval, v, _, rfl, .inl rfl, hv⟩
  · exact .trap e _ hi hc (trapped_of_draw ht) ⟨tval, v, _, rfl, .inr (.inl rfl), hv⟩
  · exact .trap e _ hi hc (trapped_of_draw (trapped_of_draw ht)) ⟨tval, v, _, rfl, .inr (.inr rfl), hv⟩

theorem shape_of_illegal {i : Instr} {s t : State} {w : InstrWord} (hi : s.Raises i .illegal) (h : raiseIllegal w s = .next t) :
    Shape i s t :=
  shape_of_raise hi (.inr (.inl rfl)) h

/-- What a CSR instruction can do. -/
theorem shape_of_csr {i : Instr} {op : CsrOp} {rd : RegIdx} {a : CsrAddr} {m : Word} {writes : Bool} {s t : State}
    (hi : csrParts i = some (rd, a, writes)) (h : csrAccess i op rd a m writes s = .next t) : Shape i s t := by
  unfold csrAccess at h
  cases hc : s.csrCheck a writes with
  | illegal => simp only [hc] at h; exact shape_of_illegal (.csr i rd a writes hi (csrCheck_illegal hc)) h
  | refuse r => simp only [hc] at h; cases h
  | ok c =>
    obtain ⟨rfl, hp⟩ := csrCheck_ok hc
    simp only [hc] at h
    cases h
    cases writes
    · exact .finish _ _ rfl
    · exact .csr rd c _ hi hp rfl

/-- A load that does not reach its result raises what its access raises, or is refused as its access is. -/
theorem loadWord_raise {s : State} {ea : Word} {e : Exc} {tval : Word} (h : s.loadWord ea = .raise e tval) :
    s.access .load ea 4 = .raise e tval := by
  unfold State.loadWord at h
  split at h <;> cases h
  assumption

theorem storeWord_raise {s : State} {ea : Word} {v : BitVec 32} {e : Exc} {tval : Word} (h : s.storeWord ea v = .raise e tval) :
    s.access .store ea 4 = .raise e tval := by
  unfold State.storeWord at h
  split at h <;> cases h
  assumption

theorem raises_load {s : State} {rd rs1 : RegIdx} {imm : BitVec 12} {e : Exc} {tval : Word}
    (h : s.loadWord (s.effAddr rs1 imm) = .raise e tval) : s.Raises (.lw rd rs1 imm) e :=
  .load rd rs1 imm e tval (effAddr_eq s rs1 imm ▸ loadWord_raise h)

theorem raises_store {s : State} {rs2 rs1 : RegIdx} {imm : BitVec 12} {v : BitVec 32} {e : Exc} {tval : Word}
    (h : s.storeWord (s.effAddr rs1 imm) v = .raise e tval) : s.Raises (.sw rs2 rs1 imm) e :=
  .store rs2 rs1 imm e tval (effAddr_eq s rs1 imm ▸ storeWord_raise h)

/-- Two registers that differ in what an instruction reads differ in what it sees. -/
theorem rdx_ne {s : State} {i j : RegIdx} (h : s.rdx i ≠ s.rdx j) : seen s.xlen (s.readReg i) ≠ seen s.xlen (s.readReg j) :=
  fun e => h (low_congr e)

theorem raises_branch {s : State} {rs1 rs2 : RegIdx} {offset : BitVec 13} (hn : s.rdx rs1 ≠ s.rdx rs2)
    (ha : (low s.xlen (s.pcLow + imm13 offset)).toNat % 4 ≠ 0) : s.Raises (.bne rs1 rs2 offset) .instrMisaligned := by
  refine .branch rs1 rs2 offset (rdx_ne hn) ?_
  rwa [low_toNat, imm13, seen_add_signExtend (by decide), State.pcLow, seen_low] at ha

/-- Every next state of an instruction has one of the shapes. -/
theorem exec_shape {i : Instr} {s t : State} (h : exec i s = .next t) : Shape i s t := by
  cases i with
  | csrrw rd csr rs1 => exact shape_of_csr rfl h
  | csrrs rd csr rs1 => exact shape_of_csr (by simp only [csrParts, decide_ne_eq]) h
  | csrrc rd csr rs1 => exact shape_of_csr (by simp only [csrParts, decide_ne_eq]) h
  | csrrwi rd csr uimm => exact shape_of_csr rfl h
  | csrrsi rd csr uimm => exact shape_of_csr (by simp only [csrParts, decide_ne_eq]) h
  | csrrci rd csr uimm => exact shape_of_csr (by simp only [csrParts, decide_ne_eq]) h
  | ecall =>
    simp only [exec, execEcall] at h
    cases hp : s.priv <;> rw [hp] at h
    · exact shape_of_raise (.ecallU hp) (.inl rfl) h
    · exact shape_of_raise (.ecallS hp) (.inl rfl) h
    · exact shape_of_raise (.ecallM hp) (.inl rfl) h
  | ebreak => exact shape_of_raise .ebreak (.inr (.inl rfl)) h
  | sret =>
    simp only [exec, execSret] at h
    cases hp : s.priv <;> rw [hp] at h
    · exact shape_of_illegal (.sret hp) h
    · cases h; exact .ret rfl (by simp [hp]) rfl
    · cases h; exact .ret rfl (by simp [hp]) rfl
  | mret =>
    simp only [exec, execMret] at h
    cases hp : s.priv <;> rw [hp] at h
    · exact shape_of_illegal (.mret (by simp [hp])) h
    · exact shape_of_illegal (.mret (by simp [hp])) h
    · cases h
  | wfi =>
    simp only [exec, execWfi] at h
    cases hp : s.priv <;> simp only [hp] at h
    · split at h
      · exact shape_of_raise (.wfi hp) (.inr (.inr rfl)) h
      · cases h; exact .wait rfl
    · cases h; exact .move _ rfl (.inl rfl)
    · cases h; exact .move _ rfl (.inl rfl)
  | sfenceVma rs1 rs2 =>
    simp only [exec, execSfenceVma] at h
    cases hp : s.priv <;> rw [hp] at h
    · exact shape_of_illegal (.sfenceVma rs1 rs2 hp) h
    · cases h; exact .move _ rfl (.inl rfl)
    · cases h; exact .move _ rfl (.inl rfl)
  | lui rd imm => cases h; exact .finish _ _ rfl
  | addi rd rs1 imm => cases h; exact .finish _ _ rfl
  | add rd rs1 rs2 => cases h; exact .finish _ _ rfl
  | lw rd rs1 imm =>
    obtain ⟨v, -, hv⟩ | ⟨e, tv, ha, hv⟩ := andThen_next h
    · cases hv; exact .finish _ _ rfl
    · exact shape_of_raise (raises_load ha) (.inl rfl) hv
  | sw rs2 rs1 imm =>
    obtain ⟨v, ha, hv⟩ | ⟨e, tv, ha, hv⟩ := andThen_next h
    · cases hv
      unfold State.storeWord at ha
      split at ha <;> cases ha
      exact .store _ _ _ _ _ rfl rfl
    · exact shape_of_raise (raises_store ha) (.inl rfl) hv
  | bne rs1 rs2 offset =>
    simp only [exec, execBne] at h
    split at h
    · rename_i hn
      split at h
      · rename_i ha
        exact shape_of_raise (raises_branch hn ha) (.inl rfl) h
      · rename_i ha
        cases h
        exact .move _ rfl (.inr (by simpa [low_low] using ha))
    · cases h; exact .move _ rfl (.inl rfl)

/-! ## Stops -/

/-- How an instruction can stop: a fault needs a reserved `stvec.MODE`, and each refusal its reason. -/
inductive Stops (i : Instr) (s : State) : Host.Outcome State Fault Refusal → Prop where
  | next (t : State) : Stops i s (.next t)
  | fault (f : Fault) (h : 2 ≤ s.stvec.toNat % 4) : Stops i s (.fault f)
  | toM (e : Exc) (raises : s.Raises i e) (h : s.trapTarget (.exc e) = .toM) : Stops i s (.refused .trapToMMode)
  | listed (rd : RegIdx) (a : CsrAddr) (writes : Bool) (parts : csrParts i = some (rd, a, writes)) (none : csrHeld a = none)
      (listed : csrListed a = true) (h : ¬ s.CsrIllegal a writes) : Stops i s (.refused (.csrNotSpecified a))
  | wider (rd : RegIdx) (c : Csr) (writes : Bool) (parts : csrParts i = some (rd, csrAddress c, writes)) (mode : s.priv = .m)
      (h : s.wlen ≠ s.sxlen) : Stops i s (.refused .csrFromWiderMMode)
  | mret (mret : i = .mret) (h : s.priv = .m) : Stops i s (.refused .mretInMMode)
  | split (rd rs1 : RegIdx) (imm : BitVec 12) (access : i = .lw rd rs1 imm ∨ i = .sw rd rs1 imm)
      (policy : s.cfg.misaligned = .split) (h : effAddrNat s rs1 imm % 4 ≠ 0) : Stops i s (.refused .misalignedSplit)

theorem stops_of_raise {i : Instr} {s s' : State} {e : Exc} {tval : Word} (hi : s.Raises i e)
    (hs : s' = s ∨ s' = s.draw ∨ s' = s.draw.draw) : Stops i s (raiseExc e tval s') := by
  have ht : s'.trapTarget (.exc e) = s.trapTarget (.exc e) := by rcases hs with rfl | rfl | rfl <;> rfl
  have hv : s'.stvec = s.stvec := by rcases hs with rfl | rfl | rfl <;> rfl
  cases h : raiseExc e tval s' with
  | next t => exact .next t
  | fault f => exact .fault f (hv ▸ takeTrap_fault h)
  | refused r =>
    obtain ⟨rfl, hm⟩ := takeTrap_refused h
    exact .toM e hi (ht ▸ hm)

theorem stops_of_illegal {i : Instr} {s : State} {w : InstrWord} (hi : s.Raises i .illegal) : Stops i s (raiseIllegal w s) :=
  stops_of_raise hi (.inr (.inl rfl))

theorem stops_of_csr {i : Instr} {op : CsrOp} {rd : RegIdx} {a : CsrAddr} {m : Word} {writes : Bool} {s : State}
    (hi : csrParts i = some (rd, a, writes)) : Stops i s (csrAccess i op rd a m writes s) := by
  unfold csrAccess
  cases hc : s.csrCheck a writes with
  | illegal => exact stops_of_illegal (.csr i rd a writes hi (csrCheck_illegal hc))
  | ok c => exact .next _
  | refuse r =>
    obtain ⟨rfl, hn, hl, hx⟩ | ⟨rfl, hp, hw, c, rfl⟩ := csrCheck_refuse hc
    · exact .listed rd a writes hi hn hl hx
    · exact .wider rd c writes hi hp hw

/-- Every stop of an instruction has its reason. -/
theorem exec_stops (i : Instr) (s : State) : Stops i s (exec i s) := by
  cases i with
  | csrrw rd csr rs1 => exact stops_of_csr rfl
  | csrrs rd csr rs1 => exact stops_of_csr (by simp only [csrParts, decide_ne_eq])
  | csrrc rd csr rs1 => exact stops_of_csr (by simp only [csrParts, decide_ne_eq])
  | csrrwi rd csr uimm => exact stops_of_csr rfl
  | csrrsi rd csr uimm => exact stops_of_csr (by simp only [csrParts, decide_ne_eq])
  | csrrci rd csr uimm => exact stops_of_csr (by simp only [csrParts, decide_ne_eq])
  | ecall =>
    simp only [exec, execEcall]
    cases hp : s.priv
    · exact stops_of_raise (.ecallU hp) (.inl rfl)
    · exact stops_of_raise (.ecallS hp) (.inl rfl)
    · exact stops_of_raise (.ecallM hp) (.inl rfl)
  | ebreak => exact stops_of_raise .ebreak (.inr (.inl rfl))
  | sret =>
    simp only [exec, execSret]
    cases hp : s.priv
    · exact stops_of_illegal (.sret hp)
    · exact .next _
    · exact .next _
  | mret =>
    simp only [exec, execMret]
    cases hp : s.priv
    · exact stops_of_illegal (.mret (by simp [hp]))
    · exact stops_of_illegal (.mret (by simp [hp]))
    · exact .mret rfl hp
  | wfi =>
    simp only [exec, execWfi]
    cases hp : s.priv
    · simp only
      split
      · exact stops_of_raise (.wfi hp) (.inr (.inr rfl))
      · exact .next _
    · exact .next _
    · exact .next _
  | sfenceVma rs1 rs2 =>
    simp only [exec, execSfenceVma]
    cases hp : s.priv
    · exact stops_of_illegal (.sfenceVma rs1 rs2 hp)
    · exact .next _
    · exact .next _
  | lui rd imm => exact .next _
  | addi rd rs1 imm => exact .next _
  | add rd rs1 rs2 => exact .next _
  | lw rd rs1 imm =>
    simp only [exec, execLw]
    cases ha : s.loadWord (s.effAddr rs1 imm) with
    | ok v => exact .next _
    | raise e tv => exact stops_of_raise (raises_load ha) (.inl rfl)
    | refuse r =>
      unfold State.loadWord at ha
      split at ha <;> cases ha
      obtain ⟨rfl, hp, -, hm⟩ := access_refuse ‹_›
      exact .split rd rs1 imm (.inl rfl) hp (by rwa [effAddr_eq, seen_effAddrNat] at hm)
  | sw rs2 rs1 imm =>
    simp only [exec, execSw]
    cases ha : s.storeWord (s.effAddr rs1 imm) ((s.rdx rs2).setWidth 32) with
    | ok v => exact .next _
    | raise e tv => exact stops_of_raise (raises_store ha) (.inl rfl)
    | refuse r =>
      unfold State.storeWord at ha
      split at ha <;> cases ha
      obtain ⟨rfl, hp, -, hm⟩ := access_refuse ‹_›
      exact .split rs2 rs1 imm (.inr rfl) hp (by rwa [effAddr_eq, seen_effAddrNat] at hm)
  | bne rs1 rs2 offset =>
    simp only [exec, execBne]
    split
    · rename_i hn
      split
      · rename_i ha
        exact stops_of_raise (raises_branch hn ha) (.inl rfl)
      · exact .next _
    · exact .next _

/-! ## Steps -/

/-- What a step can do: after the oracle's move, an interrupt, the exception of the fetch, an instruction, or an illegal word. -/
theorem step_cases {s t : State} (h : step s = .next t) :
    s.stvec.toNat % 4 < 2 ∧
    ((∃ k v, s.oracleMove.irqTaken = some k ∧ s.oracleMove.CanTrap (.irq k) ∧ t = s.oracleMove.enterTrap (.irq k) 0#64 v ∧
        seen s.sxlen v = handlerNat s.oracleMove (irqCode k) true) ∨
     (s.oracleMove.irqTaken = none ∧ ∃ e tval, s.oracleMove.fetchWord = .raise e tval ∧ raiseExc e tval s.oracleMove = .next t) ∨
     (∃ i, s.oracleMove.Runs i ∧ exec i s.oracleMove = .next t) ∨
     (s.oracleMove.irqTaken = none ∧ ∃ w, s.oracleMove.fetchWord = .ok w ∧ decodeWord w = .error .illegal ∧
        raiseIllegal w s.oracleMove = .next t)) := by
  unfold step at h
  split at h
  · cases h
  · rename_i hm
    refine ⟨by rw [stvecMode_toNat] at hm; omega, ?_⟩
    unfold stepBoundary at h
    cases hk : s.oracleMove.irqTaken with
    | some k =>
      simp only [hk] at h
      obtain ⟨hc, v, e, hv⟩ := takeTrap_next h
      have hx : s.oracleMove.sxlen = s.sxlen := by rw [oracleMove_kept]; rfl
      exact .inl ⟨k, v, rfl, hc, e, hx ▸ hv⟩
    | none =>
      simp only [hk] at h
      obtain ⟨w, hw, hr⟩ | ⟨e, tv, hw, hr⟩ := andThen_next h
      · unfold runWord at hr
        cases hd : decodeWord w with
        | ok i => rw [hd] at hr; exact .inr (.inr (.inl ⟨i, ⟨hk, w, hw, hd⟩, hr⟩))
        | error r =>
          rw [hd] at hr
          cases r
          · exact .inr (.inr (.inr ⟨rfl, w, hw, hd, hr⟩))
          · cases hr
      · exact .inr (.inl ⟨rfl, e, tv, hw, hr⟩)

/-- A trap that is not taken into S-mode: it faults only at a reserved MODE, and is refused only where its target is M-mode. -/
theorem trap_stops {s s' : State} {c : Cause} {tval : Word} (hs : s' = s ∨ s' = s.draw) :
    (∀ f, takeTrap c tval s' = .fault f → 2 ≤ s.stvec.toNat % 4) ∧
    (∀ r, takeTrap c tval s' = .refused r → r = .trapToMMode ∧ s.trapTarget c = .toM) := by
  rcases hs with rfl | rfl
  · exact ⟨fun f h => takeTrap_fault h, fun r h => takeTrap_refused h⟩
  · exact ⟨fun f h => takeTrap_fault (s := s.draw) h, fun r h => takeTrap_refused (s := s.draw) h⟩

end Sys2Proof.Laws
end

