-- ==== Sys2Proof/Tests/Slice0.lean ====
section
/-! SUPPORT. Tests of the model, on words and values taken from the spec (95_test_vectors.md; each test names its vector or rule), and
for every obligation with hypotheses a state and operands that meet them (`witness_…`). -/

namespace Sys2Proof.Tests

open Sys2Proof.Machine

/-! ## Small states -/

/-- The outcome is a next state with this property. -/
def nextIs (o : Host.Outcome State Fault Refusal) (p : State → Bool) : Bool :=
  match o with
  | .next t => p t
  | .fault _ => false
  | .refused _ => false

/-- The outcome is this refusal. -/
def refusedAs (o : Host.Outcome State Fault Refusal) (r : Refusal) : Bool :=
  match o with
  | .next _ => false
  | .fault _ => false
  | .refused q => decide (q = r)

/-- The pages of P1 of the spec, and more: code, handler, user data, an execute-only supervisor page and an execute-only user page. -/
def samplePages : List PageEntry :=
  [⟨0x10000, 0x10FFF, 0x10000, true, false, true, false⟩, ⟨0x20000, 0x20FFF, 0x20000, true, false, true, false⟩] ++
  [⟨0x400000, 0x400FFF, 0x80400000, true, true, false, true⟩, ⟨0x500000, 0x500FFF, 0x80500000, false, false, true, false⟩,
   ⟨0x600000, 0x600FFF, 0x80600000, false, false, true, true⟩]

/-- WLEN = SXLEN = 64, UXLEN = 32 throughout, the sample pages, every exception delegated. -/
def sampleCfg : Config := { resetConfig with uxlWritable := false, pages := .table samplePages, excToS := 0xB3FF#64 }

/-- A state in a mode, with translation off: pc 0x1000, handler at 0x20000, SIE = 1, and the bytes 44 33 22 11 at 0x2000. -/
def bare (p : Priv) : State :=
  { State.reset with
    cfg := sampleCfg, priv := p, pc := 0x1000#64, stvec := 0x20000#64,
    sstatus := { State.reset.sstatus with sie := true }
    mem := [(0x2000, 0x44#8), (0x2001, 0x33#8), (0x2002, 0x22#8), (0x2003, 0x11#8)] }

/-- As `bare`, with translation on (Sv39), pc in the code page, and the bytes at physical 0x80400000. -/
def paged (p : Priv) : State :=
  { bare p with
    pc := 0x10000#64, satp := 0x8000000000000000#64,
    mem := [(0x10000, 0x03#8), (0x10001, 0xA5#8), (0x10002, 0x05#8), (0x10003, 0x00#8),
            (0x80400000, 0x44#8), (0x80400001, 0x33#8), (0x80400002, 0x22#8), (0x80400003, 0x11#8)] }

/-- A state with `sstatus` written as software would. -/
def withStatus (s : State) (w : Word) : State := { s with sstatus := s.sstatus.write s.cfg w }

/-- A state with SXLEN = WLEN = 32. -/
def narrow (s : State) : State := { s with cfg := { s.cfg with widths := .w32s32 } }

/-- A state with WLEN = 64 and SXLEN = 32. -/
def mixed (s : State) : State := { s with cfg := { s.cfg with widths := .w64s32 } }

/-! ## Well-formedness and decoding -/

/-- The one check: an odd branch offset is refused (R73). -/
theorem test_wellFormed_refuses_odd_offset : (Instr.bne 14#5 0#5 3#13).wellFormed = false := by decide

theorem test_wellFormed_accepts_even_offset : (Instr.bne 14#5 0#5 (-4#13)).wellFormed = true := by decide

/-- The words of the spec's examples for the SYSTEM opcode (95_test_vectors.md F1 to F9, F14, 41_csr_instructions.md R101). -/
theorem test_decode_csr :
    decodeWord 0x10529073#32 = .ok (.csrrw 0#5 0x105#12 5#5) ∧ decodeWord 0x1002A073#32 = .ok (.csrrs 0#5 0x100#12 5#5) ∧
    decodeWord 0x1002B073#32 = .ok (.csrrc 0#5 0x100#12 5#5) ∧ decodeWord 0x10015073#32 = .ok (.csrrwi 0#5 0x100#12 2#5) ∧
    decodeWord 0x10016073#32 = .ok (.csrrsi 0#5 0x100#12 2#5) ∧ decodeWord 0x10017573#32 = .ok (.csrrci 10#5 0x100#12 2#5) := by
  decide

/-- R76, G10. -/
theorem test_decode_privileged :
    decodeWord 0x00000073#32 = .ok .ecall ∧ decodeWord 0x00100073#32 = .ok .ebreak ∧ decodeWord 0x10200073#32 = .ok .sret ∧
    decodeWord 0x30200073#32 = .ok .mret ∧ decodeWord 0x10500073#32 = .ok .wfi ∧
    decodeWord 0x12B50073#32 = .ok (.sfenceVma 10#5 11#5) := by
  decide

/-- H1, H3, A1, B3, H8, H10, H12. -/
theorem test_decode_base :
    decodeWord 0x000402B7#32 = .ok (.lui 5#5 0x40#20) ∧ decodeWord 0x7FF50513#32 = .ok (.addi 10#5 10#5 2047#12) ∧
    decodeWord 0x00C58533#32 = .ok (.add 10#5 11#5 12#5) ∧ decodeWord 0x0085A503#32 = .ok (.lw 10#5 11#5 8#12) ∧
    decodeWord 0x00A6A223#32 = .ok (.sw 10#5 13#5 4#12) ∧ decodeWord 0xFE071EE3#32 = .ok (.bne 14#5 0#5 (-4#13)) ∧
    decodeWord 0x00051163#32 = .ok (.bne 10#5 0#5 2#13) := by
  decide

/-- G12 and R78: URET, funct3 = 100 and an unused funct12 are illegal; H14: `sub` is refused; the zero and all-ones words. -/
theorem test_decode_rejects :
    decodeWord 0x00200073#32 = .error .illegal ∧ decodeWord 0x00004073#32 = .error .illegal ∧
    decodeWord 0x10400073#32 = .error .illegal ∧ decodeWord 0x40B50533#32 = .error .baseISA ∧
    decodeWord 0x00000000#32 = .error .illegal ∧ decodeWord 0xFFFFFFFF#32 = .error .illegal := by
  decide

/-- Little-endian bytes, and too few of them (R44, R70). -/
theorem test_decode_bytes :
    decode [0x73#8, 0x90#8, 0x52#8, 0x10#8, 0xAA#8] = .ok (.csrrw 0#5 0x105#12 5#5, [0xAA#8]) ∧
    decode [0x73#8, 0x90#8, 0x52#8] = .error (.truncated 3) := by
  decide

theorem test_decodeTableWord : decodeTableWord 32 0x10200073 = some .sret := by decide

/-! ## The step -/

/-- The first instruction after reset is the placed word: M-mode, pc 0, nothing pending. -/
theorem test_step_from_reset :
    nextIs (step (State.reset.withFetchWord 32 0x000402B7)) (fun t => t.readReg 5#5 == 0x40000#64 && t.pc == 4#64) = true := by
  decide

/-- P1, first load: step fetches through translation and runs `lw a0,0(a1)` with SUM = 1. -/
theorem test_step_paged :
    nextIs (step ((withStatus (paged .s) 0x40002#64).writeReg 11#5 0x400000#64))
      (fun t => t.readReg 10#5 == 0x11223344#64 && t.pc == 0x10004#64) = true := by
  decide

/-- P2a: a delegated timer interrupt, vectored, SXLEN = 32. -/
theorem test_step_interrupt :
    nextIs (step { narrow (bare .s) with stvec := 0x2001#64, pc := 0x1010#64, sie := 0x20#64, oracle := [[(.sti, true)]] })
      (fun t => t.sepc == 0x1010#64 && t.scause == 0x80000005#64 && t.stval == 0#64 && t.pc == 0x2014#64) = true := by
  decide

/-! ## The base instructions -/

/-- A11. -/
theorem test_lui_sign : nextIs (exec (.lui 5#5 0x80000#20) (bare .u)) (fun t => t.readReg 5#5 == 0xFFFFFFFF80000000#64) = true := by
  decide

/-- H3. -/
theorem test_addi_wrap : nextIs (exec (.addi 10#5 10#5 2047#12) ((bare .s).writeReg 10#5 0x7FFFFFFFFFFFFFFF#64))
    (fun t => t.readReg 10#5 == 0x80000000000007FE#64) = true := by decide

/-- A4. -/
theorem test_addi_narrow : nextIs (exec (.addi 10#5 11#5 (-1#12)) (bare .u))
    (fun t => t.readReg 10#5 == 0xFFFFFFFFFFFFFFFF#64) = true := by decide

/-- A1 (U-mode) and A2 (S-mode). -/
theorem test_add_narrow : nextIs (exec (.add 10#5 11#5 12#5)
    (((bare .u).writeReg 11#5 0xFFFFFFFF7FFFFFFF#64).writeReg 12#5 0x0000000100000001#64))
    (fun t => t.readReg 10#5 == 0xFFFFFFFF80000000#64) = true := by decide

theorem test_add_wide : nextIs (exec (.add 10#5 11#5 12#5)
    (((bare .s).writeReg 11#5 0xFFFFFFFF7FFFFFFF#64).writeReg 12#5 0x0000000100000001#64))
    (fun t => t.readReg 10#5 == 0x0000000080000000#64) = true := by decide

/-- H6. -/
theorem test_lw_little_endian : nextIs (exec (.lw 10#5 11#5 0#12) ((bare .s).writeReg 11#5 0x2000#64))
    (fun t => t.readReg 10#5 == 0x11223344#64) = true := by decide

/-- H7. -/
theorem test_lw_misaligned : nextIs (exec (.lw 10#5 11#5 0#12) ((bare .s).writeReg 11#5 0x2002#64))
    (fun t => t.scause == 4#64 && t.stval == 0x2002#64 && t.sepc == 0x1000#64 && t.readReg 10#5 == 0#64) = true := by decide

/-- H8. -/
theorem test_sw_bytes : nextIs (exec (.sw 10#5 13#5 4#12) (((bare .s).writeReg 10#5 0xFFFFFFFF80000000#64).writeReg 13#5 0x2000#64))
    (fun t => t.byteAt 0x2004 == 0#8 && t.byteAt 0x2006 == 0#8 && t.byteAt 0x2007 == 0x80#8 && t.byteAt 0x2003 == 0x11#8) = true := by
  decide

/-- H9. -/
theorem test_sw_misaligned : nextIs (exec (.sw 10#5 13#5 4#12) ((bare .s).writeReg 13#5 0x2001#64))
    (fun t => t.scause == 6#64 && t.stval == 0x2005#64 && t.mem == (bare .s).mem) = true := by decide

/-- A7 (taken) and A6 (not taken: the low 32 bits are zero). -/
theorem test_bne_wide : nextIs (exec (.bne 14#5 0#5 (-4#13)) ((bare .s).writeReg 14#5 0x0000000500000000#64))
    (fun t => t.pc == 0xFFC#64) = true := by decide

theorem test_bne_narrow : nextIs (exec (.bne 14#5 0#5 (-4#13)) ((bare .u).writeReg 14#5 0x0000000500000000#64))
    (fun t => t.pc == 0x1004#64) = true := by decide

/-! ## The CSR instructions -/

/-- F3. -/
theorem test_csrrw_same_register : nextIs (exec (.csrrw 10#5 0x100#12 10#5) ((withStatus (bare .s) 0x122#64).writeReg 10#5 0xC0000#64))
    (fun t => t.readCsr .sstatus &&& 0xFFFFFFFF#64 == 0xC0000#64 && t.readReg 10#5 &&& 0xFFFFFFFF#64 == 0x122#64) = true := by decide

/-- G12 and D30: URET is illegal on every implementation. -/
theorem test_uret_illegal :
    nextIs (step ({ bare .u with cfg := { sampleCfg with userInts := true } }.withFetchWord 32 0x00200073))
      (fun t => t.scause == 2#64 && t.priv == .s) = true := by decide

/-- F10 and D24: without a floating-point unit and user-level interrupts FS, XS, SD, UPIE and UIE read 0, whatever is held. -/
theorem test_sstatus_hardwired :
    { narrow (bare .s) with sstatus := { State.reset.sstatus with xs := 3#2, fs := 3#2, upie := true, uie := true } }.readCsr .sstatus =
      0#64 := by decide

/-- F11. -/
theorem test_csrrs_fills : nextIs (exec (.csrrs 10#5 0x105#12 0#5) { mixed (bare .s) with stvec := 0x80001001#64 })
    (fun t => t.readReg 10#5 == 0xFFFFFFFF80001001#64 && t.stvec == 0x80001001#64) = true := by decide

/-- F1. -/
theorem test_csrrs_sets : nextIs (exec (.csrrs 0#5 0x100#12 5#5) ((bare .s).writeReg 5#5 0x40000#64))
    (fun t => t.readCsr .sstatus &&& 0xFFFFFFFF#64 == 0x40002#64) = true := by decide

/-- F2. -/
theorem test_csrrc_clears : nextIs (exec (.csrrc 0#5 0x100#12 5#5) ((withStatus (bare .s) 0xC0002#64).writeReg 5#5 0x80000#64))
    (fun t => t.readCsr .sstatus &&& 0xFFFFFFFF#64 == 0x40002#64) = true := by decide

/-- F6. -/
theorem test_csrrwi_clears_the_rest : nextIs (exec (.csrrwi 0#5 0x100#12 2#5) (withStatus (bare .s) 0xC0122#64))
    (fun t => t.readCsr .sstatus &&& 0xFFFFFFFF#64 == 2#64) = true := by decide

/-- F8. -/
theorem test_csrrsi : nextIs (exec (.csrrsi 0#5 0x100#12 2#5) (withStatus (bare .s) 0#64))
    (fun t => t.readCsr .sstatus &&& 0xFFFFFFFF#64 == 2#64) = true := by decide

/-- F9. -/
theorem test_csrrci : nextIs (exec (.csrrci 10#5 0x100#12 2#5) (withStatus (bare .s) 2#64))
    (fun t => t.readReg 10#5 &&& 0xFFFFFFFF#64 == 2#64 && t.readCsr .sstatus &&& 0xFFFFFFFF#64 == 0#64) = true := by decide

/-- F10: SXLEN = 32, all ones written. -/
theorem test_sstatus_write : nextIs (exec (.csrrw 0#5 0x100#12 5#5) ((narrow (bare .s)).writeReg 5#5 0xFFFFFFFF#64))
    (fun t => t.readCsr .sstatus == 0x000C0122#64) = true := by decide

/-- F12 and F13: no such register, and a machine register, from S-mode. -/
theorem test_csr_illegal :
    nextIs (exec (.csrrs 10#5 0x1FF#12 0#5) (bare .s)) (fun t => t.scause == 2#64 && t.sepc == 0x1000#64) = true ∧
    nextIs (exec (.csrrs 10#5 0x300#12 0#5) (bare .s)) (fun t => t.scause == 2#64) = true := by decide

/-- E12 as P2: MODE 1 written and read back, SXLEN = 32. -/
theorem test_stvec_write : nextIs (exec (.csrrw 0#5 0x105#12 5#5) ((narrow (bare .s)).writeReg 5#5 0x2001#64))
    (fun t => t.stvec == 0x2001#64) = true := by decide

/-! ## Environment call, breakpoint, return, wait, fence, traps -/

/-- G1. -/
theorem test_ecall_user : nextIs (exec .ecall (withStatus (bare .u) 0x102#64))
    (fun t => t.sepc == 0x1000#64 && t.scause == 8#64 && t.stval == 0#64 && t.readCsr .sstatus &&& 0xFFFFFFFF#64 == 0x20#64 &&
      t.priv == .s && t.pc == 0x20000#64) = true := by decide

/-- G13. -/
theorem test_ecall_keeps_sum : nextIs (exec .ecall (withStatus (bare .s) 0x40002#64))
    (fun t => t.scause == 9#64 && t.readCsr .sstatus &&& 0xFFFFFFFF#64 == 0x40120#64) = true := by decide

/-- G6. -/
theorem test_ebreak : nextIs (exec .ebreak (bare .s)) (fun t => t.scause == 3#64 && t.sepc == 0x1000#64) = true := by decide

/-- G3 and G4. -/
theorem test_sret_to_user : nextIs (exec .sret { withStatus (bare .s) 0x20#64 with sepc := 0x10000#64 })
    (fun t => t.priv == .u && t.readCsr .sstatus &&& 0xFFFFFFFF#64 == 0x22#64 && t.pc == 0x10000#64) = true := by decide

theorem test_sret_to_supervisor : nextIs (exec .sret { withStatus (bare .s) 0x100#64 with sepc := 0x3000#64 })
    (fun t => t.priv == .s && t.readCsr .sstatus &&& 0xFFFFFFFF#64 == 0x20#64 && t.pc == 0x3000#64) = true := by decide

/-- G7 and R123. -/
theorem test_mret : nextIs (exec .mret (bare .s)) (fun t => t.scause == 2#64) = true ∧
    refusedAs (exec .mret (bare .m)) .mretInMMode = true := by decide

/-- G8. -/
theorem test_wfi : nextIs (exec .wfi (bare .s)) (fun t => t == { bare .s with pc := 0x1004#64 }) = true := by decide

/-- G10 and G11. -/
theorem test_sfence : nextIs (exec (.sfenceVma 10#5 11#5) (bare .s)) (fun t => t == { bare .s with pc := 0x1004#64 }) = true ∧
    nextIs (exec (.sfenceVma 0#5 0#5) (bare .u)) (fun t => t.scause == 2#64) = true := by decide

/-- E8: a vectored interrupt whose sum wraps, SXLEN = 32. -/
theorem test_vector_wraps : nextIs (takeTrap (.irq .sei) 0#64 { narrow (bare .s) with stvec := 0xFFFFFFF1#64 })
    (fun t => t.pc == 0x14#64) = true := by decide

/-- P4, step 1: `sepc` from a narrower U-mode is sign-extended (R174). -/
theorem test_sepc_from_narrow : nextIs (exec .ecall { bare .u with pc := 0xFFFFFFFF80000000#64 })
    (fun t => t.sepc == 0xFFFFFFFF80000000#64) = true := by decide

/-! ## Translation -/

/-- M1 and M2: an execute-only page, MXR clear and set. -/
theorem test_mxr :
    nextIs (exec (.lw 10#5 11#5 0#12) ((withStatus (paged .s) 2#64).writeReg 11#5 0x500000#64))
      (fun t => t.scause == 13#64 && t.stval == 0x500000#64) = true ∧
    (withStatus (paged .s) 0x80002#64).access .load 0x500000#64 4 = .ok 0x80500000 := by decide

/-- M4, M5 and M6: a user page, SUM clear and set. -/
theorem test_sum :
    (paged .s).access .load 0x400000#64 4 = .raise .loadPageFault 0x400000#64 ∧
    (paged .s).access .store 0x400000#64 4 = .raise .storePageFault 0x400000#64 ∧
    (withStatus (paged .s) 0x40002#64).access .load 0x400000#64 4 = .ok 0x80400000 := by decide

/-- M9 and M11: a fetch from a user page by S-mode, and the user's own access. -/
theorem test_user_page :
    (withStatus (paged .s) 0x40002#64).access .fetch 0x600000#64 4 = .raise .instrPageFault 0x600000#64 ∧
    (paged .u).access .load 0x400000#64 4 = .ok 0x80400000 := by decide

/-- B1 and B3: a user address is reduced (UXLEN = 32). -/
theorem test_address_reduction :
    (bare .u).access .load 0xFFFFFFFF80000000#64 4 = .ok 0x80000000 ∧
    effAddrNat ((bare .u).writeReg 11#5 0xFFFFFFFFFFFFFFFC#64) 11#5 8#12 = 4 := by decide

/-! ## Witnesses: states and operands that meet the hypotheses of the obligations -/

/-- The sample state can take these traps: the premise `CanTrap` of EcallTraps, EbreakTraps, SretReturns, MretTrapsOrIsRefused,
WfiCompletes, SfenceVmaCompletes, TrapEntry, UnmatchedWords, CsrChecks and of the statements on page faults. -/
theorem witness_canTrap : (bare .u).CanTrap (.exc .illegal) ∧ (bare .s).CanTrap (.exc .breakpoint) ∧
    (bare .u).CanTrap (.exc .ecallFromU) ∧ (bare .s).CanTrap (.exc .ecallFromS) ∧ (paged .s).CanTrap (.exc .loadPageFault) ∧
    (paged .s).CanTrap (.exc .storePageFault) ∧ (paged .s).CanTrap (.exc .instrPageFault) ∧ (bare .s).CanTrap (.irq .sti) := by
  simp only [State.CanTrap]; decide

theorem witness_DecodeOfEncode : (Instr.bne 31#5 1#5 0x1FFE#13).wellFormed = true := by decide

theorem witness_EncodeOfDecode : decodeWord 0xFE0FFE63#32 = .error .baseISA ∧ decodeWord 0xFE0F9EE3#32 = .ok (.bne 31#5 0#5 (-4#13)) := by
  decide

theorem witness_DecoderFollowsOpcodeTable :
    (∃ r ∈ opcodeTable, r.selects 0x12B50073#32 = true) ∧ decodeWord 0x12B50073#32 = .ok (.sfenceVma 10#5 11#5) := by decide

/-- Words of each clause: URET, SYSTEM with funct3 = 100, bits 1:0 not 11, all ones; and JAL. -/
theorem witness_UnmatchedWords :
    (∀ r ∈ opcodeTable, r.selects 0x00200073#32 = false) ∧ (0x00200073#32).toNat % 128 = 0x73 ∧
    (∀ r ∈ opcodeTable, r.selects 0x00004073#32 = false) ∧ (0x00004073#32).toNat % 128 = 0x73 ∧
    (∀ r ∈ opcodeTable, r.selects 0#32 = false) ∧ (0#32).toNat % 4 ≠ 3 ∧
    (∀ r ∈ opcodeTable, r.selects 0xFFFFFFFF#32 = false) ∧ (0xFFFFFFFF#32).toNat = 2 ^ 32 - 1 ∧
    (∀ r ∈ opcodeTable, r.selects 0x0000006F#32 = false) ∧ (0x0000006F#32).toNat % 128 ≠ 0x73 ∧ (0x0000006F#32).toNat % 4 = 3 := by
  decide

theorem witness_StepRunsDecodedInstruction :
    (paged .s).stvec.toNat % 4 < 2 ∧ (paged .s).oracleMove.irqTaken = none ∧
    (paged .s).oracleMove.access .fetch (paged .s).oracleMove.pcLow 4 = .ok 0x10000 ∧
    decode [(paged .s).oracleMove.byteAt ((paged .s).oracleMove.phys 0x10000 0), (paged .s).oracleMove.byteAt ((paged .s).oracleMove.phys 0x10000 1),
      (paged .s).oracleMove.byteAt ((paged .s).oracleMove.phys 0x10000 2), (paged .s).oracleMove.byteAt ((paged .s).oracleMove.phys 0x10000 3)] =
      .ok (.lw 10#5 11#5 0#12, []) := by
  decide

theorem witness_PlacedWordRuns :
    (bare .s).stvec.toNat % 4 < 2 ∧ (bare .s).oracleMove.irqTaken = none ∧ (bare .s).vmActive = false ∧ 2 ≤ (bare .s).cfg.palen ∧
    seen (bare .s).xlen (bare .s).pc % 4 = 0 ∧
    (bare .s).physAccessOK .fetch (seen (bare .s).xlen (bare .s).pc % 2 ^ (bare .s).cfg.palen) 4 = true ∧
    decodeWord 0x10500073#32 = .ok .wfi := by
  decide

/-- A state for each clause: a misaligned pc, a pc with no page, a pc in a user page, a pc in a page whose physical address is in no
region, and without translation a pc in no region. -/
theorem witness_FailedFetchTraps :
    seen .x64 { bare .s with pc := 0x1002#64 }.oracleMove.pc % 4 ≠ 0 ∧ { bare .s with pc := 0x1002#64 }.oracleMove.irqTaken = none ∧
    { paged .s with pc := 0x700000#64 }.oracleMove.pageLookup 0x700000 = none ∧ { paged .s with pc := 0x700000#64 }.vmActive = true ∧
    { paged .s with pc := 0x600000#64 }.oracleMove.pageLookup 0x600000 = some ⟨0x80600000, false, false, true, true⟩ ∧
    { paged .s with cfg := { sampleCfg with regions := [] } }.oracleMove.pageLookup 0x10000 = some ⟨0x10000, true, false, true, false⟩ ∧
    { paged .s with cfg := { sampleCfg with regions := [] } }.oracleMove.physAccessOK .fetch 0x10000 4 = false ∧
    { bare .s with cfg := { sampleCfg with regions := [] } }.oracleMove.physAccessOK .fetch 0x1000 4 = false ∧
    { bare .s with cfg := { sampleCfg with regions := [] } }.vmActive = false ∧
    (bare .s).trapTarget (.exc .instrMisaligned) = .toS ∧
    { bare .s with cfg := { sampleCfg with regions := [] } }.trapTarget (.exc .instrAccessFault) = .toS := by
  decide

theorem witness_FailedFetchTraps_marks : ¬ PagePermits .fetch .s true true ⟨0x80600000, false, false, true, true⟩ ∧
    PagePermits .fetch .s false false ⟨0x10000, true, false, true, false⟩ := by
  simp [PagePermits]

/-- The highest and the lowest interrupt of the order, the first from S-mode with SIE = 1, the last from U-mode; and one that is not
delegated. -/
theorem witness_ReadyInterruptIsTaken :
    let a := { bare .s with sie := 0x222#64, sip := 0x222#64 }
    let b := { bare .u with cfg := { sampleCfg with userInts := true, intToS := 0x333#64 }, sie := 0x333#64, sip := 0x010#64 }
    let c := { bare .u with cfg := { sampleCfg with intToS := 0x200#64 }, sie := 0x222#64, sip := 0x220#64 }
    ([9, 1, 5, 8, 0, 4] = [] ++ 9 :: [1, 5, 8, 0, 4] ∧ a.oracleMove.priv = .s ∧ a.oracleMove.sstatus.sie = true ∧
      a.oracleMove.sip.getLsbD 9 = true ∧ a.oracleMove.sie.getLsbD 9 = true ∧
      ∀ j ∈ [9, 1, 5, 8, 0, 4], a.oracleMove.sip.getLsbD j = true → a.cfg.intToS.getLsbD j = true) ∧
    ([9, 1, 5, 8, 0, 4] = [9, 1, 5, 8, 0] ++ 4 :: [] ∧ b.oracleMove.priv = .u ∧
      b.oracleMove.sip.getLsbD 4 = true ∧ b.oracleMove.sie.getLsbD 4 = true ∧ b.cfg.intToS.getLsbD 4 = true ∧
      (∀ j ∈ [9, 1, 5, 8, 0], b.oracleMove.sip.getLsbD j = false)) ∧
    (c.oracleMove.priv = .u ∧ c.oracleMove.sip.getLsbD 5 = true ∧ c.oracleMove.sie.getLsbD 5 = true ∧
      c.oracleMove.cfg.intToS.getLsbD 5 = false) := by
  decide

theorem witness_NoInterruptUnlessReady :
    (bare .m).priv = .m ∧ { bare .s with sip := 0x222#64, sie := 0x222#64, sstatus := State.reset.sstatus }.sstatus.sie = false ∧
    { bare .u with sip := 0x200#64, sie := 0x022#64 }.sip &&& 0x022#64 = 0#64 := by
  decide

/-- A move that names SSIP twice and STIP once, with a further move left; SEIP is not named. -/
theorem witness_OracleMovesPendingBitsOnly :
    let move : OracleMove := [(.ssi, false), (.ssi, true), (.sti, true)]
    { bare .s with oracle := [move, []] }.oracle = move :: [[]] ∧ move = [(.ssi, false)] ++ (.ssi, true) :: [(.sti, true)] ∧
    (∀ c ∈ [(Irq.sti, true)], c.1 ≠ .ssi) ∧ (∀ c ∈ move, c.1 ≠ .sei) ∧ (bare .s).oracle = [] ∧
    ¬ (3 = 1 ∨ 3 = 5 ∨ 3 = 9 ∨ ((bare .s).cfg.userInts = true ∧ (3 = 0 ∨ 3 = 4 ∨ 3 = 8))) := by
  decide

/-- Addresses of each clause of the pipeline. -/
theorem witness_AccessChecksInOrder :
    seen .x64 0x400001#64 % 4 ≠ 0 ∧ (paged .s).cfg.misaligned = .trap ∧
    { sampleCfg with misaligned := .split }.misaligned = .split ∧ (paged .s).vmActive = true ∧ (paged .s).pageLookup 0x401000 = none ∧
    (paged .s).pageLookup 0x400FFC = some ⟨0x80400FFC, true, true, false, true⟩ ∧ (bare .s).vmActive = false := by
  decide

theorem witness_AccessChecksInOrder_marks :
    ¬ PagePermits .load .s false false ⟨0x80400FFC, true, true, false, true⟩ ∧
    PagePermits .load .s true false ⟨0x80400FFC, true, true, false, true⟩ := by
  simp [PagePermits]

theorem witness_LwResult : ((bare .s).writeReg 11#5 0x2000#64).access .load
    (BitVec.ofNat 64 (effAddrNat ((bare .s).writeReg 11#5 0x2000#64) 11#5 0#12)) 4 = .ok 0x2000 := by decide

theorem witness_SwResult : 2 ≤ (bare .s).cfg.palen ∧ ((bare .s).writeReg 13#5 0x2000#64).access .store
    (BitVec.ofNat 64 (effAddrNat ((bare .s).writeReg 13#5 0x2000#64) 13#5 4#12)) 4 = .ok 0x2004 := by decide

theorem witness_LwSwFaultsTrap :
    (bare .s).access .load (BitVec.ofNat 64 (effAddrNat (bare .s) 0#5 2#12)) 4 = .raise .loadMisaligned 2#64 ∧
    (bare .s).access .store (BitVec.ofNat 64 (effAddrNat (bare .s) 0#5 2#12)) 4 = .raise .storeMisaligned 2#64 ∧
    { bare .s with cfg := { sampleCfg with misaligned := .split } }.access .load 2#64 4 = .refuse .misalignedSplit ∧
    { bare .s with cfg := { sampleCfg with misaligned := .split } }.access .store 2#64 4 = .refuse .misalignedSplit ∧
    (bare .s).trapTarget (.exc .loadMisaligned) = .toS ∧ (bare .s).trapTarget (.exc .storeMisaligned) = .toS := by
  decide

/-- States for the clauses with codes: misaligned, no page, and no region without and with translation. -/
theorem witness_LwSwFaultsTrap_codes :
    let p := (paged .s).writeReg 11#5 0x700000#64
    let r := { bare .s with cfg := { sampleCfg with regions := [] } }
    let q := { withStatus (paged .s) 0x40002#64 with cfg := { sampleCfg with regions := [] } }.writeReg 11#5 0x400000#64
    (effAddrNat (bare .s) 0#5 2#12 % 4 ≠ 0 ∧ (bare .s).cfg.misaligned = .trap) ∧
    (effAddrNat p 11#5 0#12 % 4 = 0 ∧ p.vmActive = true ∧ p.pageLookup (effAddrNat p 11#5 0#12) = none) ∧
    (effAddrNat r 0#5 4#12 % 4 = 0 ∧ r.vmActive = false ∧ r.physAccessOK .load (4 % 2 ^ r.cfg.palen) 4 = false ∧
      r.physAccessOK .store (4 % 2 ^ r.cfg.palen) 4 = false ∧ r.trapTarget (.exc .loadAccessFault) = .toS ∧
      r.trapTarget (.exc .storeAccessFault) = .toS) ∧
    (effAddrNat q 11#5 0#12 = 0x400000 ∧ q.vmActive = true ∧ q.pageLookup 0x400000 = some ⟨0x80400000, true, true, false, true⟩ ∧
      q.sstatus.sum = true ∧ q.physAccessOK .load (0x80400000 % 2 ^ q.cfg.palen) 4 = false) := by
  decide

theorem witness_LwSwFaultsTrap_marks :
    PagePermits .load .s true false ⟨0x80400000, true, true, false, true⟩ ∧
    PagePermits .store .s true false ⟨0x80400000, true, true, false, true⟩ := by
  simp [PagePermits]

theorem witness_LoadSeesStore :
    (bare .s).access .store (BitVec.ofNat 64 (effAddrNat (bare .s) 0#5 0x100#12)) 4 = .ok 0x100 ∧
    nextIs (exec (.sw 5#5 0#5 0x100#12) (bare .s)) (fun t =>
      decide (t.access .load (BitVec.ofNat 64 (effAddrNat t 0#5 0x100#12)) 4 = .ok 0x100)) = true := by
  decide

/-- Equal by the low 32 bits; unequal with an aligned target; unequal with a misaligned one. -/
theorem witness_BneResult :
    seen .x32 0x0000000500000000#64 = seen .x32 0#64 ∧ seen .x64 0x0000000500000000#64 ≠ seen .x64 0#64 ∧
    plusImm .x64 0x1000 (-4#13).toInt % 4 = 0 ∧ plusImm .x64 0x1000 (2#13).toInt % 4 ≠ 0 ∧
    (bare .s).trapTarget (.exc .instrMisaligned) = .toS := by
  decide

theorem witness_CsrInstructionsComplete :
    csrParts (.csrrs 10#5 0x180#12 0#5) = some (10#5, csrAddress .satp, false) ∧
    csrParts (.csrrci 0#5 0x100#12 31#5) = some (0#5, csrAddress .sstatus, true) ∧
    csrParts (.csrrw 1#5 0x144#12 0#5) = some (1#5, csrAddress .sip, true) ∧
    ((bare .s).priv = .s ∧ (bare .m).priv = .m ∧ (bare .m).wlen = (bare .m).sxlen) := by
  decide

/-- Each clause: no such register; too low a mode; a write to a read-only register; a listed register; M-mode, WLEN ≠ SXLEN. -/
theorem witness_CsrChecks :
    (csrParts (.csrrs 10#5 0x1FF#12 0#5) = some (10#5, 0x1FF#12, false) ∧ csrHeld 0x1FF#12 = none ∧ csrListed 0x1FF#12 = false) ∧
    (csrParts (.csrrs 10#5 0x300#12 0#5) = some (10#5, 0x300#12, false) ∧ (0x300#12).toNat / 256 % 4 > privCode .s) ∧
    (csrParts (.csrrw 0#5 0xC1F#12 1#5) = some (0#5, 0xC1F#12, true) ∧ (0xC1F#12).toNat / 1024 = 3) ∧
    (csrHeld 0xC1F#12 = none ∧ csrListed 0xC1F#12 = true ∧ (0xC1F#12).toNat / 256 % 4 ≤ privCode .u) ∧
    (csrListed 0xC20#12 = false ∧ csrListed 0x106#12 = true ∧ csrListed 0x107#12 = false) ∧
    ((mixed (bare .m)).priv = .m ∧ (mixed (bare .m)).wlen ≠ (mixed (bare .m)).sxlen) := by
  decide

theorem witness_CsrAddresses : csrHeld 0x100#12 = some .sstatus ∧ csrHeld 0x180#12 = some .satp ∧ csrHeld 0x101#12 = none ∧
    csrHeld 0x106#12 = none := by decide

theorem witness_SstatusWrite :
    resetConfig.hasFpu = false ∧ { resetConfig with hasFpu := true, userInts := true }.userInts = true ∧
    State.reset.sxlen = .x64 ∧ resetConfig.uxlWritable = true ∧ (0x200000000#64).toNat / 2 ^ 32 % 4 = 2 ∧
    (0x100000000#64).toNat / 2 ^ 32 % 4 = 1 ∧ sampleCfg.uxlWritable = false := by
  decide

theorem witness_StvecWrite :
    (0x2001#64).toNat < 2 ^ (bare .s).sxlen.bits ∧
    modeSupported (bare .s).cfg.stvecModes (BitVec.ofNat 2 ((0x2001#64).toNat % 4)) = true ∧
    (0x2001#64).toNat % 4 = 1 ∧ (0x2001#64).toNat / 4 * 4 % (4 * 2 ^ (bare .s).cfg.stvecAlignExp) = 0 ∧
    stvecHolds (bare .s).cfg 0x2001#64 = true ∧ (bare .u).cfg = (bare .s).cfg ∧ (bare .u).stvec = (bare .s).stvec := by
  decide

theorem witness_OtherCsrWrites :
    (0xFFFFFFFFFFFFFFFF#64).toNat < 2 ^ (bare .s).sxlen.bits ∧ (0xFFFFFFFF#64).toNat < 2 ^ (narrow (bare .s)).sxlen.bits ∧
    (narrow (bare .s)).sxlen = .x32 ∧ (0x9000000000000000#64).toNat / 2 ^ 60 = 9 ∧ (15#64).toNat = 15 ∧
    (0x8000000000000009#64).toNat = 2 ^ ((bare .s).sxlen.bits - 1) + 9 ∧ { sampleCfg with userInts := true }.userInts = true ∧
    (0x80000008#64).toNat = 2 ^ ((narrow (bare .s)).sxlen.bits - 1) + 8 := by
  decide

/-- The premises on the mode of EcallTraps, SretReturns, MretTrapsOrIsRefused, WfiCompletes, SfenceVmaCompletes and
TrapTargets. -/
theorem witness_modes : (bare .u).priv = .u ∧ (bare .s).priv = .s ∧ (bare .m).priv = .m ∧
    (bare .m).trapTarget (.exc .ecallFromM) = .toM ∧ (bare .s).trapTarget (.exc .ecallFromS) = .toS := by decide

theorem witness_SretUndoesTrap : nextIs (takeTrap (.exc .ecallFromU) 0#64 (bare .u)) (fun _ => true) = true := by decide

/-- A handler in the sample user page, translation on. -/
theorem witness_UserPageHandlerLoops :
    let s := { withStatus (paged .s) 0xC0000#64 with stvec := 0x600000#64, pc := 0x600000#64 }
    s.priv = .s ∧ s.sstatus.sie = false ∧ s.vmActive = true ∧ s.stvec.toNat % 4 < 2 ∧
    s.trapTarget (.exc .instrPageFault) = .toS ∧ s.stvec.toNat < 2 ^ s.sxlen.bits ∧
    seen s.sxlen s.pc = s.stvec.toNat / 4 * 4 ∧
    s.pageLookup (s.stvec.toNat / 4 * 4) = some ⟨0x80600000, false, false, true, true⟩ := by
  decide

theorem witness_SumClearFaultsUserPages :
    let s := (paged .s).writeReg 11#5 0x400FFC#64
    s.priv = .s ∧ s.vmActive = true ∧ s.sstatus.sum = false ∧ effAddrNat s 11#5 0#12 = 0x400FFC ∧
    s.pageLookup (effAddrNat s 11#5 0#12) = some ⟨0x80400FFC, true, true, false, true⟩ ∧ effAddrNat s 11#5 0#12 % 4 = 0 := by
  decide

theorem witness_SumSetPermitsUserPages :
    let s := (withStatus (paged .s) 0xC0002#64).writeReg 11#5 0x400000#64
    s.priv = .s ∧ s.vmActive = true ∧ s.sstatus.sum = true ∧ s.sstatus.mxr = true ∧
    s.pageLookup (effAddrNat s 11#5 0#12) = some ⟨0x80400000, true, true, false, true⟩ ∧ effAddrNat s 11#5 0#12 % 4 = 0 ∧
    s.pageLookup 0x600000 = some ⟨0x80600000, false, false, true, true⟩ ∧
    s.physAccessOK .load (0x80400000 % 2 ^ s.cfg.palen) 4 = true ∧ s.physAccessOK .store (0x80400000 % 2 ^ s.cfg.palen) 4 = true := by
  decide

/-- MXR = 0 on an execute-only page. -/
theorem witness_UnreadablePagesFault :
    let s := (paged .s).writeReg 11#5 0x500000#64
    s.priv ≠ .m ∧ s.vmActive = true ∧ s.pageLookup (effAddrNat s 11#5 0#12) = some ⟨0x80500000, false, false, true, false⟩ ∧
    s.sstatus.mxr = false ∧ effAddrNat s 11#5 0#12 % 4 = 0 := by
  decide

theorem witness_SupervisorNeverExecutesUserPages :
    let s := { withStatus (paged .s) 0x40000#64 with pc := 0x600000#64 }
    s.stvec.toNat % 4 < 2 ∧ s.oracleMove.irqTaken = none ∧ s.oracleMove.priv = .s ∧ s.oracleMove.vmActive = true ∧
    s.oracleMove.pageLookup (seen s.oracleMove.xlen s.oracleMove.pc) = some ⟨0x80600000, false, false, true, true⟩ ∧
    seen s.oracleMove.xlen s.oracleMove.pc % 4 = 0 ∧ s.oracleMove.trapTarget (.exc .instrPageFault) = .toS := by
  decide

theorem witness_UserAddressesAreReduced :
    (bare .u).priv = .u ∧ (bare .u).sxlen = .x64 ∧ (bare .u).sstatus.uxl = .x32 ∧ (bare .u).vmActive = false ∧
    (bare .u).access .store 0x1FFFFFFFC#64 4 = .ok 0xFFFFFFFC := by
  decide

/-- Two states that differ above bit 31 of one register. -/
theorem witness_UpperRegisterBitsAreIgnored : AgreeBelow (bare .u).xlen (bare .u) ((bare .u).writeReg 5#5 0xFFFFFFFF00000000#64) := by
  refine ⟨rfl, ?_⟩
  decide

theorem witness_ResultsFillTheRegister :
    nextIs (exec (.lui 5#5 1#20) (bare .u)) (fun t => t.readReg 5#5 != (bare .u).readReg 5#5) = true := by decide

/-- A state that meets the invariant and steps. -/
theorem witness_StepKeepsInvariant : ((State.reset.withFetchWord 32 0x000402B7)).Inv ∧
    nextIs (step (State.reset.withFetchWord 32 0x000402B7)) (fun _ => true) = true := by
  refine ⟨⟨?_, ?_, ?_, ?_, ?_, ?_, ?_, ?_, ?_, ?_, ?_, ?_⟩, ?_⟩ <;> decide

theorem witness_StepKeepsConfig : nextIs (step ((bare .u).withFetchWord 32 0x10029073)) (fun t => t.cfg == sampleCfg) = true := by decide

theorem witness_MxrSumNeedTranslation : (bare .s).vmActive = false ∧ (bare .u).priv = .u ∧ AccessKind.store ≠ .load := by decide

/-- The mode changes by ECALL from U-mode and by SRET. -/
theorem witness_ModeChangesOnlyByTrapOrReturn :
    nextIs (step ((bare .u).withFetchWord 32 0x00000073)) (fun t => t.priv == .s) = true ∧
    nextIs (step ((bare .s).withFetchWord 32 0x10200073)) (fun t => t.priv == .u) = true := by
  decide

theorem witness_UserModeKeepsSupervisorState : (bare .u).priv = .u ∧
    nextIs (exec (.addi 5#5 0#5 1#12) (bare .u)) (fun t => t.priv == .u) = true ∧
    nextIs (exec .ecall (bare .u)) (fun t => t.priv == .s) = true := by
  decide

theorem witness_OnlyCsrWritesChangeControl :
    nextIs (exec (.csrrw 0#5 0x105#12 0#5) (bare .s)) (fun _ => true) = true ∧
    csrParts (.csrrw 0#5 0x105#12 0#5) = some (0#5, 0x105#12, true) ∧ csrParts (.csrrs 0#5 0x100#12 0#5) = some (0#5, 0x100#12, false) ∧
    nextIs (step { bare .s with sie := 0x20#64, sip := 0x20#64 }) (fun t => t.scause == 0x8000000000000005#64) = true := by
  decide

theorem witness_OnlySwWritesMemory : nextIs (exec (.lw 5#5 0#5 0#12) ((bare .u).writeReg 1#5 1#64)) (fun _ => true) = true ∧
    (∀ rs2 rs1 : RegIdx, ∀ imm : BitVec 12, Instr.lw 5#5 0#5 0#12 ≠ .sw rs2 rs1 imm) := by
  exact ⟨by decide, fun _ _ _ h => by cases h⟩

/-- A state that meets the invariant, and steps refused for some of the reasons: an undelegated cause, a listed register, MRET in M-mode,
a word of BaseISA. -/
theorem witness_StopsOnlyWhereTheSpecRefuses : (bare .s).Inv ∧
    refusedAs (step ({ bare .s with cfg := resetConfig }.withFetchWord 32 0x00000073)) .trapToMMode = true ∧
    refusedAs (step ((bare .s).withFetchWord 32 0x10602573)) (.csrNotSpecified 0x106#12) = true ∧
    refusedAs (step ((bare .m).withFetchWord 32 0x30200073)) .mretInMMode = true ∧
    refusedAs (step ((bare .s).withFetchWord 32 0x40B50533)) (.baseISA 0x40B50533#32) = true := by
  refine ⟨⟨?_, ?_, ?_, ?_, ?_, ?_, ?_, ?_, ?_, ?_, ?_, ?_⟩, ?_⟩ <;> decide

theorem witness_TrapAndReturnExtendThePc :
    nextIs (takeTrap (.exc .ecallFromU) 0#64 (mixed (bare .u))) (fun _ => true) = true ∧
    nextIs (exec .sret (mixed (bare .s))) (fun _ => true) = true ∧
    nextIs (step ((bare .u).withFetchWord 32 0x00000073)) (fun t => t.priv == .s) = true := by
  decide

theorem witness_XlenOfEachMode :
    ((bare .u).priv = .u ∧ (bare .u).sxlen = .x64 ∧ (bare .u).sstatus.uxl = .x32) ∧
    (withStatus State.reset 0x200000000#64).sstatus.uxl = .x64 ∧ (mixed (bare .u)).sxlen = .x32 ∧
    (narrow (bare .u)).cfg.widths = .w32s32 ∧ (mixed (bare .u)).cfg.widths = .w64s32 ∧ (bare .u).cfg.widths = .w64s64 := by decide

/-- Bare and not, at both widths. -/
theorem witness_TranslationInEffect :
    ((bare .s).sxlen = .x64 ∧ (bare .s).vmActive = false ∧ (paged .s).vmActive = true ∧ (paged .m).vmActive = false) ∧
    ((narrow (bare .s)).sxlen = .x32 ∧ (narrow { bare .u with satp := 0x80000000#64 }).vmActive = true ∧
      (narrow { bare .u with satp := 0x7FFFFFFF#64 }).vmActive = false) := by decide

/-- The first, a middle and no entry of the sample pages, at the ends of their ranges. -/
theorem witness_ParametersAsData :
    (bare .s).cfg.pages = .table ([] ++ ⟨0x10000, 0x10FFF, 0x10000, true, false, true, false⟩ :: samplePages.tail) ∧
    (∀ d ∈ samplePages.take 2, ¬ (d.lo ≤ 0x400FFF ∧ 0x400FFF ≤ d.hi)) ∧
    (∀ d ∈ samplePages, ¬ (d.lo ≤ 0x401000 ∧ 0x401000 ≤ d.hi)) := by decide

end Sys2Proof.Tests
end

section
/-! SUPPORT. The invariant `State.Inv`, kept by every operation of the machine and so by every step. -/

namespace Sys2Proof.Proofs

open Sys2Proof.Machine Sys2Proof.Laws

/-! ## Alignment -/

/-- What is seen of a word keeps its two low bits. -/
theorem seen_mod_four (x : Xlen) (v : Word) : seen x v % 4 = v.toNat % 4 := by
  cases x <;> simp only [seen, Xlen.bits] <;> omega

/-- Filling a number keeps its two low bits. -/
theorem filled_mod_four (w x : Xlen) (n : Nat) : filled w x n % 4 = n % 4 := by
  unfold filled
  split
  · cases x <;> simp only [Xlen.bits] <;> omega
  · cases w <;> cases x <;> simp only [Xlen.bits] <;> omega

/-- An aligned address stays aligned when it is extended to a wider register. -/
theorem low_fill_aligned {w x : Xlen} (hx : w = .x32 → x = .x32) {v : Word} (hv : v.toNat % 4 = 0) :
    (low w (fill x v)).toNat % 4 = 0 := by
  rw [low_fill_toNat hx, filled_mod_four, hv]

/-- A handler address is aligned (R172). -/
theorem handlerNat_aligned (s : State) (code : Nat) (isIrq : Bool) : handlerNat s code isIrq % 4 = 0 := by
  unfold handlerNat
  cases s.sxlen <;> simp only [Xlen.bits] <;> split <;> omega

theorem aligned_of_handler {s : State} {x : Xlen} {v : Word} {code : Nat} {isIrq : Bool} (h : seen x v = handlerNat s code isIrq) :
    v.toNat % 4 = 0 := by
  rw [← seen_mod_four x, h, handlerNat_aligned]

/-- A cause fits in `scause` (R170). -/
theorem causeWord_lt (x : Xlen) (c : Cause) : (causeWord x c).toNat < 2 ^ x.bits := by
  have hc : causeCode c < 16 := by cases c with | exc e => cases e <;> decide | irq k => cases k <;> decide
  rw [causeWord_toNat]
  cases x <;> simp only [Xlen.bits] <;> split <;> omega

/-- Clearing the two low bits keeps a value within its width. -/
theorem sepcLegal_lt {v : Word} {n : Nat} (h : v.toNat < n) : (sepcLegal v).toNat < n := by
  rw [sepcLegal_toNat]; omega

theorem sepcLegal_aligned (v : Word) : (sepcLegal v).toNat % 4 = 0 := by
  rw [sepcLegal_toNat]; omega

/-! ## Bits outside a mask -/

/-- A word has no bit outside a mask exactly when each bit that is 0 in the mask is 0 in the word. -/
theorem and_not_eq_zero_iff {w m : Word} : w &&& ~~~m = 0#64 ↔ ∀ n, m.getLsbD n = false → w.getLsbD n = false := by
  constructor
  · intro h n hn
    by_cases hlt : n < 64
    · have hb := congrArg (·.getLsbD n) h
      simpa only [BitVec.getLsbD_and, BitVec.getLsbD_not, hn, hlt, decide_true, Bool.not_false, Bool.and_true,
        BitVec.getLsbD_zero] using hb
    · exact BitVec.getLsbD_of_ge _ _ (by omega)
  · intro h
    apply BitVec.eq_of_getLsbD_eq
    intro n hlt
    cases hn : m.getLsbD n with
    | false => simp [h n hn]
    | true => simp [hn]

/-- A write to `sie` sets no bit that does not exist (R35). -/
theorem sieWrite_masked (cfg : Config) (w : Word) : sieWrite cfg w &&& ~~~irqMask cfg = 0#64 :=
  and_not_eq_zero_iff.2 fun n hn => by simp [sieWrite, hn]

/-- A write to `sip` bit by bit: the user-level bits, where they exist, are free, and of the others bit 1 is written. -/
theorem sipWrite_getLsbD (cfg : Config) (old w : Word) (n : Nat) : (sipWrite cfg old w).getLsbD n =
    if cfg.userInts = true ∧ (n = 0 ∨ n = 4 ∨ n = 8) then (Config.sipUserChoice old w).getLsbD n
    else if n = 1 then w.getLsbD 1 else old.getLsbD n := by
  have hmask : n < 64 → ((0x111#64).getLsbD n = decide (n = 0 ∨ n = 4 ∨ n = 8)) := by
    intro hn; interval_cases n <;> decide
  unfold sipWrite
  cases cfg.userInts with
  | false => simp [setBit_getLsbD]
  | true =>
    by_cases hn : n < 64
    · simp only [if_true, BitVec.getLsbD_or, BitVec.getLsbD_and, BitVec.getLsbD_not, hmask hn, hn, true_and,
        setBit_getLsbD old _ n (by decide : 1 < 64)]
      by_cases hu : n = 0 ∨ n = 4 ∨ n = 8 <;> simp [hu]
    · have h1 : n ≠ 1 := by omega
      simp [BitVec.getLsbD_of_ge _ n (by omega : 64 ≤ n), h1]

/-- A write to `sip` sets no bit that does not exist (R35). -/
theorem sipWrite_masked {cfg : Config} {old : Word} (h : old &&& ~~~irqMask cfg = 0#64) (w : Word) :
    sipWrite cfg old w &&& ~~~irqMask cfg = 0#64 := by
  refine and_not_eq_zero_iff.2 fun n hn => ?_
  have hx := mt (irqMask_iff cfg n).2 (by simp [hn])
  rw [sipWrite_getLsbD, if_neg (by tauto), if_neg (by tauto), and_not_eq_zero_iff.1 h n hn]

/-- The oracle's move sets no bit of `sip` that does not exist (R180). -/
theorem oracleMove_sip_masked {s : State} (h : s.sip &&& ~~~irqMask s.cfg = 0#64) :
    s.oracleMove.sip &&& ~~~irqMask s.cfg = 0#64 := by
  unfold State.oracleMove
  cases s.oracle with
  | nil => exact h
  | cons m rest =>
    exact and_not_eq_zero_iff.2 fun n hn => (setPending_foldl_other _ m hn _).trans (and_not_eq_zero_iff.1 h n hn)

/-! ## Written values fit their register -/

/-- A write to `scause` leaves a value of its width. -/
theorem scauseWrite_lt (cfg : Config) (old w : Word) :
    (scauseWrite cfg old (low (sxlenOf cfg.widths) w)).toNat < 2 ^ (sxlenOf cfg.widths).bits := by
  simp only [scauseWrite]
  split <;> exact low_lt _ _

/-- A write to `satp` leaves a value of its width. -/
theorem satpWrite_lt (cfg : Config) (old w : Word) :
    (satpWrite cfg old (low (sxlenOf cfg.widths) w)).toNat < 2 ^ (sxlenOf cfg.widths).bits := by
  simp only [satpWrite]
  split <;> exact low_lt _ _

/-! ## Each operation keeps the invariant -/

section Operations

variable {s t : State}

theorem inv_writeReg (h : s.Inv) (i : RegIdx) {v : Word} (hv : v.toNat < 2 ^ s.wlen.bits) : (s.writeReg i v).Inv := by
  have hregs : ∀ j, ((s.writeReg i v).readReg j).toNat < 2 ^ s.wlen.bits := by
    intro j
    by_cases hj : j = i
    · subst hj
      by_cases h0 : j = 0#5
      · subst h0; simp
      · rwa [readReg_writeReg_same s v h0]
    · rw [readReg_writeReg_other s v hj]
      exact h.regs_width j
  by_cases hi : i = 0#5
  · rwa [State.writeReg, if_pos hi]
  · rw [State.writeReg, if_neg hi] at hregs ⊢
    exact { h with regs_width := hregs }

theorem inv_wrx (h : s.Inv) (i : RegIdx) (v : Word) : (s.wrx i v).Inv := inv_writeReg h i (low_lt _ _)

theorem inv_jump (h : s.Inv) {v : Word} (hv : v.toNat % 4 = 0) : (s.jump v).Inv :=
  { h with pc_width := low_lt _ _, pc_aligned := low_fill_aligned xlen_le_wlen hv }

theorem inv_advance (h : s.Inv) : s.advance.Inv := by
  refine inv_jump h ?_
  have hpc : s.pcLow.toNat % 4 = 0 := by rw [State.pcLow, low_toNat, seen_mod_four, h.pc_aligned]
  rw [BitVec.toNat_add, BitVec.toNat_ofNat]
  omega

theorem inv_finish (h : s.Inv) (rd : RegIdx) (v : Word) : (s.finish rd v).Inv := inv_advance (inv_wrx h rd v)

theorem inv_writeWord (h : s.Inv) (pa : Nat) (v : BitVec 32) : (s.writeWord pa v).Inv :=
  { h with mem_wf := writeWord_wf pa v h.mem_wf, mem_phys := writeWord_phys pa v h.mem_phys }

theorem inv_draw (h : s.Inv) : s.draw.Inv := { h with mem_wf := h.mem_wf }

theorem inv_oracleMove (h : s.Inv) : s.oracleMove.Inv := by
  have hsip := oracleMove_sip_masked h.irq_bits.2
  rw [oracleMove_kept]
  exact { h with irq_bits := ⟨h.irq_bits.1, hsip⟩ }

theorem inv_enterTrap (h : s.Inv) (c : Cause) (tval : Word) {v : Word} (hv : v.toNat % 4 = 0) : (s.enterTrap c tval v).Inv :=
  { h with
    pc_width := low_lt _ _
    pc_aligned := low_fill_aligned sxlen_le_wlen hv
    sepc_aligned := sepcLegal_aligned _
    csrs_width := by
      obtain ⟨hscratch, -, -, -, hsatp⟩ := h.csrs_width
      exact ⟨hscratch, sepcLegal_lt (low_lt _ _), causeWord_lt _ _, low_lt _ _, hsatp⟩ }

theorem inv_leaveTrap (h : s.Inv) : s.leaveTrap.Inv :=
  { h with pc_width := low_lt _ _, pc_aligned := low_fill_aligned sxlen_le_wlen (sepcLegal_aligned _) }

/-- A write of `sstatus` keeps the hardwired bits, and a write of another register keeps it legal, aligned and within its width. -/
theorem inv_writeCsr (h : s.Inv) (c : Csr) (w : Word) : (s.writeCsr c w).Inv := by
  obtain ⟨hscratch, hepc, hcause, htval, hsatp⟩ := h.csrs_width
  obtain ⟨hie, hip⟩ := h.irq_bits
  cases c with
  | sstatus =>
    exact { h with
      fs_hardwired := fun hf => by simpa [State.writeCsr, Sstatus.write, show s.cfg.hasFpu = false from hf] using h.fs_hardwired hf
      user_hardwired := fun hu => by
        simpa [State.writeCsr, Sstatus.write, show s.cfg.userInts = false from hu] using h.user_hardwired hu }
  | sie => exact { h with irq_bits := ⟨sieWrite_masked _ _, hip⟩ }
  | stvec => exact { h with stvec_legal := stvecLegalize_legal _ _ _ }
  | sscratch => exact { h with csrs_width := ⟨low_lt _ _, hepc, hcause, htval, hsatp⟩ }
  | sepc =>
    exact { h with
      sepc_aligned := sepcLegal_aligned _
      csrs_width := ⟨hscratch, sepcLegal_lt (low_lt _ _), hcause, htval, hsatp⟩ }
  | scause => exact { h with csrs_width := ⟨hscratch, hepc, scauseWrite_lt _ _ _, htval, hsatp⟩ }
  | stval => exact { h with csrs_width := ⟨hscratch, hepc, hcause, low_lt _ _, hsatp⟩ }
  | sip => exact { h with irq_bits := ⟨hie, sipWrite_masked hip _⟩ }
  | satp => exact { h with csrs_width := ⟨hscratch, hepc, hcause, htval, satpWrite_lt _ _ _⟩ }

/-! ## Traps, instructions and steps -/

theorem inv_takeTrap (h : s.Inv) {c : Cause} {tval : Word} (e : takeTrap c tval s = .next t) : t.Inv := by
  obtain ⟨-, v, rfl, hv⟩ := takeTrap_next e
  exact inv_enterTrap h c tval (aligned_of_handler hv)

/-- Every instruction keeps the invariant, by the shape of its next state. -/
theorem inv_exec (h : s.Inv) {i : Instr} (e : exec i s = .next t) : t.Inv := by
  cases exec_shape e with
  | trap x tval raises can ht entry =>
    obtain ⟨v, w, s', rfl, hs', hw⟩ := entry
    refine inv_enterTrap ?_ _ v (aligned_of_handler hw)
    rcases hs' with rfl | rfl | rfl
    · exact h
    · exact inv_draw h
    · exact inv_draw (inv_draw h)
  | finish rd v e => exact e ▸ inv_finish h rd v
  | csr rd c w parts mode e => exact e ▸ inv_finish (inv_writeCsr h c w) rd _
  | store rs2 rs1 imm pa v sw e => exact e ▸ inv_advance (inv_writeWord h pa v)
  | move v e aligned =>
    subst e
    rcases aligned with rfl | hv
    · exact inv_advance h
    · exact inv_jump h (by rwa [low_toNat, seen_mod_four] at hv)
  | wait e => exact e ▸ inv_advance (inv_draw h)
  | ret sret mode e => exact e ▸ inv_leaveTrap h

end Operations

/-- Settles O47: the oracle's move keeps the invariant, and then so does the interrupt, the exception of the fetch, the instruction or
the illegal word. -/
theorem stepKeepsInvariant : Obligations.StepKeepsInvariant := by
  unfold Obligations.StepKeepsInvariant
  intro s t h e
  have hm := inv_oracleMove h
  obtain ⟨-, ⟨k, v, -, -, rfl, hv⟩ | ⟨-, x, tval, -, hx⟩ | ⟨i, -, hi⟩ | ⟨-, w, -, -, hw⟩⟩ := step_cases e
  · exact inv_enterTrap hm _ _ (aligned_of_handler hv)
  · exact inv_takeTrap hm hx
  · exact inv_exec hm hi
  · exact inv_takeTrap (inv_draw hm) hw

/-- Settles O46: every register is zero, no byte is written, and `stvec` holds the legal value 0. -/
theorem resetMeetsInvariant : Obligations.ResetMeetsInvariant where
  mem_wf := reset_mem_wf
  mem_phys := by simp [State.reset]
  regs_width := by decide
  pc_width := by decide
  pc_aligned := rfl
  stvec_legal := by decide
  sepc_aligned := rfl
  csrs_width := by decide
  irq_bits := by decide
  fs_hardwired := fun _ => rfl
  user_hardwired := fun _ => ⟨rfl, rfl⟩
  xs_hardwired := fun _ _ => rfl

/-- Settles O48: the fields of the reset state, whose `stvec` is legal by the invariant. -/
theorem resetState : Obligations.ResetState :=
  ⟨rfl, readReg_zero _, resetMeetsInvariant.stvec_legal, .inl rfl, rfl⟩

end Sys2Proof.Proofs
end

section
/-! SUPPORT. What no step changes, and which steps change the mode. -/

namespace Sys2Proof.Proofs

open Sys2Proof.Machine Sys2Proof.Laws

section Cases

variable {s t : State}

/-- What an instruction that does not trap leaves: the parameters and XS as before, and the mode too, but for SRET, which takes it from
SPP (R122). -/
structure Completed (i : Instr) (s t : State) : Prop where
  cfg : t.cfg = s.cfg
  xs : t.sstatus.xs = s.sstatus.xs
  mode : t.priv = s.priv ∨ (i = .sret ∧ s.priv ≠ .u ∧ t.priv = if s.sstatus.spp then .s else .u)

theorem writeCsr_xs (s : State) (c : Csr) (w : Word) : (s.writeCsr c w).sstatus.xs = s.sstatus.xs := by cases c <;> rfl

/-- An instruction that answers a next state traps, for an exception it raises, or completes. -/
theorem exec_traps_or_completes {i : Instr} (h : exec i s = .next t) :
    (∃ e tval, s.Raises i e ∧ s.CanTrap (.exc e) ∧ Trapped s t (excCode e) false tval) ∨ Completed i s t := by
  cases exec_shape h with
  | trap e tval raises can ht entry => exact .inl ⟨e, tval, raises, can, ht⟩
  | finish rd v e => exact .inr (by subst e; exact ⟨by simp, by simp, .inl (by simp)⟩)
  | csr rd c w parts mode e => exact .inr (by subst e; exact ⟨by simp, by simp [writeCsr_xs], .inl (by simp)⟩)
  | store rs2 rs1 imm pa v sw e => exact .inr (by subst e; exact ⟨rfl, rfl, .inl rfl⟩)
  | move v e aligned => exact .inr (by subst e; exact ⟨rfl, rfl, .inl rfl⟩)
  | wait e => exact .inr (by subst e; exact ⟨rfl, rfl, .inl rfl⟩)
  | ret sret mode e => exact .inr (by subst e; exact ⟨rfl, rfl, .inr ⟨sret, mode, rfl⟩⟩)

/-- A step that answers a next state takes a trap for the cause that occurs after the oracle's move, or runs an instruction that
completes. -/
theorem step_traps_or_completes (h : step s = .next t) :
    (∃ c tval, s.oracleMove.Occurs c ∧ s.oracleMove.CanTrap c ∧ Trapped s.oracleMove t (causeCode c) (causeIsIrq c) tval) ∨
    ∃ i, s.oracleMove.Runs i ∧ Completed i s.oracleMove t := by
  obtain ⟨-, ⟨k, v, hk, hc, rfl, hv⟩ | ⟨hb, e, tval, hf, he⟩ | ⟨i, hr, hi⟩ | ⟨hb, w, hf, hw, hx⟩⟩ := step_cases h
  · rw [← Fields.oracleMove_sxlen] at hv
    exact .inl ⟨.irq k, _, .irq k hk, hc, enterTrap_trapped (trapTarget_toS hc.2) hv⟩
  · obtain ⟨hc, ht, -⟩ := raiseExc_next he
    exact .inl ⟨.exc e, _, .fetch e tval hb hf, hc, ht⟩
  · obtain ⟨e, tval, hraise, hc, ht⟩ | hcomp := exec_traps_or_completes hi
    · exact .inl ⟨.exc e, tval, .instr i e hr hraise, hc, ht⟩
    · exact .inr ⟨i, hr, hcomp⟩
  · obtain ⟨hc, tval, ht⟩ := raiseIllegal_next hx
    exact .inl ⟨.exc .illegal, tval, .word w hb hf hw, hc, ht⟩

end Cases

/-- Settles O49: neither a trap nor an instruction that completes changes the parameters or XS, and `x0` is not held. -/
theorem stepKeepsConfig : Obligations.StepKeepsConfig := by
  unfold Obligations.StepKeepsConfig
  intro s t h
  have hkept : t.cfg = s.oracleMove.cfg ∧ t.sstatus.xs = s.oracleMove.sstatus.xs := by
    obtain ⟨c, tval, -, -, ht⟩ | ⟨i, -, hcomp⟩ := step_traps_or_completes h
    · exact ⟨ht.setup.1, by rw [ht.sstatus]⟩
    · exact ⟨hcomp.cfg, hcomp.xs⟩
  rw [Fields.oracleMove_cfg, Fields.oracleMove_sstatus] at hkept
  exact ⟨hkept.1, hkept.2, readReg_zero t⟩

/-- Settles O50: a trap that can be taken is not from M-mode and one from S-mode keeps the mode; of the instructions that complete only
SRET changes it. -/
theorem modeChangesOnlyByTrapOrReturn : Obligations.ModeChangesOnlyByTrapOrReturn := by
  unfold Obligations.ModeChangesOnlyByTrapOrReturn
  intro s t h hne
  obtain ⟨c, tval, hocc, hcan, ht⟩ | ⟨i, hr, hcomp⟩ := step_traps_or_completes h
  · left
    have hm : s.priv ≠ .m := by simpa using trapTarget_toS hcan.2
    have hu : s.priv = .u := by
      cases hp : s.priv with
      | u => rfl
      | s => exact absurd (ht.priv.trans hp.symm) hne
      | m => exact absurd hp hm
    exact ⟨hu, ht.priv, c, tval, hocc, ht⟩
  · right
    obtain hkept | ⟨rfl, hu, ht⟩ := hcomp.mode
    · exact absurd (hkept.trans (Fields.oracleMove_priv s)) hne
    · rw [Fields.oracleMove_priv] at hu
      rw [Fields.oracleMove_sstatus] at ht
      exact ⟨hr, hu, ht⟩

end Sys2Proof.Proofs
end

section
/-! SUPPORT. Reads and writes of the control registers, and their addresses. -/

namespace Sys2Proof.Proofs

open Sys2Proof.Machine Sys2Proof.Laws

/-- A value that fits a width is its own low bits. -/
theorem low_of_lt {x : Xlen} {w : Word} (h : w.toNat < 2 ^ x.bits) : low x w = w :=
  BitVec.eq_of_toNat_eq (by rw [low_toNat, seen_of_lt h])

/-! ## sstatus -/

/-- Bit `k` of a two-bit field laid at bit `p` of a word. -/
theorem field_getLsbD (f : BitVec 2) {p : Nat} (hp : p + 1 < 64) (k : Nat) :
    (f.setWidth 64 <<< p).getLsbD k = ((decide (k = p + 1) && f.getLsbD 1) || (decide (k = p) && f.getLsbD 0)) := by
  rw [BitVec.getLsbD_shiftLeft, BitVec.getLsbD_setWidth]
  obtain hk | rfl | rfl | hk : k < p ∨ k = p ∨ k = p + 1 ∨ p + 2 ≤ k := by omega
  · simp [hk, show k ≠ p + 1 by omega, show k ≠ p by omega]
  · simp [show k < 64 by omega]
  · simp [hp]
  · simp [BitVec.getLsbD_of_ge f (k - p) (by omega), show k ≠ p + 1 by omega, show k ≠ p by omega]

/-- Bit `k` of the fields that lie at the same place for both widths (R25). -/
theorem common_getLsbD (f : Sstatus) (k : Nat) : f.common.getLsbD k =
    ((k = 19 && f.mxr) || (k = 18 && f.sum) || (k = 16 && f.xs.getLsbD 1) || (k = 15 && f.xs.getLsbD 0) ||
     (k = 14 && f.fs.getLsbD 1) || (k = 13 && f.fs.getLsbD 0) || (k = 8 && f.spp) || (k = 5 && f.spie) ||
     (k = 4 && f.upie) || (k = 1 && f.sie) || (k = 0 && f.uie)) := by
  unfold Sstatus.common
  simp only [BitVec.getLsbD_or, field_getLsbD f.xs (by decide : 15 + 1 < 64), field_getLsbD f.fs (by decide : 13 + 1 < 64)]
  simp [bitAt_getLsbD, Bool.or_assoc]

/-- Bit `k` of UXL (R25). -/
theorem uxl_getLsbD (x : Xlen) (k : Nat) : (uxlCode x <<< 32).getLsbD k = ((k = 32 && x = .x32) || (k = 33 && x = .x64)) := by
  cases x
  · simpa [uxlCode] using field_getLsbD 1#2 (by decide : 32 + 1 < 64) k
  · simpa [uxlCode] using field_getLsbD 2#2 (by decide : 32 + 1 < 64) k

/-- Bit `k` of the fields laid out: SD at the top, and UXL where SXLEN = 64 (R25). -/
theorem layout_getLsbD (x : Xlen) (f : Sstatus) (k : Nat) : (f.layout x).getLsbD k =
    (f.common.getLsbD k || (k = x.bits - 1 && f.sd) || (x = .x64 && k = 32 && f.uxl = .x32) ||
     (x = .x64 && k = 33 && f.uxl = .x64)) := by
  cases x
  · simp only [Sstatus.layout, BitVec.getLsbD_or, bitAt_getLsbD f.sd k (by decide : 31 < 64), reduceCtorEq, decide_false,
      Bool.false_and, Bool.or_false]
    rfl
  · simp only [Sstatus.layout, BitVec.getLsbD_or, bitAt_getLsbD f.sd k (by decide : 63 < 64), uxl_getLsbD, decide_true,
      Bool.true_and]
    rw [Bool.or_right_comm, ← Bool.or_assoc]
    rfl

/-- XS as it is read (D24, I28). -/
theorem wired_xs_eq (cfg : Config) (f : Sstatus) :
    (f.wired cfg).xs = if cfg.hasFpu = false ∧ cfg.userInts = false then 0#2 else f.xs := by
  cases hf : cfg.hasFpu <;> cases hu : cfg.userInts <;> simp [hf, hu]

/-- FS as it is read (D24). -/
theorem wired_fs_eq (cfg : Config) (f : Sstatus) : (f.wired cfg).fs = if cfg.hasFpu = false then 0#2 else f.fs := by
  cases hf : cfg.hasFpu <;> simp [hf]

/-- Settles O25: the bits of the layout, of the fields as they are wired. -/
theorem sstatusRead : Obligations.SstatusRead := by
  unfold Obligations.SstatusRead
  intro s k
  have hread : s.readCsr .sstatus = (s.sstatus.wired s.cfg).layout s.sxlen := rfl
  rw [hread, layout_getLsbD, common_getLsbD, ← wired_xs_eq, ← wired_fs_eq]
  simp only [Bool.and_assoc]
  rfl

/-! ## stvec -/

/-- MODE as the low two bits of the number. -/
theorem stvecMode_eq_ofNat (v : Word) : stvecMode v = BitVec.ofNat 2 (v.toNat % 4) :=
  BitVec.eq_of_toNat_eq (by rw [stvecMode_toNat, BitVec.toNat_ofNat, Nat.mod_mod])

/-- BASE is aligned for MODE exactly when a Vectored one is a multiple of its alignment: a Direct one always is (R29, R31). -/
theorem stvecBase_aligned_iff (cfg : Config) {v : Word} (h : modeSupported cfg.stvecModes (stvecMode v) = true) :
    (v.toNat / 4 * 4) % stvecAlign cfg (stvecMode v) = 0 ↔
      v.toNat % 4 = 0 ∨ (v.toNat % 4 = 1 ∧ (v.toNat / 4 * 4) % (4 * 2 ^ cfg.stvecAlignExp) = 0) := by
  have hm := stvecMode_toNat v
  rcases modeSupported_cases h with h0 | h1
  · rw [h0] at hm ⊢
    have h4 : v.toNat % 4 = 0 := hm.symm
    simp [stvecAlign, h4]
  · rw [h1] at hm ⊢
    have h4 : v.toNat % 4 = 1 := hm.symm
    simp [stvecAlign, h4]

/-- A value with these properties is legal (R33). -/
theorem stvecLegal_of {s : State} {w : Word} (hw : w.toNat < 2 ^ s.sxlen.bits)
    (hm : modeSupported s.cfg.stvecModes (stvecMode w) = true)
    (ha : w.toNat % 4 = 1 → (w.toNat / 4 * 4) % (4 * 2 ^ s.cfg.stvecAlignExp) = 0) : stvecLegal s.cfg w = true := by
  refine (stvecLegal_iff s.cfg w).2 ⟨hw, hm, (stvecBase_aligned_iff s.cfg hm).2 ?_⟩
  have hmode : w.toNat % 4 = 0 ∨ w.toNat % 4 = 1 := by
    rw [← stvecMode_toNat]
    rcases modeSupported_cases hm with h | h <;> simp [h]
  exact hmode.imp_right fun h => ⟨h, ha h⟩

/-- Settles O26: what is stored is `stvecLegalize` of the old and the written value, which is legal. -/
theorem stvecWrite : Obligations.StvecWrite := by
  unfold Obligations.StvecWrite
  intro s w
  obtain ⟨hlt, hmode, halign⟩ := (stvecLegal_iff s.cfg _).1 (stvecLegalize_legal s.cfg s.stvec (low s.sxlen w))
  rw [stvecBase_aligned_iff s.cfg hmode] at halign
  refine ⟨stvecLegalize s.cfg s.stvec (low s.sxlen w), rfl, stvecMode_eq_ofNat _ ▸ hmode, hlt, halign, ?_, ?_, rfl⟩
  · intro hw hm ha hh
    rw [← stvecMode_eq_ofNat] at hm
    rw [low_of_lt hw, stvecLegalize, stvecLegal_of hw hm ha, hh]
    rfl
  · intro u hc hs
    simp only [State.writeCsr, State.sxlen, hc, hs]

/-! ## The registers of R35 -/

/-- A 32-bit value always has a defined `satp.MODE`: Bare or Sv32 (R35). -/
theorem satpModeDefined_x32 (w : Word) : satpModeDefined .x32 (satpMode .x32 w) = true := by
  have := (w.extractLsb' 31 1).isLt
  simp only [satpModeDefined, satpMode, Bool.or_eq_true, beq_iff_eq]
  omega

/-- The values of `satp.MODE` that are defined at 64 bits: Bare, Sv39, Sv48 (R35). -/
theorem satpModeDefined_x64 {w : Word} (h : w.toNat / 2 ^ 60 = 0 ∨ w.toNat / 2 ^ 60 = 8 ∨ w.toNat / 2 ^ 60 = 9) :
    satpModeDefined .x64 (satpMode .x64 w) = true := by
  have hmode : satpMode .x64 w = w.toNat / 2 ^ 60 := by
    have := w.isLt
    simp only [satpMode, BitVec.extractLsb'_toNat, Nat.shiftRight_eq_div_pow]
    omega
  rw [hmode]
  rcases h with h | h | h <;> rw [h] <;> rfl

/-- `scause` holds the exception codes of R161. -/
theorem scauseSupported_exc (cfg : Config) (x : Xlen) {w : Word}
    (h : w.toNat ∈ [0, 1, 2, 3, 4, 5, 6, 7, 8, 9, 12, 13, 15]) : scauseSupported cfg x w = true := by
  have hlt : w.toNat < 16 := (by decide : ∀ n ∈ [0, 1, 2, 3, 4, 5, 6, 7, 8, 9, 12, 13, 15], n < 16) _ h
  have hbit : (0xB3FF#64).getLsbD w.toNat = true :=
    (by decide : ∀ n ∈ [0, 1, 2, 3, 4, 5, 6, 7, 8, 9, 12, 13, 15], (0xB3FF#64).getLsbD n = true) _ h
  have htop : w.getLsbD (x.bits - 1) = false :=
    Nat.testBit_lt_two_pow (lt_of_lt_of_le hlt (by cases x <;> decide : 2 ^ 4 ≤ 2 ^ (x.bits - 1)))
  simp [scauseSupported, htop, hlt, hbit]

/-- The number of an interrupt that exists is the code of one. -/
theorem exists_irqCode {cfg : Config} {n : Nat} (h : (irqMask cfg).getLsbD n = true) : ∃ k, irqCode k = n := by
  rcases (irqMask_iff cfg n).1 h with rfl | rfl | rfl | ⟨-, rfl | rfl | rfl⟩
  exacts [⟨.ssi, rfl⟩, ⟨.sti, rfl⟩, ⟨.sei, rfl⟩, ⟨.usi, rfl⟩, ⟨.uti, rfl⟩, ⟨.uei, rfl⟩]

/-- The cause word of an interrupt has the Interrupt bit at the top and the code below (R170). -/
theorem causeWord_irq_parts (x : Xlen) (k : Irq) : (causeWord x (.irq k)).getLsbD (x.bits - 1) = true ∧
    (setBit (causeWord x (.irq k)) (x.bits - 1) false).toNat = irqCode k := by
  cases x <;> cases k <;> decide

/-- `scause` holds the codes of the interrupts that exist. -/
theorem scauseSupported_irq (cfg : Config) (x : Xlen) {w : Word} {n : Nat} (h : w.toNat = 2 ^ (x.bits - 1) + n)
    (hn : (irqMask cfg).getLsbD n = true) : scauseSupported cfg x w = true := by
  obtain ⟨k, rfl⟩ := exists_irqCode hn
  have hw : w = causeWord x (.irq k) := BitVec.eq_of_toNat_eq (by rw [h, causeWord_toNat]; rfl)
  have hlt : irqCode k < 16 := by cases k <;> decide
  obtain ⟨htop, hcode⟩ := causeWord_irq_parts x k
  simp only [scauseSupported, hw, htop, if_true, hcode, hn, hlt, decide_true, Bool.and_self]

/-- A supported code is held. -/
theorem writeCsr_scause_of_supported {s : State} {w : Word} (hw : w.toNat < 2 ^ s.sxlen.bits)
    (h : scauseSupported s.cfg s.sxlen w = true) : (s.writeCsr .scause w).scause = w := by
  simp only [State.writeCsr, low_of_lt hw, scauseWrite, ← State.sxlen.eq_1, h, if_true]

/-- A defined MODE is held with the rest of the value. -/
theorem writeCsr_satp_of_defined {s : State} {w : Word} (hw : w.toNat < 2 ^ s.sxlen.bits)
    (h : satpModeDefined s.sxlen (satpMode s.sxlen w) = true) : (s.writeCsr .satp w).satp = w := by
  simp only [State.writeCsr, low_of_lt hw, satpWrite, ← State.sxlen.eq_1, h, if_true]

/-- Settles O27: each write is its register's own operation on the low bits of the value, which are the value where it fits. -/
theorem otherCsrWrites : Obligations.OtherCsrWrites := by
  unfold Obligations.OtherCsrWrites
  intro s w
  refine ⟨⟨rfl, rfl, sepcLegal_toNat _, rfl, rfl, rfl, rfl⟩, ⟨rfl, rfl, rfl, rfl, rfl, rfl, rfl⟩,
    ⟨satpWrite_lt _ _ _, scauseWrite_lt _ _ _⟩, fun hw => ⟨?_, ?_, ?_, ?_, ?_, ?_, ?_, ?_, ?_, ?_⟩⟩
  · exact low_of_lt hw
  · exact low_of_lt hw
  · simp only [State.writeCsr, low_of_lt hw, sepcLegal_toNat]
  · intro k
    have hmask : (irqMask s.cfg).getLsbD k =
        (k = 1 || k = 5 || k = 9 || (s.cfg.userInts && (k = 0 || k = 4 || k = 8))) := by
      rw [Bool.eq_iff_iff, irqMask_iff]
      simp [or_assoc]
    simp only [State.writeCsr, low_of_lt hw, sieWrite, BitVec.getLsbD_and, hmask]
  · intro k hk
    simp only [State.writeCsr, low_of_lt hw, sipWrite_getLsbD, if_neg hk]
  · intro hx
    exact writeCsr_satp_of_defined hw (hx ▸ satpModeDefined_x32 w)
  · intro hx hm
    exact writeCsr_satp_of_defined hw (hx ▸ satpModeDefined_x64 hm)
  · intro n hn e
    exact writeCsr_scause_of_supported hw (scauseSupported_exc _ _ (e ▸ hn))
  · intro n hn e
    exact writeCsr_scause_of_supported hw (scauseSupported_irq _ _ e ((irqMask_iff _ n).2 (by simp at hn; tauto)))
  · intro hu n hn e
    exact writeCsr_scause_of_supported hw (scauseSupported_irq _ _ e ((irqMask_iff _ n).2 (by simp at hn; tauto)))

/-! ## Addresses and widths -/

/-- Settles O23: a held register's address is its own, and the listed intervals are those of R36. -/
theorem csrAddresses : Obligations.CsrAddresses := by
  unfold Obligations.CsrAddresses
  refine ⟨by decide, by decide, fun a c h => ?_, fun a => ?_⟩
  · rw [csrHeld_eq h]
    cases c <;> decide
  · simp only [csrListed, csrListedRanges, List.any_append, List.any_cons, List.any_nil, Bool.or_eq_true, Bool.and_eq_true,
      decide_eq_true_eq, Bool.false_eq_true, or_false]
    omega

theorem xlen_of_u {s : State} (h : s.priv = .u) : s.xlen = s.uxlen := by simp [State.xlen, State.xlenOf, h]

theorem xlen_of_m {s : State} (h : s.priv = .m) : s.xlen = s.wlen := by simp [State.xlen, State.xlenOf, h]

theorem uxlen_of_sxlen_x32 {s : State} (h : s.sxlen = .x32) : s.uxlen = .x32 := by simp [State.uxlen, h]

theorem uxlen_of_sxlen_x64 {s : State} (h : s.sxlen = .x64) : s.uxlen = s.sstatus.uxl := by simp [State.uxlen, h]

/-- Settles O57, mode by mode and pair of widths by pair. -/
theorem xlenOfEachMode : Obligations.XlenOfEachMode := by
  unfold Obligations.XlenOfEachMode
  refine ⟨fun s => ⟨fun hp hx => ?_, fun hp hx hu => ?_, fun hp hx hu => ?_, fun hp => ?_, fun hp => ?_, fun hw => ?_, fun hw => ?_,
    fun hw => ?_⟩, rfl, rfl, rfl, rfl, rfl⟩
  · rw [xlen_of_u hp, uxlen_of_sxlen_x32 hx]
  · rw [xlen_of_u hp, uxlen_of_sxlen_x64 hx, hu]
  · rw [xlen_of_u hp, uxlen_of_sxlen_x64 hx, hu]
  · exact xlen_of_s hp
  · exact xlen_of_m hp
  · simp [State.wlen, State.sxlen, hw, wlenOf, sxlenOf]
  · simp [State.wlen, State.sxlen, hw, wlenOf, sxlenOf]
  · simp [State.wlen, State.sxlen, hw, wlenOf, sxlenOf]

end Sys2Proof.Proofs
end

section
/-! SUPPORT. The access path of R40: the order of its checks (R45, R54, R57, R58), the marks of a page, what MXR and SUM reach, the
reduced address, and when translation is in effect. -/

namespace Sys2Proof.Proofs

open Sys2Proof.Machine Sys2Proof.Laws

variable {s : State} {kind : AccessKind}

/-! ## Misaligned accesses (R45) -/

theorem misaligned_raise (h : kind = .fetch ∨ s.cfg.misaligned = .trap) (va : Word) :
    s.misaligned kind va = .raise (misalignedExc kind) va := by
  cases kind with
  | fetch => rfl
  | load | store =>
    obtain hk | hp := h
    · cases hk
    · simp only [State.misaligned, hp]

theorem misaligned_refuse (hk : kind ≠ .fetch) (hp : s.cfg.misaligned = .split) (va : Word) :
    s.misaligned kind va = .refuse .misalignedSplit := by
  cases kind with
  | fetch => exact absurd rfl hk
  | load | store => simp only [State.misaligned, hp]

theorem misaligned_not_ok (va : Word) (pa : Nat) : s.misaligned kind va ≠ .ok pa := by
  by_cases h : kind = .fetch ∨ s.cfg.misaligned = .trap
  · rw [misaligned_raise h]
    simp
  · obtain ⟨hk, hm⟩ := not_or.1 h
    have hp : s.cfg.misaligned = .split := by cases hc : s.cfg.misaligned <;> simp_all
    rw [misaligned_refuse hk hp]
    simp

/-- Settles O15: each clause is the law of the first check that fails, at the reduced address. -/
theorem accessChecksInOrder : Obligations.AccessChecksInOrder := by
  unfold Obligations.AccessChecksInOrder
  intro s kind ea
  dsimp only
  rw [← low_eq_ofNat]
  refine ⟨fun h hp => ?_, fun h hk hp => ?_, access_unmapped,
    fun l h hv hl => ⟨access_forbidden h hv hl, access_permitted h hv hl⟩, access_bare⟩
  · rw [access_misaligned h, misaligned_raise hp]
  · rw [access_misaligned h, misaligned_refuse hk hp]

/-! ## What MXR and SUM reach -/

/-- Of `sstatus` an access sees UXL and, under translation, what MXR and SUM make of the page's marks. -/
theorem access_sstatus_congr (s : State) (f : Sstatus) (hu : f.uxl = s.sstatus.uxl)
    (hp : s.vmActive = true → ∀ l, permOK kind s.priv f.sum f.mxr l = permOK kind s.priv s.sstatus.sum s.sstatus.mxr l)
    (ea : Word) (n : Nat) : { s with sstatus := f }.access kind ea n = s.access kind ea n := by
  have hx : { s with sstatus := f }.xlen = s.xlen := by
    simp only [State.xlen, State.xlenOf, State.uxlen, State.sxlen, State.wlen, hu]
  have ht : ∀ va, { s with sstatus := f }.translate kind va = s.translate kind va := by
    intro va
    have hactive : { s with sstatus := f }.vmActive = s.vmActive := rfl
    unfold State.translate
    rw [hactive]
    by_cases hv : s.vmActive = true
    · simp only [hp hv]
      rfl
    · rw [if_neg hv, if_neg hv]
      rfl
  simp only [State.access, hx, ht]
  rfl

/-- R52: in U-mode SUM decides nothing. -/
theorem permOK_of_u (kind : AccessKind) (sum sum' mxr : Bool) (l : Leaf) :
    permOK kind .u sum mxr l = permOK kind .u sum' mxr l := rfl

/-- R22: MXR decides loads only. -/
theorem permOK_of_not_load (hk : kind ≠ .load) (priv : Priv) (sum mxr mxr' : Bool) (l : Leaf) :
    permOK kind priv sum mxr l = permOK kind priv sum mxr' l := by
  cases kind with
  | load => exact absurd rfl hk
  | fetch | store => rfl

/-- Settles O42: without translation no mark is looked at, and under it the changed bit decides nothing. -/
theorem mxrSumNeedTranslation : Obligations.MxrSumNeedTranslation := by
  unfold Obligations.MxrSumNeedTranslation
  intro s mxr sum kind ea n
  refine ⟨fun hv => ?_, fun hp => ?_, fun hk => ?_⟩
  · exact access_sstatus_congr s { s.sstatus with mxr := mxr, sum := sum } rfl (fun h => absurd h (by simp [hv])) ea n
  · exact access_sstatus_congr s { s.sstatus with sum := sum } rfl (fun _ l => hp ▸ permOK_of_u kind _ _ _ l) ea n
  · exact access_sstatus_congr s { s.sstatus with mxr := mxr } rfl (fun _ l => permOK_of_not_load hk _ _ _ _ l) ea n

/-! ## The reduced address -/

/-- R42: an access is that of its reduced address. -/
theorem access_low (s : State) (kind : AccessKind) (ea : Word) (n : Nat) :
    s.access kind (low s.xlen ea) n = s.access kind ea n := by
  simp only [State.access, low_low]

/-- Without translation a granted access is at the reduced address. -/
theorem access_bare_ok {ea : Word} {n pa : Nat} (hv : s.vmActive = false) (h : s.access kind ea n = .ok pa) :
    pa = seen s.xlen ea % 2 ^ s.cfg.palen := by
  by_cases ha : seen s.xlen ea % n = 0
  · rw [access_bare ha hv] at h
    split at h <;> cases h
    rfl
  · rw [access_misaligned ha] at h
    exact absurd h (misaligned_not_ok _ _)

/-- Settles O43: the XLEN of U-mode is 32 here, so the address reduced is the one modulo `2^32`. -/
theorem userAddressesAreReduced : Obligations.UserAddressesAreReduced := by
  unfold Obligations.UserAddressesAreReduced
  intro s kind ea n hp hs hu
  have hx : s.xlen = .x32 := by rw [xlen_of_u hp, uxlen_of_sxlen_x64 hs, hu]
  have hseen : seen s.xlen ea = ea.toNat % 2 ^ 32 := by rw [hx]; rfl
  refine ⟨?_, fun pa hv h => ?_⟩
  · rw [← hseen, ← low_eq_ofNat, access_low]
  · have hpa := access_bare_ok hv h
    rw [hseen] at hpa
    exact ⟨hpa, hpa ▸ lt_of_le_of_lt (Nat.mod_le _ _) (Nat.mod_lt _ (by decide))⟩

/-! ## The marks of a page -/

/-- R50, R51: in S-mode a page with U = 1 permits no fetch, and no load or store either while SUM = 0. -/
theorem not_pagePermits_user {mxr sum : Bool} {l : Leaf} (hu : l.u = true) (h : kind = .fetch ∨ sum = false) :
    ¬ PagePermits kind .s sum mxr l := by
  rintro ⟨⟨hp, -⟩ | ⟨-, -, hl⟩ | ⟨-, hk, hl⟩, -⟩
  · cases hp
  · simp [hu] at hl
  · obtain rfl | rfl := h
    · exact hk rfl
    · simp [hu] at hl

/-- R48: a page that is neither readable nor, by MXR, executable permits no load. -/
theorem not_pagePermits_load {priv : Priv} {sum mxr : Bool} {l : Leaf} (hr : l.r = false) (hx : mxr = false ∨ l.x = false) :
    ¬ PagePermits .load priv sum mxr l := by
  rintro ⟨-, hload, -⟩
  obtain h | ⟨hm, hlx⟩ := hload rfl
  · simp [hr] at h
  · simp [hm, hlx] at hx

/-- R50, R48, R49: with SUM = 1 the type marks alone decide a load or store of S-mode. -/
theorem pagePermits_of_sum {mxr : Bool} {l : Leaf} (hk : kind ≠ .fetch)
    (hload : kind = .load → l.r = true ∨ (mxr = true ∧ l.x = true)) (hstore : kind = .store → l.w = true) :
    PagePermits kind .s true mxr l :=
  ⟨.inr (.inr ⟨rfl, hk, .inr rfl⟩), hload, hstore, fun h => absurd h hk⟩

/-! ## When translation is in effect -/

theorem vmActive_iff (s : State) : s.vmActive = true ↔ (s.priv = .s ∨ s.priv = .u) ∧ satpMode s.sxlen s.satp ≠ 0 := by
  have hp : s.priv ≠ .m ↔ s.priv = .s ∨ s.priv = .u := by cases s.priv <;> decide
  rw [← hp, State.vmActive, Bool.and_eq_true, bne_iff_ne, bne_iff_ne, and_comm]

theorem satpMode_x32 (v : Word) : satpMode .x32 v = v.toNat / 2 ^ 31 % 2 := by
  simp only [satpMode, BitVec.extractLsb'_toNat, Nat.shiftRight_eq_div_pow, Nat.pow_one]

theorem satpMode_x64 (v : Word) : satpMode .x64 v = v.toNat / 2 ^ 60 := by
  have := v.isLt
  simp only [satpMode, BitVec.extractLsb'_toNat, Nat.shiftRight_eq_div_pow]
  omega

/-- Settles O58: MODE is not Bare where its bits, bit 31 or bits 63:60 of `satp`, are not 0. -/
theorem translationInEffect : Obligations.TranslationInEffect := by
  unfold Obligations.TranslationInEffect
  intro s
  refine ⟨fun hx => ?_, fun hx => ?_⟩
  · rw [vmActive_iff, hx, satpMode_x32]
  · rw [vmActive_iff, hx, satpMode_x64]

end Sys2Proof.Proofs
end

section
/-! SUPPORT. The fetch of a step: the instruction it finds, or the exception taken in its place (R15, R40, R57, R58). -/

namespace Sys2Proof.Proofs

open Sys2Proof.Machine Sys2Proof.Laws

variable {s : State}

/-! ## The step by what its fetch comes to -/

/-- With a legal `stvec.MODE` and no interrupt taken, a step is its fetch and what follows it. -/
theorem step_eq_fetch (hm : s.stvec.toNat % 4 < 2) (hi : s.oracleMove.irqTaken = none) :
    step s = s.oracleMove.fetchWord.andThen s.oracleMove fun w => runWord w s.oracleMove := by
  rw [step, if_neg (by rw [stvecMode_toNat]; omega), stepBoundary, hi]

theorem step_of_fetch_ok {pa : Nat} (hm : s.stvec.toNat % 4 < 2) (hi : s.oracleMove.irqTaken = none)
    (ha : s.oracleMove.access .fetch s.oracleMove.pcLow 4 = .ok pa) :
    step s = runWord (s.oracleMove.readWord pa) s.oracleMove := by
  rw [step_eq_fetch hm hi, State.fetchWord, ha]
  rfl

theorem runWord_of_decode {w : InstrWord} {i : Instr} (h : decodeWord w = .ok i) (s : State) : runWord w s = exec i s := by
  rw [runWord, h]

/-- An access that raises a cause that is delegated ends in its trap, whatever was to follow the access (R162, R170). -/
theorem andThen_raise_of_can {α : Type} {a : Access α} {e : Exc} {tval : Word} (ha : a = .raise e tval) (hc : s.CanTrap (.exc e))
    (k : α → Host.Outcome State Fault Refusal) :
    ∃ t, a.andThen s k = .next t ∧ Trapped s t (excCode e) false tval.toNat := by
  obtain ⟨v, hv, ht⟩ := takeTrap_of_can tval hc
  exact ⟨_, by rw [ha]; exact hv, ht⟩

/-- A fetch that raises, with its reduced address, traps in place of the instruction. -/
theorem step_of_fetch_raise {e : Exc} (hm : s.stvec.toNat % 4 < 2) (hi : s.oracleMove.irqTaken = none)
    (ha : s.oracleMove.access .fetch s.oracleMove.pcLow 4 = .raise e (low s.oracleMove.xlen s.oracleMove.pcLow))
    (hc : s.oracleMove.CanTrap (.exc e)) :
    ∃ t, step s = .next t ∧ Trapped s.oracleMove t (excCode e) false (seen s.oracleMove.xlen s.oracleMove.pcLow) := by
  rw [step_eq_fetch hm hi, ← low_toNat]
  exact andThen_raise_of_can (by rw [State.fetchWord, ha]) hc _

/-! ## The instruction that is fetched -/

/-- Four bytes that decode are the bytes of a word that does. -/
theorem decodeWord_of_decode {b0 b1 b2 b3 : Byte} {i : Instr} (h : decode [b0, b1, b2, b3] = .ok (i, [])) :
    decodeWord (wordOfBytes b0 b1 b2 b3) = .ok i := by
  cases hw : decodeWord (wordOfBytes b0 b1 b2 b3) with
  | ok j => simpa [decode, hw] using h
  | error r => simp [decode, hw] at h

/-- Settles O6: the four bytes are the word that the fetch reads. -/
theorem stepRunsDecodedInstruction : Obligations.StepRunsDecodedInstruction := by
  unfold Obligations.StepRunsDecodedInstruction
  intro s pa i hm hi ha hd
  rw [step_of_fetch_ok hm hi ha]
  exact runWord_of_decode (decodeWord_of_decode hd) _

/-- The oracle's move and a write of memory do not meet. -/
theorem writeWord_oracleMove (s : State) (pa : Nat) (v : BitVec 32) :
    (s.writeWord pa v).oracleMove = s.oracleMove.writeWord pa v := by
  unfold State.oracleMove
  rw [Fields.writeWord_oracle]
  cases s.oracle <;> rfl

/-- Memory decides no interrupt. -/
theorem writeWord_irqTaken (s : State) (pa : Nat) (v : BitVec 32) : (s.writeWord pa v).irqTaken = s.irqTaken := rfl

@[simp] theorem seen_pcLow (s : State) : seen s.xlen s.pcLow = seen s.xlen s.pc := seen_low _ _

theorem fetchAddr_bare (hv : s.vmActive = false) : s.fetchAddr = seen s.xlen s.pc % 2 ^ s.cfg.palen := by
  simp [State.fetchAddr, hv, State.phys, State.pcLow, low_toNat]

/-- Without translation an aligned fetch that the physical map grants is at the fetch address. -/
theorem fetch_bare_ok (hv : s.vmActive = false) (ha : seen s.xlen s.pc % 4 = 0)
    (hp : s.physAccessOK .fetch (seen s.xlen s.pc % 2 ^ s.cfg.palen) 4 = true) :
    s.access .fetch s.pcLow 4 = .ok (seen s.xlen s.pc % 2 ^ s.cfg.palen) := by
  rw [access_bare (by rwa [seen_pcLow]) hv, seen_pcLow, if_pos hp]

/-- Neither the oracle's move nor a write of memory changes what the fetch does without translation. -/
theorem fetch_bare_ok_placed (pa : Nat) (v : BitVec 32) (hv : s.vmActive = false) (ha : seen s.xlen s.pc % 4 = 0)
    (hp : s.physAccessOK .fetch (seen s.xlen s.pc % 2 ^ s.cfg.palen) 4 = true) :
    (s.oracleMove.writeWord pa v).access .fetch (s.oracleMove.writeWord pa v).pcLow 4 =
      .ok (seen s.xlen s.pc % 2 ^ s.cfg.palen) := by
  have hgrant := fetch_bare_ok (s := s.oracleMove.writeWord pa v) (by simpa [State.vmActive] using hv) (by simpa using ha)
    (by simpa [State.physAccessOK] using hp)
  simpa using hgrant

/-- Settles O7: placing the word changes memory alone, so the fetch is granted at the same address and reads the word. -/
theorem placedWordRuns : Obligations.PlacedWordRuns := by
  unfold Obligations.PlacedWordRuns
  intro s w i hm hi hv hpalen ha hp hd
  have hw : BitVec.ofNat 32 (w.toNat % 2 ^ 32) = w := by rw [Nat.mod_eq_of_lt w.isLt, BitVec.ofNat_toNat, BitVec.setWidth_eq]
  rw [State.withFetchWord, hw, fetchAddr_bare hv]
  have hmove := writeWord_oracleMove s (seen s.xlen s.pc % 2 ^ s.cfg.palen) w
  rw [step_of_fetch_ok (by rwa [Fields.writeWord_stvec]) (by rw [hmove, writeWord_irqTaken, hi])
    (by rw [hmove]; exact fetch_bare_ok_placed _ w hv ha hp), hmove, readWord_writeWord _ (by rwa [Fields.oracleMove_cfg])]
  exact runWord_of_decode hd _

/-! ## The fetch that fails -/

/-- Settles O8: each clause is the first check of the fetch that fails. -/
theorem failedFetchTraps : Obligations.FailedFetchTraps := by
  unfold Obligations.FailedFetchTraps
  rintro s0 s hm rfl hi
  rw [← seen_pcLow]
  refine ⟨fun ha hc => ?_, fun ha hv hl hc => ?_, fun l ha hv hl hp hc => ?_, fun l ha hv hl hp hr hc => ?_,
    fun ha hv hr hc => ?_⟩
  · exact step_of_fetch_raise hm hi (access_misaligned ha) hc
  · exact step_of_fetch_raise hm hi (access_unmapped ha hv hl) hc
  · exact step_of_fetch_raise hm hi (access_forbidden ha hv hl hp) hc
  · exact step_of_fetch_raise hm hi ((access_permitted ha hv hl hp).trans (by rw [hr]; rfl)) hc
  · exact step_of_fetch_raise hm hi ((access_bare ha hv).trans (by rw [hr]; rfl)) hc

/-- Settles O41: in S-mode a user page's marks forbid every fetch. -/
theorem supervisorNeverExecutesUserPages : Obligations.SupervisorNeverExecutesUserPages := by
  unfold Obligations.SupervisorNeverExecutesUserPages
  rintro s0 s l hm rfl hi hp hv hl hu ha hc
  rw [← seen_pcLow] at hl ha ⊢
  have hforbidden := not_pagePermits_user (kind := .fetch) (mxr := s0.oracleMove.sstatus.mxr) (sum := s0.oracleMove.sstatus.sum) hu
    (.inl rfl)
  exact step_of_fetch_raise hm hi (access_forbidden ha hv hl (hp ▸ hforbidden)) hc

end Sys2Proof.Proofs
end

section
/-! SUPPORT. LW and SW by what their access comes to: done, or the access's exception taken with nothing written (R143, R144). -/

namespace Sys2Proof.Proofs

open Sys2Proof.Machine Sys2Proof.Laws

variable {s : State} {rd rs2 rs1 : RegIdx} {imm : BitVec 12}

/-! ## LW and SW by their access -/

theorem exec_lw_of_ok {pa : Nat} (h : s.access .load (BitVec.ofNat 64 (effAddrNat s rs1 imm)) 4 = .ok pa) :
    exec (.lw rd rs1 imm) s = .next (s.finish rd ((s.readWord pa).signExtend 64)) := by
  rw [exec, execLw, effAddr_eq, State.loadWord, h]
  rfl

theorem exec_sw_of_ok {pa : Nat} (h : s.access .store (BitVec.ofNat 64 (effAddrNat s rs1 imm)) 4 = .ok pa) :
    exec (.sw rs2 rs1 imm) s = .next (s.writeWord pa ((s.rdx rs2).setWidth 32)).advance := by
  rw [exec, execSw, effAddr_eq, State.storeWord, h]
  rfl

theorem exec_lw_of_raise {e : Exc} {tval : Word} (h : s.access .load (BitVec.ofNat 64 (effAddrNat s rs1 imm)) 4 = .raise e tval)
    (hc : s.CanTrap (.exc e)) : ∃ t, exec (.lw rd rs1 imm) s = .next t ∧ Trapped s t (excCode e) false tval.toNat := by
  rw [exec, execLw, effAddr_eq]
  exact andThen_raise_of_can (by rw [State.loadWord, h]) hc _

theorem exec_sw_of_raise {e : Exc} {tval : Word} (h : s.access .store (BitVec.ofNat 64 (effAddrNat s rs1 imm)) 4 = .raise e tval)
    (hc : s.CanTrap (.exc e)) : ∃ t, exec (.sw rs2 rs1 imm) s = .next t ∧ Trapped s t (excCode e) false tval.toNat := by
  rw [exec, execSw, effAddr_eq]
  exact andThen_raise_of_can (by rw [State.storeWord, h]) hc _

/-! ## A load after a store -/

/-- The word that SW stores, as a number. -/
theorem storedWord_toNat (s : State) (i : RegIdx) : ((s.rdx i).setWidth 32).toNat = (s.readReg i).toNat % 2 ^ 32 := by
  rw [BitVec.toNat_setWidth, rdx_toNat, seen]
  cases s.xlen <;> simp only [Xlen.bits] <;> omega

/-- Settles O19: the load reads the word the store wrote, and its result fills the register. -/
theorem loadSeesStore : Obligations.LoadSeesStore := by
  unfold Obligations.LoadSeesStore
  intro s t rs2 rs1 rd imm pa hpalen hrd hstore hsw hload
  rw [exec_sw_of_ok hstore] at hsw
  cases hsw
  have hread : (s.writeWord pa ((s.rdx rs2).setWidth 32)).advance.readWord pa = (s.rdx rs2).setWidth 32 :=
    readWord_writeWord s hpalen pa _
  refine ⟨_, exec_lw_of_ok hload, ?_⟩
  obtain ⟨hresult, -⟩ := finish_regTakes (s.writeWord pa ((s.rdx rs2).setWidth 32)).advance rd
    (((s.rdx rs2).setWidth 32).signExtend 64)
  rw [hread, hresult hrd, signExtend_toNat, storedWord_toNat]
  simp

/-! ## Loads and stores under translation -/

section Pages

variable {l : Leaf} (hv : s.vmActive = true) (hl : s.pageLookup (effAddrNat s rs1 imm) = some l) (ha : effAddrNat s rs1 imm % 4 = 0)

include hv hl ha

/-- An aligned load or store to a page whose marks forbid it raises the page fault, with the effective address. -/
theorem effAddr_access_forbidden {kind : AccessKind} (hp : ¬ PagePermits kind s.priv s.sstatus.sum s.sstatus.mxr l) :
    s.access kind (BitVec.ofNat 64 (effAddrNat s rs1 imm)) 4 =
      .raise (pageFaultExc kind) (low s.xlen (BitVec.ofNat 64 (effAddrNat s rs1 imm))) := by
  rw [← seen_effAddrNat] at hl ha
  exact access_forbidden ha hv hl hp

theorem effAddr_access_permitted {kind : AccessKind} (hp : PagePermits kind s.priv s.sstatus.sum s.sstatus.mxr l)
    (hr : s.physAccessOK kind (l.pa % 2 ^ s.cfg.palen) 4 = true) :
    s.access kind (BitVec.ofNat 64 (effAddrNat s rs1 imm)) 4 = .ok (l.pa % 2 ^ s.cfg.palen) := by
  rw [← seen_effAddrNat] at hl ha
  rw [access_permitted ha hv hl hp, if_pos hr]

theorem exec_lw_forbidden (hp : ¬ PagePermits .load s.priv s.sstatus.sum s.sstatus.mxr l) (hc : s.CanTrap (.exc .loadPageFault)) :
    ∃ t, exec (.lw rd rs1 imm) s = .next t ∧ Trapped s t 13 false (effAddrNat s rs1 imm) := by
  have h := exec_lw_of_raise (rd := rd) (effAddr_access_forbidden hv hl ha hp) hc
  rwa [low_toNat, seen_effAddrNat] at h

theorem exec_sw_forbidden (hp : ¬ PagePermits .store s.priv s.sstatus.sum s.sstatus.mxr l)
    (hc : s.CanTrap (.exc .storePageFault)) :
    ∃ t, exec (.sw rs2 rs1 imm) s = .next t ∧ Trapped s t 15 false (effAddrNat s rs1 imm) := by
  have h := exec_sw_of_raise (rs2 := rs2) (effAddr_access_forbidden hv hl ha hp) hc
  rwa [low_toNat, seen_effAddrNat] at h

end Pages

/-- Settles O38: with SUM = 0 a user page's marks forbid S-mode's loads and stores. -/
theorem sumClearFaultsUserPages : Obligations.SumClearFaultsUserPages := by
  unfold Obligations.SumClearFaultsUserPages
  intro s rd rs2 rs1 imm l hp hv hsum hl hu ha
  have hforbidden : ∀ kind, ¬ PagePermits kind s.priv s.sstatus.sum s.sstatus.mxr l := fun _ =>
    hp ▸ not_pagePermits_user hu (.inr hsum)
  exact ⟨exec_lw_forbidden hv hl ha (hforbidden _), exec_sw_forbidden hv hl ha (hforbidden _)⟩

/-- Settles O40: a page neither readable nor, by MXR, executable permits no load. -/
theorem unreadablePagesFault : Obligations.UnreadablePagesFault := by
  unfold Obligations.UnreadablePagesFault
  intro s rd rs1 imm l _ hv hl hr hx ha
  exact exec_lw_forbidden hv hl ha (not_pagePermits_load hr hx)

/-- A completed store is at the next word. -/
theorem store_pcNext (s : State) (pa : Nat) (v : BitVec 32) : PcNext s (s.writeWord pa v).advance := by
  have h := advance_pcNext (s.writeWord pa v)
  unfold PcNext PcTakes at *
  simpa using h

/-- Settles O39: with SUM = 1 the page's type marks and the physical map grant the access, and the instruction completes. -/
theorem sumSetPermitsUserPages : Obligations.SumSetPermitsUserPages := by
  unfold Obligations.SumSetPermitsUserPages
  intro s rd rs2 rs1 imm l hp hv hsum hl _ ha
  refine ⟨fun hmark hr => ?_, fun hmark hr => ?_⟩
  · have hpermits : PagePermits .load s.priv s.sstatus.sum s.sstatus.mxr l := by
      rw [hp, hsum]
      exact pagePermits_of_sum (by decide) (fun _ => hmark) (by simp)
    exact ⟨_, exec_lw_of_ok (effAddr_access_permitted hv hl ha hpermits hr), finish_pcNext _ _ _, by rwa [Fields.finish_priv]⟩
  · have hpermits : PagePermits .store s.priv s.sstatus.sum s.sstatus.mxr l := by
      rw [hp, hsum]
      exact pagePermits_of_sum (by decide) (by simp) (fun _ => hmark)
    exact ⟨_, exec_sw_of_ok (effAddr_access_permitted hv hl ha hpermits hr), store_pcNext _ _ _,
      by rwa [Fields.advance_priv, Fields.writeWord_priv]⟩

end Sys2Proof.Proofs
end

section
/-! SUPPORT. How the parameters that the state holds as data are read: regions, a written-out mapping, modes and intervals. -/

namespace Sys2Proof.Proofs

open Sys2Proof.Machine Sys2Proof.Laws

/-- A region grants a kind of access by the mark of that kind (D28). -/
theorem regionGrants_iff (r : Region) (kind : AccessKind) : regionGrants r kind = true ↔
    (kind = .fetch → r.fetch = true) ∧ (kind = .load → r.read = true) ∧ (kind = .store → r.write = true) := by
  cases kind <;> simp [regionGrants]

theorem physAccessOK_iff (s : State) (kind : AccessKind) (pa n : Nat) : s.physAccessOK kind pa n = true ↔
    ∃ r ∈ s.cfg.regions, r.base ≤ pa ∧ pa + n ≤ r.base + r.size ∧ regionGrants r kind = true := by
  simp only [State.physAccessOK, List.any_eq_true, Bool.and_eq_true, decide_eq_true_eq]
  refine exists_congr fun r => and_congr_right fun _ => ?_
  tauto

theorem stvecHolds_iff (cfg : Config) (w : Word) :
    stvecHolds cfg w = true ↔ ∃ r ∈ cfg.stvecHolds, r.lo ≤ w.toNat ∧ w.toNat ≤ r.hi := by
  simp only [stvecHolds, List.any_eq_true, Bool.and_eq_true, decide_eq_true_eq]

/-- The first entry that holds the address answers (R56). -/
theorem lookupTable_first {before after : List PageEntry} {e : PageEntry} {va : Nat}
    (h : ∀ d ∈ before, ¬ (d.lo ≤ va ∧ va ≤ d.hi)) (hlo : e.lo ≤ va) (hhi : va ≤ e.hi) :
    lookupTable (before ++ e :: after) va = some ⟨e.pa + (va - e.lo), e.r, e.w, e.x, e.u⟩ := by
  have hbefore : (before.find? fun d => decide (d.lo ≤ va) && decide (va ≤ d.hi)) = none :=
    List.find?_eq_none.2 fun d hd => by simpa using h d hd
  simp [lookupTable, List.find?_append, hbefore, hlo, hhi]

/-- An address that no entry holds is not mapped. -/
theorem lookupTable_none {entries : List PageEntry} {va : Nat} (h : ∀ d ∈ entries, ¬ (d.lo ≤ va ∧ va ≤ d.hi)) :
    lookupTable entries va = none :=
  Option.map_eq_none_iff.2 (List.find?_eq_none.2 fun d hd => by simpa using h d hd)

theorem pageLookup_table {s : State} {entries : List PageEntry} (h : s.cfg.pages = .table entries) (va : Nat) :
    s.pageLookup va = lookupTable entries va := by
  rw [State.pageLookup, h]

/-- Settles O59, parameter by parameter. -/
theorem parametersAsData : Obligations.ParametersAsData := by
  unfold Obligations.ParametersAsData
  intro s
  refine ⟨fun kind pa n => ?_, fun before after e va ht hb hlo hhi => ?_, fun entries va ht hn => ?_,
    ⟨rfl, rfl, rfl, rfl, rfl, rfl, fun modes => ?_⟩, stvecHolds_iff s.cfg⟩
  · simp only [physAccessOK_iff, regionGrants_iff]
  · rw [pageLookup_table ht, lookupTable_first hb hlo hhi]
  · rw [pageLookup_table ht, lookupTable_none hn]
  · cases modes <;> exact ⟨rfl, rfl⟩

end Sys2Proof.Proofs
end

section
/-! The decoder and the encoder as inverses, and the rows of the opcode table as the words of their instruction
(R70 to R78). -/

namespace Sys2Proof.Proofs

open Sys2Proof.Machine Sys2Proof.Laws

variable {w : InstrWord} {i : Instr} {r : TableRow}

/-! ## From an instruction to its word and back -/

/-- Of the words under SYSTEM with funct3 = 000 the five whole-word rows are told from SFENCE.VMA by funct7 (R76). -/
theorem decodePrivileged_sfenceVma (h7 : funct7Of w = 0b0001001#7) (hrd : rdOf w = 0#5) :
    decodePrivileged w = .ok (.sfenceVma (rs1Of w) (rs2Of w)) := by
  have hne : ∀ v : InstrWord, funct7Of v ≠ 0b0001001#7 → w ≠ v := fun v hv e => hv (e ▸ h7)
  rw [decodePrivileged, if_neg (hne _ (by decide)), if_neg (hne _ (by decide)), if_neg (hne _ (by decide)),
    if_neg (hne _ (by decide)), if_neg (hne _ (by decide)), if_pos ⟨h7, hrd⟩]

/-- Decoding undoes encoding: the fields that select the row are those the format puts there. -/
theorem decodeWord_encode (h : i.wellFormed = true) : decodeWord (encode i) = .ok i := by
  cases i with
  | csrrw | csrrs | csrrc | csrrwi | csrrsi | csrrci => simp [encode, decodeWord, decodeSystem]
  | ecall | ebreak | sret | mret | wfi => rfl
  | sfenceVma rs1 rs2 => simp [encode, decodeWord, decodeSystem, decodePrivileged_sfenceVma]
  | lui | addi | add | lw | sw => simp [encode, decodeWord]
  | bne rs1 rs2 offset =>
    have heven : offset.getLsbD 0 = false := by simpa [Instr.wellFormed] using h
    simp [encode, decodeWord, immBOf_encB heven]

/-- A word is the word of its four bytes (R44, R70). -/
theorem wordOfBytes_bytesOfWord (w : InstrWord) :
    wordOfBytes (w.extractLsb' 0 8) (w.extractLsb' 8 8) (w.extractLsb' 16 8) (w.extractLsb' 24 8) = w := by
  unfold wordOfBytes
  ext j hj
  simp only [BitVec.getElem_append, BitVec.getElem_extractLsb']
  interval_cases j <;> simp

/-- The word at the head of a list of bytes decides what the list decodes to. -/
theorem decode_bytesOfWord (h : decodeWord w = .ok i) (rest : List Byte) : decode (bytesOfWord w ++ rest) = .ok (i, rest) := by
  simp [bytesOfWord, decode, wordOfBytes_bytesOfWord, h]

/-- Settles O1, constructor by constructor for the word; its bytes give the word back. -/
theorem decodeOfEncode : Obligations.DecodeOfEncode := by
  unfold Obligations.DecodeOfEncode
  exact fun i h => ⟨decodeWord_encode h, decode_bytesOfWord (decodeWord_encode h)⟩

/-! ## From a word to its instruction and back -/

theorem encI_of_fields {f3 : BitVec 3} {op : BitVec 7} (h3 : funct3Of w = f3) (hop : opcodeOf w = op) :
    encI (immIOf w) (rs1Of w) f3 (rdOf w) op = w := by
  rw [← h3, ← hop, encI_fields]

theorem encS_of_fields {f3 : BitVec 3} {op : BitVec 7} (h3 : funct3Of w = f3) (hop : opcodeOf w = op) :
    encS (immSOf w) (rs2Of w) (rs1Of w) f3 op = w := by
  rw [← h3, ← hop, encS_fields]

theorem encB_of_fields {f3 : BitVec 3} {op : BitVec 7} (h3 : funct3Of w = f3) (hop : opcodeOf w = op) :
    encB (immBOf w) (rs2Of w) (rs1Of w) f3 op = w := by
  rw [← h3, ← hop, encB_fields]

theorem encU_of_fields {op : BitVec 7} (hop : opcodeOf w = op) : encU (immUOf w) (rdOf w) op = w := by
  rw [← hop, encU_fields]

theorem encode_add_of_fields (hop : opcodeOf w = 0x33#7) (h3 : funct3Of w = 0b000#3) (h7 : funct7Of w = 0#7) :
    encode (.add (rdOf w) (rs1Of w) (rs2Of w)) = w := by
  rw [encode, ← hop, ← h3, ← h7, encR_fields]

theorem encode_sfenceVma_of_fields (hop : opcodeOf w = 0x73#7) (h3 : funct3Of w = 0b000#3) (h7 : funct7Of w = 0b0001001#7)
    (hrd : rdOf w = 0#5) : encode (.sfenceVma (rs1Of w) (rs2Of w)) = w := by
  rw [encode, ← hop, ← h3, ← h7, ← hrd, encR_fields]

/-- B-imm ends in a 0 whatever the word is (R73). -/
theorem immBOf_even (w : InstrWord) : (immBOf w).getLsbD 0 = false := by
  rw [immBOf, BitVec.getLsbD_append]
  rfl

theorem wellFormed_bne_immBOf (rs1 rs2 : RegIdx) (w : InstrWord) : (Instr.bne rs1 rs2 (immBOf w)).wellFormed = true := by
  rw [Instr.wellFormed, immBOf_even]
  rfl

theorem encode_of_decodePrivileged (hop : opcodeOf w = 0x73#7) (h3 : funct3Of w = 0b000#3)
    (h : decodePrivileged w = .ok i) : i.wellFormed = true ∧ encode i = w := by
  unfold decodePrivileged at h
  split_ifs at h with hecall hebreak hsret hmret hwfi hsfence <;> cases h
  · exact ⟨rfl, hecall.symm⟩
  · exact ⟨rfl, hebreak.symm⟩
  · exact ⟨rfl, hsret.symm⟩
  · exact ⟨rfl, hmret.symm⟩
  · exact ⟨rfl, hwfi.symm⟩
  · exact ⟨rfl, encode_sfenceVma_of_fields hop h3 hsfence.1 hsfence.2⟩

theorem encode_of_decodeSystem (hop : opcodeOf w = 0x73#7) (h : decodeSystem w = .ok i) :
    i.wellFormed = true ∧ encode i = w := by
  unfold decodeSystem at h
  split_ifs at h with h0 h1 h2 h3 h5 h6 h7
  · exact encode_of_decodePrivileged hop h0 h
  all_goals cases h
  · exact ⟨rfl, encI_of_fields h1 hop⟩
  · exact ⟨rfl, encI_of_fields h2 hop⟩
  · exact ⟨rfl, encI_of_fields h3 hop⟩
  · exact ⟨rfl, encI_of_fields h5 hop⟩
  · exact ⟨rfl, encI_of_fields h6 hop⟩
  · exact ⟨rfl, encI_of_fields h7 hop⟩

/-- Encoding undoes decoding: a branch of the decoder tests every field that the format does not hand to the instruction. -/
theorem encode_of_decodeWord (h : decodeWord w = .ok i) : i.wellFormed = true ∧ encode i = w := by
  unfold decodeWord at h
  split_ifs at h with hsystem hlui haddi hadd hlw hsw hbne hillegal
  · exact encode_of_decodeSystem hsystem h
  all_goals cases h
  · exact ⟨rfl, encU_of_fields hlui⟩
  · exact ⟨rfl, encI_of_fields haddi.2 haddi.1⟩
  · obtain ⟨hop, h3, h7⟩ := hadd
    exact ⟨rfl, encode_add_of_fields hop h3 h7⟩
  · exact ⟨rfl, encI_of_fields hlw.2 hlw.1⟩
  · exact ⟨rfl, encS_of_fields hsw.2 hsw.1⟩
  · exact ⟨wellFormed_bne_immBOf _ _ w, encB_of_fields hbne.2 hbne.1⟩

/-- Settles O2, branch by branch of the decoder. -/
theorem encodeOfDecode : Obligations.EncodeOfDecode := by
  unfold Obligations.EncodeOfDecode
  exact fun _ _ => encode_of_decodeWord

/-! ## The rows of the table -/

/-- A field that a row's mask covers is the row's own in every word that selects the row. -/
theorem extractLsb'_of_selects (h : r.selects w = true) {start len : Nat}
    (hmask : r.mask.extractLsb' start len = BitVec.allOnes len) : w.extractLsb' start len = r.val.extractLsb' start len := by
  have hsel : w &&& r.mask = r.val := by simpa [TableRow.selects] using h
  rw [← hsel, BitVec.extractLsb'_and, hmask, BitVec.and_allOnes]

theorem opcodeOf_of_selects {op : BitVec 7} (h : r.selects w = true) (hmask : opcodeOf r.mask = BitVec.allOnes 7)
    (hval : opcodeOf r.val = op) : opcodeOf w = op :=
  (extractLsb'_of_selects h hmask).trans hval

theorem funct3Of_of_selects {f3 : BitVec 3} (h : r.selects w = true) (hmask : funct3Of r.mask = BitVec.allOnes 3)
    (hval : funct3Of r.val = f3) : funct3Of w = f3 :=
  (extractLsb'_of_selects h hmask).trans hval

theorem funct7Of_of_selects {f7 : BitVec 7} (h : r.selects w = true) (hmask : funct7Of r.mask = BitVec.allOnes 7)
    (hval : funct7Of r.val = f7) : funct7Of w = f7 :=
  (extractLsb'_of_selects h hmask).trans hval

theorem rdOf_of_selects {rd : RegIdx} (h : r.selects w = true) (hmask : rdOf r.mask = BitVec.allOnes 5)
    (hval : rdOf r.val = rd) : rdOf w = rd :=
  (extractLsb'_of_selects h hmask).trans hval

/-- A row with the whole word as its mask is selected by one word. -/
theorem val_eq_of_selects (h : r.selects w = true) (hmask : r.mask = 0xFFFFFFFF#32) : r.val = w := by
  have hsel : w &&& r.mask = r.val := by simpa [TableRow.selects] using h
  rw [← hsel, hmask]
  exact BitVec.and_allOnes

/-- A word that selects a row is the word of an instruction that bears the row's mnemonic: the converse of `EncodesRow.Statement`. -/
theorem exists_encode_of_selects (hr : r ∈ opcodeTable) (h : r.selects w = true) :
    ∃ i : Instr, i.wellFormed = true ∧ encode i = w ∧ i.mnemonic = r.mnemonic := by
  simp only [opcodeTable, List.cons_append, List.nil_append, List.mem_cons, List.not_mem_nil, or_false] at hr
  rcases hr with rfl | rfl | rfl | rfl | rfl | rfl | rfl | rfl | rfl | rfl | rfl | rfl | rfl | rfl | rfl | rfl | rfl | rfl
  · exact ⟨.csrrw _ _ _, rfl, encI_of_fields (funct3Of_of_selects h rfl rfl) (opcodeOf_of_selects h rfl rfl), rfl⟩
  · exact ⟨.csrrs _ _ _, rfl, encI_of_fields (funct3Of_of_selects h rfl rfl) (opcodeOf_of_selects h rfl rfl), rfl⟩
  · exact ⟨.csrrc _ _ _, rfl, encI_of_fields (funct3Of_of_selects h rfl rfl) (opcodeOf_of_selects h rfl rfl), rfl⟩
  · exact ⟨.csrrwi _ _ _, rfl, encI_of_fields (funct3Of_of_selects h rfl rfl) (opcodeOf_of_selects h rfl rfl), rfl⟩
  · exact ⟨.csrrsi _ _ _, rfl, encI_of_fields (funct3Of_of_selects h rfl rfl) (opcodeOf_of_selects h rfl rfl), rfl⟩
  · exact ⟨.csrrci _ _ _, rfl, encI_of_fields (funct3Of_of_selects h rfl rfl) (opcodeOf_of_selects h rfl rfl), rfl⟩
  · exact ⟨.ecall, rfl, val_eq_of_selects h rfl, rfl⟩
  · exact ⟨.ebreak, rfl, val_eq_of_selects h rfl, rfl⟩
  · exact ⟨.sret, rfl, val_eq_of_selects h rfl, rfl⟩
  · exact ⟨.mret, rfl, val_eq_of_selects h rfl, rfl⟩
  · exact ⟨.wfi, rfl, val_eq_of_selects h rfl, rfl⟩
  · exact ⟨.sfenceVma _ _, rfl, encode_sfenceVma_of_fields (opcodeOf_of_selects h rfl rfl) (funct3Of_of_selects h rfl rfl)
      (funct7Of_of_selects h rfl rfl) (rdOf_of_selects h rfl rfl), rfl⟩
  · exact ⟨.lui _ _, rfl, encU_of_fields (opcodeOf_of_selects h rfl rfl), rfl⟩
  · exact ⟨.addi _ _ _, rfl, encI_of_fields (funct3Of_of_selects h rfl rfl) (opcodeOf_of_selects h rfl rfl), rfl⟩
  · exact ⟨.add _ _ _, rfl, encode_add_of_fields (opcodeOf_of_selects h rfl rfl) (funct3Of_of_selects h rfl rfl)
      (funct7Of_of_selects h rfl rfl), rfl⟩
  · exact ⟨.lw _ _ _, rfl, encI_of_fields (funct3Of_of_selects h rfl rfl) (opcodeOf_of_selects h rfl rfl), rfl⟩
  · exact ⟨.sw _ _ _, rfl, encS_of_fields (funct3Of_of_selects h rfl rfl) (opcodeOf_of_selects h rfl rfl), rfl⟩
  · exact ⟨.bne _ _ _, wellFormed_bne_immBOf _ _ w,
      encB_of_fields (funct3Of_of_selects h rfl rfl) (opcodeOf_of_selects h rfl rfl), rfl⟩

/-- The rows bear different mnemonics. -/
theorem mnemonic_injOn_opcodeTable : ∀ r ∈ opcodeTable, ∀ r' ∈ opcodeTable, r.mnemonic = r'.mnemonic → r = r' := by
  decide

theorem encodesRow (i : Instr) : EncodesRow.Statement i := by
  cases i with
  | csrrw rd csr rs1 => exact EncodesRow.csrrw rd csr rs1
  | csrrs rd csr rs1 => exact EncodesRow.csrrs rd csr rs1
  | csrrc rd csr rs1 => exact EncodesRow.csrrc rd csr rs1
  | csrrwi rd csr uimm => exact EncodesRow.csrrwi rd csr uimm
  | csrrsi rd csr uimm => exact EncodesRow.csrrsi rd csr uimm
  | csrrci rd csr uimm => exact EncodesRow.csrrci rd csr uimm
  | ecall => exact EncodesRow.ecall
  | ebreak => exact EncodesRow.ebreak
  | sret => exact EncodesRow.sret
  | mret => exact EncodesRow.mret
  | wfi => exact EncodesRow.wfi
  | sfenceVma rs1 rs2 => exact EncodesRow.sfenceVma rs1 rs2
  | lui rd imm => exact EncodesRow.lui rd imm
  | addi rd rs1 imm => exact EncodesRow.addi rd rs1 imm
  | add rd rs1 rs2 => exact EncodesRow.add rd rs1 rs2
  | lw rd rs1 imm => exact EncodesRow.lw rd rs1 imm
  | sw rs2 rs1 imm => exact EncodesRow.sw rs2 rs1 imm
  | bne rs1 rs2 offset => exact EncodesRow.bne rs1 rs2 offset

/-- A row that a word selects is the row of the instruction the word decodes to. -/
theorem exists_decodeWord_of_selects (hr : r ∈ opcodeTable) (h : r.selects w = true) :
    ∃ i, decodeWord w = .ok i ∧ i.mnemonic = r.mnemonic := by
  obtain ⟨i, hwf, rfl, hm⟩ := exists_encode_of_selects hr h
  exact ⟨i, decodeWord_encode hwf, hm⟩

/-- A word that decodes selects the row of its instruction. -/
theorem exists_selects_of_decodeWord (h : decodeWord w = .ok i) :
    ∃ r ∈ opcodeTable, r.selects w = true ∧ r.mnemonic = i.mnemonic := by
  obtain ⟨-, rfl⟩ := encode_of_decodeWord h
  obtain ⟨r, hr, hm, hsel⟩ := encodesRow i
  exact ⟨r, hr, by simpa [TableRow.selects] using hsel, hm⟩

/-- Settles O3: the decoder answers one instruction, so two rows that a word selects bear one mnemonic. -/
theorem decoderFollowsOpcodeTable : Obligations.DecoderFollowsOpcodeTable := by
  unfold Obligations.DecoderFollowsOpcodeTable
  refine fun w => ⟨fun r => exists_decodeWord_of_selects, fun i => exists_selects_of_decodeWord, fun r hr r' hr' h h' => ?_⟩
  obtain ⟨i, hi, hm⟩ := exists_decodeWord_of_selects hr h
  obtain ⟨i', hi', hm'⟩ := exists_decodeWord_of_selects hr' h'
  obtain rfl : i = i' := Except.ok.inj (hi.symm.trans hi')
  exact mnemonic_injOn_opcodeTable r hr r' hr' (hm.symm.trans hm')

/-! ## The words of no row -/

theorem decodeSystem_error {e : WordReject} (h : decodeSystem w = .error e) : e = .illegal := by
  unfold decodeSystem decodePrivileged at h
  split_ifs at h <;> cases h <;> rfl

theorem opcodeOf_eq_iff (w : InstrWord) (op : BitVec 7) : opcodeOf w = op ↔ w.toNat % 128 = op.toNat := by
  simp [opcodeOf, ← BitVec.toNat_inj]

/-- The words that R70 and R78 name as illegal, by the word as a number. -/
theorem lowBits_or_allOnes_iff (w : InstrWord) :
    (w.extractLsb' 0 2 ≠ 0b11#2 ∨ w = 0xFFFFFFFF#32) ↔ (w.toNat % 4 ≠ 3 ∨ w.toNat = 2 ^ 32 - 1) := by
  simp [← BitVec.toNat_inj]

/-- How the decoder's error tells an illegal word from one of `BaseISA` (R78). -/
theorem decodeWord_error {e : WordReject} (h : decodeWord w = .error e) :
    e = if w.toNat % 128 = 0x73 ∨ w.toNat % 4 ≠ 3 ∨ w.toNat = 2 ^ 32 - 1 then .illegal else .baseISA := by
  have hop : opcodeOf w = 0x73#7 ↔ w.toNat % 128 = 0x73 := opcodeOf_eq_iff w 0x73#7
  have hbits := lowBits_or_allOnes_iff w
  unfold decodeWord at h
  split_ifs at h with hsystem _ _ _ _ _ _ hillegal
  · rw [if_pos (.inl (hop.1 hsystem))]
    exact decodeSystem_error h
  · rw [if_pos (.inr (hbits.1 hillegal))]
    exact (Except.error.inj h).symm
  · rw [if_neg (not_or.2 ⟨mt hop.2 hsystem, mt hbits.2 hillegal⟩)]
    exact (Except.error.inj h).symm

/-- A word that selects no row decodes to no instruction, and what it is run as depends on its low bits alone, but for all ones. -/
theorem runWord_of_no_row (h : ∀ r ∈ opcodeTable, r.selects w = false) (s : State) :
    runWord w s =
      runUnmatched (if w.toNat % 128 = 0x73 ∨ w.toNat % 4 ≠ 3 ∨ w.toNat = 2 ^ 32 - 1 then .illegal else .baseISA) w s := by
  cases hd : decodeWord w with
  | ok i =>
    obtain ⟨r, hr, hsel, -⟩ := exists_selects_of_decodeWord hd
    simp [h r hr] at hsel
  | error e => rw [runWord, hd, ← decodeWord_error hd]

/-- Settles O4: no row means no instruction, and the word's opcode and low bits give the rejection. -/
theorem unmatchedWords : Obligations.UnmatchedWords := by
  unfold Obligations.UnmatchedWords
  intro w s hrows
  refine ⟨fun hillegal hc => ?_, fun hop hlow hones => ?_⟩
  · rw [runWord_of_no_row hrows, if_pos hillegal]
    exact raiseIllegal_of_can w hc
  · rw [runWord_of_no_row hrows, if_neg (by tauto)]
    rfl

/-- Settles O5: ten closed words, each of which the decoder is run on. -/
theorem decodesTheSpecsWords : Obligations.DecodesTheSpecsWords := by
  unfold Obligations.DecodesTheSpecsWords
  decide

end Sys2Proof.Proofs
end

section
/-! SUPPORT. What is above the configured XLEN: no instruction sees it in a source register, and every result fills it (R90, R93, R94). -/

namespace Sys2Proof.Proofs

open Sys2Proof.Machine Sys2Proof.Laws

/-! ## States that differ in register bits above a width -/

section Agree

variable {x : Xlen} {s t : State} (h : AgreeBelow x s t)

include h

/-- What is computed without the integer registers is the same in both states. -/
theorem agree_eq {α : Type} (g : State → α) (hg : ∀ (s : State) r, g { s with regs := r } = g s) : g t = g s := by
  rw [h.1, hg]

theorem agree_priv : t.priv = s.priv := agree_eq h State.priv fun _ _ => rfl

theorem agree_draws : t.draws = s.draws := agree_eq h State.draws fun _ _ => rfl

theorem agree_xlen : t.xlen = s.xlen := agree_eq h State.xlen fun _ _ => rfl

/-- An update that neither reads nor writes the integer registers keeps the agreement. -/
theorem agree_update (f : State → State) (hf : ∀ (s : State) r, f { s with regs := r } = { f s with regs := r }) :
    AgreeBelow x (f s) (f t) := by
  have hregs : ∀ u, (f u).regs = u.regs := fun u => by
    have hu : f u = { f u with regs := u.regs } := hf u u.regs
    rw [hu]
  refine ⟨?_, fun j => ?_⟩
  · rw [hregs, ← hf, ← h.1]
  · rw [Fields.readReg_congr (hregs t), Fields.readReg_congr (hregs s)]
    exact h.2 j

theorem agree_jump (v : Word) : AgreeBelow x (s.jump v) (t.jump v) := agree_update h (·.jump v) fun _ _ => rfl

theorem agree_advance : AgreeBelow x s.advance t.advance := agree_update h State.advance fun _ _ => rfl

theorem agree_draw : AgreeBelow x s.draw t.draw := agree_update h State.draw fun _ _ => rfl

theorem agree_writeWord (pa : Nat) (v : BitVec 32) : AgreeBelow x (s.writeWord pa v) (t.writeWord pa v) :=
  agree_update h (·.writeWord pa v) fun _ _ => rfl

theorem agree_writeCsr (c : Csr) (v : Word) : AgreeBelow x (s.writeCsr c v) (t.writeCsr c v) :=
  agree_update h (·.writeCsr c v) fun _ _ => by cases c <;> rfl

theorem agree_writeReg (i : RegIdx) (v : Word) : AgreeBelow x (s.writeReg i v) (t.writeReg i v) := by
  refine ⟨?_, fun j => ?_⟩
  · rw [h.1]
    unfold State.writeReg
    split <;> rfl
  · by_cases hj : j = i
    · subst hj
      by_cases h0 : j = 0#5
      · rw [h0, readReg_zero, readReg_zero]
      · rw [readReg_writeReg_same _ _ h0, readReg_writeReg_same _ _ h0]
    · rw [readReg_writeReg_other _ _ hj, readReg_writeReg_other _ _ hj]
      exact h.2 j

/-- The same result, written by both states, leaves them in agreement. -/
theorem agree_finish (rd : RegIdx) (v : Word) : AgreeBelow x (s.finish rd v) (t.finish rd v) := by
  have hv : t.widen v = s.widen v := agree_eq h (·.widen v) fun _ _ => rfl
  unfold State.finish State.wrx
  rw [hv]
  exact agree_advance (agree_writeReg h rd _)

/-! ## Traps and accesses of such states -/

theorem agree_takeTrap (c : Cause) (tval : Word) : OutcomesAgree x (takeTrap c tval s) (takeTrap c tval t) := by
  have htarget : t.trapTarget c = s.trapTarget c := agree_eq h (·.trapTarget c) fun _ _ => rfl
  have hvector : trapVector t.sxlen t.stvec c = trapVector s.sxlen s.stvec c :=
    agree_eq h (fun u => trapVector u.sxlen u.stvec c) fun _ _ => rfl
  unfold takeTrap
  rw [htarget, hvector]
  cases s.trapTarget c with
  | toM => rfl
  | toS =>
    cases trapVector s.sxlen s.stvec c with
    | none => rfl
    | some handler => exact agree_update h (·.enterTrap c tval handler) fun _ _ => rfl

theorem agree_raiseIllegal (w : InstrWord) : OutcomesAgree x (raiseIllegal w s) (raiseIllegal w t) := by
  unfold raiseIllegal
  rw [agree_draws h]
  exact agree_takeTrap (agree_draw h) _ _

/-- From the same access both states go on, trap or are refused alike. -/
theorem agree_andThen {α : Type} (a : Access α) {k l : α → Host.Outcome State Fault Refusal}
    (hk : ∀ v, OutcomesAgree x (k v) (l v)) : OutcomesAgree x (a.andThen s k) (a.andThen t l) := by
  cases a with
  | ok v => exact hk v
  | raise e tval => exact agree_takeTrap h _ _
  | refuse r => rfl

/-- A CSR instruction with the same operand: the same check, the same old value, the same value written. -/
theorem agree_csrAccess (i : Instr) (op : CsrOp) (rd : RegIdx) (a : CsrAddr) (operand : Word) (writes : Bool) :
    OutcomesAgree x (csrAccess i op rd a operand writes s) (csrAccess i op rd a operand writes t) := by
  have hcheck : t.csrCheck a writes = s.csrCheck a writes := agree_eq h (·.csrCheck a writes) fun _ _ => rfl
  unfold csrAccess
  rw [hcheck]
  cases s.csrCheck a writes with
  | illegal => exact agree_raiseIllegal h _
  | refuse r => rfl
  | ok c =>
    have hread : t.readCsr c = s.readCsr c := agree_eq h (·.readCsr c) fun _ _ => by cases c <;> rfl
    simp only [hread]
    cases writes with
    | false => exact agree_finish h rd _
    | true => exact agree_finish (agree_writeCsr h c _) rd _

end Agree

/-! ## The instructions -/

/-- SW by its access: the physical address, then the word written there. -/
theorem execSw_eq (s : State) (rs2 rs1 : RegIdx) (imm : BitVec 12) : execSw rs2 rs1 imm s =
    (s.access .store (s.effAddr rs1 imm) 4).andThen s fun pa => .next (s.writeWord pa ((s.rdx rs2).setWidth 32)).advance := by
  unfold execSw State.storeWord
  cases s.access .store (s.effAddr rs1 imm) 4 <;> rfl

section Instructions

variable {s t : State} (h : AgreeBelow s.xlen s t)

include h

/-- An instruction sees the same of a source register in both states (R94). -/
theorem agree_rdx (i : RegIdx) : t.rdx i = s.rdx i := by
  unfold State.rdx
  rw [agree_xlen h]
  exact low_congr (h.2 i)

theorem agree_effAddr (rs1 : RegIdx) (imm : BitVec 12) : t.effAddr rs1 imm = s.effAddr rs1 imm := by
  unfold State.effAddr
  rw [agree_xlen h, agree_rdx h]

theorem agree_execLw (rd rs1 : RegIdx) (imm : BitVec 12) :
    OutcomesAgree s.xlen (execLw rd rs1 imm s) (execLw rd rs1 imm t) := by
  have hload : ∀ ea, t.loadWord ea = s.loadWord ea := fun ea => agree_eq h (·.loadWord ea) fun _ _ => rfl
  unfold execLw
  rw [agree_effAddr h, hload]
  exact agree_andThen h _ fun v => agree_finish h rd _

theorem agree_execSw (rs2 rs1 : RegIdx) (imm : BitVec 12) :
    OutcomesAgree s.xlen (execSw rs2 rs1 imm s) (execSw rs2 rs1 imm t) := by
  have haccess : ∀ ea, t.access .store ea 4 = s.access .store ea 4 := fun ea => agree_eq h (·.access .store ea 4) fun _ _ => rfl
  rw [execSw_eq, execSw_eq, agree_effAddr h, haccess, agree_rdx h]
  exact agree_andThen h _ fun pa => agree_advance (agree_writeWord h pa _)

theorem agree_execBne (rs1 rs2 : RegIdx) (offset : BitVec 13) :
    OutcomesAgree s.xlen (execBne rs1 rs2 offset s) (execBne rs1 rs2 offset t) := by
  have htarget : low t.xlen (t.pcLow + imm13 offset) = low s.xlen (s.pcLow + imm13 offset) :=
    agree_eq h (fun u => low u.xlen (u.pcLow + imm13 offset)) fun _ _ => rfl
  unfold execBne
  simp only [agree_rdx h, htarget]
  split
  · split
    · exact agree_takeTrap h _ _
    · exact agree_jump h _
  · exact agree_advance h

theorem agree_execWfi : OutcomesAgree s.xlen (execWfi s) (execWfi t) := by
  unfold execWfi
  rw [agree_priv h, agree_draws h]
  cases s.priv with
  | u =>
    simp only
    split
    · exact agree_raiseIllegal (agree_draw h) _
    · exact agree_advance (agree_draw h)
  | s => exact agree_advance h
  | m => exact agree_advance h

/-- Every instruction, by its meaning: its operands are the same in both states, and so is what it does with them. -/
theorem agree_exec (i : Instr) : OutcomesAgree s.xlen (exec i s) (exec i t) := by
  cases i with
  | csrrw rd csr rs1 => simpa only [exec, execCsrrw, agree_rdx h] using agree_csrAccess h ..
  | csrrs rd csr rs1 => simpa only [exec, execCsrrs, agree_rdx h] using agree_csrAccess h ..
  | csrrc rd csr rs1 => simpa only [exec, execCsrrc, agree_rdx h] using agree_csrAccess h ..
  | csrrwi rd csr uimm => exact agree_csrAccess h ..
  | csrrsi rd csr uimm => exact agree_csrAccess h ..
  | csrrci rd csr uimm => exact agree_csrAccess h ..
  | ecall =>
    simp only [exec, execEcall, agree_priv h]
    cases s.priv <;> exact agree_takeTrap h _ _
  | ebreak =>
    have htval : (if Config.ebreakTvalIsPc t.draws then t.pcLow else 0#64) =
        if Config.ebreakTvalIsPc s.draws then s.pcLow else 0#64 :=
      agree_eq h (fun u => if Config.ebreakTvalIsPc u.draws then u.pcLow else 0#64) fun _ _ => rfl
    simp only [exec, execEbreak, htval]
    exact agree_takeTrap (agree_draw h) _ _
  | sret =>
    have hret : AgreeBelow s.xlen s.leaveTrap t.leaveTrap := agree_update h State.leaveTrap fun _ _ => rfl
    simp only [exec, execSret, agree_priv h]
    cases s.priv with
    | u => exact agree_raiseIllegal h _
    | s => exact hret
    | m => exact hret
  | mret =>
    simp only [exec, execMret, agree_priv h]
    cases s.priv with
    | u => exact agree_raiseIllegal h _
    | s => exact agree_raiseIllegal h _
    | m => rfl
  | wfi => exact agree_execWfi h
  | sfenceVma rs1 rs2 =>
    simp only [exec, execSfenceVma, agree_priv h]
    cases s.priv with
    | u => exact agree_raiseIllegal h _
    | s => exact agree_advance h
    | m => exact agree_advance h
  | lui rd imm => exact agree_finish h rd _
  | addi rd rs1 imm =>
    simp only [exec, execAddi, agree_rdx h]
    exact agree_finish h rd _
  | add rd rs1 rs2 =>
    simp only [exec, execAdd, agree_rdx h]
    exact agree_finish h rd _
  | lw rd rs1 imm => exact agree_execLw h rd rs1 imm
  | sw rs2 rs1 imm => exact agree_execSw h rs2 rs1 imm
  | bne rs1 rs2 offset => exact agree_execBne h rs1 rs2 offset

end Instructions

/-- Settles O44: the operands of every instruction are the same in both states, and the same result written leaves them in
agreement. -/
theorem upperRegisterBitsAreIgnored : Obligations.UpperRegisterBitsAreIgnored := by
  unfold Obligations.UpperRegisterBitsAreIgnored
  exact fun i _ _ h => agree_exec h i

/-! ## Results -/

/-- A register that an instruction's one result changes holds the result, filled: `x0` cannot change. -/
theorem regTakes_changed {s t : State} {rd j : RegIdx} {n : Nat} (h : RegTakes s t rd n) (hne : t.readReg j ≠ s.readReg j) :
    (t.readReg j).toNat = filled s.wlen s.xlen n := by
  obtain ⟨hresult, -, hother⟩ := h
  have hj : j = rd := by
    by_contra hj
    exact hne (hother j hj)
  subst hj
  refine hresult fun h0 => hne ?_
  rw [h0, readReg_zero, readReg_zero]

/-- After a write to a CSR, made from S-mode or M-mode, a result still fills its register at the width before the write. -/
theorem writeCsr_finish_regTakes {s : State} (hp : s.priv ≠ .u) (c : Csr) (w : Word) (rd : RegIdx) (v : Word) :
    RegTakes s ((s.writeCsr c w).finish rd v) rd v.toNat := by
  simpa only [RegTakes, Fields.writeCsr_wlen, Fields.writeCsr_xlen s c w hp, Fields.writeCsr_readReg] using
    finish_regTakes (s.writeCsr c w) rd v

/-- Settles O45: of the shapes of an instruction's next state only those with a result change a register, and the result fills it. -/
theorem resultsFillTheRegister : Obligations.ResultsFillTheRegister := by
  unfold Obligations.ResultsFillTheRegister
  intro i s t j he hne
  cases exec_shape he with
  | trap e tval raises can ht entry => exact absurd (ht.regs j) hne
  | finish rd v e => exact ⟨_, regTakes_changed (e ▸ finish_regTakes s rd v) hne⟩
  | csr rd c w parts mode e => exact ⟨_, regTakes_changed (e ▸ writeCsr_finish_regTakes mode c w rd _) hne⟩
  | store rs2 rs1 imm pa v sw e => exact absurd (by simp [e]) hne
  | move v e aligned => exact absurd (by simp [e]) hne
  | wait e => exact absurd (by simp [e]) hne
  | ret sret mode e => exact absurd (by simp [e]) hne

end Sys2Proof.Proofs
end

section
/-! SUPPORT. The six CSR instructions as one access (R100 to R107), the fields a write of `sstatus` sets (R109), and what an instruction
run in U-mode can do (R108, R184). -/

namespace Sys2Proof.Proofs

open Sys2Proof.Machine Sys2Proof.Laws

variable {s : State}

/-! ## The checks of R100, from their conditions -/

theorem csrHeld_csrAddress (c : Csr) : csrHeld (csrAddress c) = some c := by cases c <;> decide

/-- The registers held are supervisor registers that can be written: the mode and read-only checks turn away U-mode alone. -/
theorem csrForbidden_csrAddress {p : Priv} (hp : p ≠ .u) (c : Csr) (writes : Bool) :
    csrForbidden (csrAddress c) p writes = false := by
  cases p with
  | u => exact absurd rfl hp
  | s | m => cases c <;> cases writes <;> decide

/-- A register held, from a mode that may access it, passes the checks (R108, R111). -/
theorem csrCheck_of_permitted (h : s.CsrPermitted) (c : Csr) (writes : Bool) : s.csrCheck (csrAddress c) writes = .ok c := by
  have hmode : s.priv ≠ .u ∧ ¬ (s.priv = .m ∧ s.wlen ≠ s.sxlen) := by
    obtain hs | ⟨hm, hw⟩ := h
    · simp [hs]
    · simp [hm, hw]
  simp [State.csrCheck, csrHeld_csrAddress, csrForbidden_csrAddress hmode.1, hmode.2]

/-- A register held, from an M-mode wider than it, is refused (R111). -/
theorem csrCheck_of_wider (hm : s.priv = .m) (hw : s.wlen ≠ s.sxlen) (c : Csr) (writes : Bool) :
    s.csrCheck (csrAddress c) writes = .refuse .csrFromWiderMMode := by
  have hforbidden : csrForbidden (csrAddress c) .m writes = false := csrForbidden_csrAddress (by decide) c writes
  simp [State.csrCheck, csrHeld_csrAddress, hforbidden, hm, hw]

/-- A permitted access to a register that is listed and not described is refused (R36). -/
theorem csrCheck_of_listed {a : CsrAddr} {writes : Bool} (hn : csrHeld a = none) (hl : csrListed a = true)
    (hf : csrForbidden a s.priv writes = false) : s.csrCheck a writes = .refuse (.csrNotSpecified a) := by
  simp [State.csrCheck, hn, hl, hf]

/-- What R100 turns away is illegal, whether or not the address names a register. -/
theorem csrCheck_of_illegal {a : CsrAddr} {writes : Bool} (h : s.CsrIllegal a writes) : s.csrCheck a writes = .illegal := by
  obtain ⟨hn, hl⟩ | hf := h
  · simp [State.csrCheck, hn, hl]
  · rw [← csrForbidden_iff] at hf
    cases hh : csrHeld a with
    | none => simp [State.csrCheck, hh, hf]
    | some c => simp [State.csrCheck, hh, hf]

/-! ## The six instructions as one access -/

theorem csrNew_set_getLsbD (old m : Word) (k : Nat) : (csrNew .set old m).getLsbD k = (old.getLsbD k || m.getLsbD k) :=
  BitVec.getLsbD_or

theorem csrNew_clear_getLsbD (old m : Word) {k : Nat} (hk : k < 64) :
    (csrNew .clear old m).getLsbD k = (old.getLsbD k && !m.getLsbD k) := by
  rw [csrNew, BitVec.getLsbD_and, BitVec.getLsbD_not, decide_eq_true hk, Bool.true_and]

/-- What a CSR instruction writes has the bits of R101 to R106. -/
def WritesAsRuled (s : State) (i : Instr) (op : CsrOp) (operand : Word) : Prop :=
  ∀ (old : Word) (k : Nat), k < 64 → (csrNew op old operand).getLsbD k = csrWritesBit s i old k

theorem immZero_getLsbD (uimm : BitVec 5) {k : Nat} (hk : k < 64) : (immZero uimm).getLsbD k = uimm.toNat.testBit k := by
  rw [immZero, BitVec.getLsbD_setWidth, decide_eq_true hk, Bool.true_and, BitVec.getLsbD]

/-- Each of the six instructions is the common access, of its own register and operand (R107). -/
theorem exec_eq_csrAccess {i : Instr} {rd : RegIdx} {a : CsrAddr} {writes : Bool} (h : csrParts i = some (rd, a, writes)) (s : State) :
    ∃ op operand, exec i s = csrAccess i op rd a operand writes s ∧ WritesAsRuled s i op operand := by
  cases i with
  | csrrw rd csr rs1 =>
    cases h
    exact ⟨.replace, s.rdx rs1, rfl, fun old k _ => rdx_getLsbD s rs1 k⟩
  | csrrs rd csr rs1 =>
    rw [csrParts, decide_ne_eq] at h
    cases h
    exact ⟨.set, s.rdx rs1, rfl, fun old k _ => by rw [csrNew_set_getLsbD, rdx_getLsbD, csrWritesBit]⟩
  | csrrc rd csr rs1 =>
    rw [csrParts, decide_ne_eq] at h
    cases h
    exact ⟨.clear, s.rdx rs1, rfl, fun old k hk => by rw [csrNew_clear_getLsbD _ _ hk, rdx_getLsbD, csrWritesBit]⟩
  | csrrwi rd csr uimm =>
    cases h
    exact ⟨.replace, immZero uimm, rfl, fun old k hk => immZero_getLsbD uimm hk⟩
  | csrrsi rd csr uimm =>
    rw [csrParts, decide_ne_eq] at h
    cases h
    exact ⟨.set, immZero uimm, rfl, fun old k hk => by rw [csrNew_set_getLsbD, immZero_getLsbD _ hk, csrWritesBit]⟩
  | csrrci rd csr uimm =>
    rw [csrParts, decide_ne_eq] at h
    cases h
    exact ⟨.clear, immZero uimm, rfl, fun old k hk => by rw [csrNew_clear_getLsbD _ _ hk, immZero_getLsbD _ hk, csrWritesBit]⟩
  | _ => cases h

section Access

variable {i : Instr} {op : CsrOp} {rd : RegIdx} {a : CsrAddr} {operand : Word} {writes : Bool}

theorem csrAccess_of_illegal (h : s.csrCheck a writes = .illegal) :
    csrAccess i op rd a operand writes s = raiseIllegal (encode i) s := by
  rw [csrAccess, h]

theorem csrAccess_of_refuse {r : Refusal} (h : s.csrCheck a writes = .refuse r) :
    csrAccess i op rd a operand writes s = .refused r := by
  rw [csrAccess, h]

theorem csrAccess_read {c : Csr} (h : s.csrCheck a false = .ok c) :
    csrAccess i op rd a operand false s = .next (s.finish rd (s.readCsr c)) := by
  rw [csrAccess, h]
  rfl

theorem csrAccess_write {c : Csr} (h : s.csrCheck a true = .ok c) : csrAccess i op rd a operand true s =
    .next ((s.writeCsr c (csrNew op (s.readCsr c) operand)).finish rd (s.readCsr c)) := by
  rw [csrAccess, h]
  rfl

end Access

/-- After a write to a CSR, made from S-mode or M-mode, the next pc is the one at the width before the write. -/
theorem writeCsr_finish_pcNext (hp : s.priv ≠ .u) (c : Csr) (w : Word) (rd : RegIdx) (v : Word) :
    PcNext s ((s.writeCsr c w).finish rd v) := by
  simpa only [PcNext, PcTakes, Fields.writeCsr_wlen, Fields.writeCsr_xlen s c w hp, Fields.writeCsr_pc] using
    finish_pcNext (s.writeCsr c w) rd v

theorem csrPermitted_not_u (h : s.CsrPermitted) : s.priv ≠ .u := by
  obtain hs | ⟨hm, -⟩ := h
  · simp [hs]
  · simp [hm]

/-- Settles O21: the access passes its checks, and then either only reads, or writes the register and then `rd`. -/
theorem csrInstructionsComplete : Obligations.CsrInstructionsComplete := by
  unfold Obligations.CsrInstructionsComplete
  intro s i rd c writes hparts hperm
  obtain ⟨op, operand, hexec, hbits⟩ := exec_eq_csrAccess hparts s
  have hcheck := csrCheck_of_permitted hperm c writes
  have hp := csrPermitted_not_u hperm
  rw [hexec]
  cases writes with
  | false =>
    obtain ⟨hcsrs, hmem, hsetup, hpriv, hdraws⟩ := finish_only s rd (s.readCsr c)
    exact ⟨_, csrAccess_read hcheck, finish_regTakes _ _ _, finish_pcNext _ _ _, hmem, hsetup, hpriv, hdraws, fun _ => hcsrs,
      nofun⟩
  | true =>
    obtain ⟨hcsrs, -⟩ := finish_only (s.writeCsr c (csrNew op (s.readCsr c) operand)) rd (s.readCsr c)
    have hwidth : s.sxlen.bits ≤ 64 := by cases s.sxlen <;> decide
    exact ⟨_, csrAccess_write hcheck, writeCsr_finish_regTakes hp _ _ _ _, writeCsr_finish_pcNext hp _ _ _ _, fun a => by simp,
      ⟨by simp, by simp⟩, by simp, by simp, nofun, fun _ => ⟨_, fun k hk => hbits _ k (by omega), hcsrs⟩⟩

/-- Settles O22: each clause is the condition of one answer of the checks. -/
theorem csrChecks : Obligations.CsrChecks := by
  unfold Obligations.CsrChecks
  intro s i rd a writes hparts
  obtain ⟨op, operand, hexec, -⟩ := exec_eq_csrAccess hparts s
  rw [hexec]
  refine ⟨fun hi hc => ?_, fun hn hl hmode hwrite => ?_, ?_⟩
  · rw [csrAccess_of_illegal (csrCheck_of_illegal hi)]
    exact raiseIllegal_of_can _ hc
  · have hf : ¬ csrForbidden a s.priv writes = true := by
      rw [csrForbidden_iff]
      exact not_or.2 ⟨by omega, hwrite⟩
    exact csrAccess_of_refuse (csrCheck_of_listed hn hl (by simpa using hf))
  · rintro c rfl hm hw
    exact csrAccess_of_refuse (csrCheck_of_wider hm hw c writes)

/-! ## A write of sstatus -/

/-- Either width keeps the low 32 bits of a written value. -/
theorem low_getLsbD_of_lt (x : Xlen) (w : Word) {k : Nat} (hk : k < 32) : (low x w).getLsbD k = w.getLsbD k := by
  have hx : 32 ≤ x.bits := by cases x <;> decide
  rw [low_getLsbD, decide_eq_true (by omega : k < x.bits), Bool.true_and]

/-- The written FS, which lies at the same bits for both widths (R25). -/
theorem low_fs_toNat (x : Xlen) (w : Word) : ((low x w).extractLsb' 13 2).toNat = w.toNat / 2 ^ 13 % 4 := by
  rw [BitVec.extractLsb'_toNat, Nat.shiftRight_eq_div_pow, low_toNat, seen]
  have hw := w.isLt
  cases x <;> simp only [Xlen.bits] <;> omega

/-- A written UXL of 1 or 2 is taken (log entry 11). -/
theorem uxlLegal_of_code (old : Xlen) {w : Word} {x : Xlen} (h : w.toNat / 2 ^ 32 % 4 = (uxlCode x).toNat) :
    uxlLegal old (w.extractLsb' 32 2) = x := by
  have hfield : (w.extractLsb' 32 2).toNat = (uxlCode x).toNat := by
    rw [BitVec.extractLsb'_toNat, Nat.shiftRight_eq_div_pow]
    exact h
  cases x with
  | x32 =>
    have h1 : w.extractLsb' 32 2 = 1#2 := BitVec.eq_of_toNat_eq hfield
    simp [uxlLegal, h1]
  | x64 =>
    have h2 : w.extractLsb' 32 2 = 2#2 := BitVec.eq_of_toNat_eq hfield
    simp [uxlLegal, h2]

/-- UXL after a write, where it can be written. -/
theorem writeCsr_sstatus_uxl {w : Word} {x : Xlen} (hx : s.sxlen = .x64) (hw : s.cfg.uxlWritable = true)
    (h : w.toNat / 2 ^ 32 % 4 = (uxlCode x).toNat) : (s.writeCsr .sstatus w).sstatus.uxl = x := by
  have hl : low s.sxlen w = w := by rw [hx]; rfl
  simp only [State.writeCsr, Sstatus.write, ← State.sxlen.eq_1, hl]
  rw [if_pos ⟨hx, hw⟩, uxlLegal_of_code _ h]

/-- Settles O24, field by field. -/
theorem sstatusWrite : Obligations.SstatusWrite := by
  unfold Obligations.SstatusWrite
  intro s w
  have hbit : ∀ {k : Nat}, k < 32 → (low s.sxlen w).getLsbD k = w.getLsbD k := fun hk => low_getLsbD_of_lt _ w hk
  refine ⟨rfl, hbit (by decide), hbit (by decide), hbit (by decide), hbit (by decide), hbit (by decide), rfl, fun hf => ?_,
    fun hf => ?_, fun hu => ⟨?_, ?_⟩, fun hu => ⟨?_, ?_⟩, fun hx => if_neg hx,
    writeCsr_sstatus_uxl (x := .x32), writeCsr_sstatus_uxl (x := .x64)⟩
  · exact (congrArg BitVec.toNat (if_pos hf)).trans (low_fs_toNat _ w)
  · exact if_neg (by simp [hf])
  · exact (if_pos hu).trans (hbit (by decide))
  · exact (if_pos hu).trans (hbit (by decide))
  · exact if_neg (by simp [hu])
  · exact if_neg (by simp [hu])

/-! ## User mode -/

/-- A store changes no supervisor register. -/
theorem store_csrsKept (s : State) (pa : Nat) (v : BitVec 32) : CsrsKept s (s.writeWord pa v).advance := by
  constructor <;> simp

/-- Settles O51: of the shapes of an instruction's next state, a CSR access that goes on and a return are not U-mode's, and the others
but the trap keep the mode and every supervisor register. -/
theorem userModeKeepsSupervisorState : Obligations.UserModeKeepsSupervisorState := by
  unfold Obligations.UserModeKeepsSupervisorState
  intro i s t hu he
  cases exec_shape he with
  | trap e tval raises can ht entry =>
    exact .inr ⟨ht.priv, ht.stvec, ht.sie, ht.sip, ht.sscratch, ht.satp, by rw [ht.sstatus], by rw [ht.sstatus], ht.regs, ht.mem⟩
  | finish rd v e =>
    subst e
    obtain ⟨hcsrs, -, hsetup, hpriv, -⟩ := finish_only s rd v
    exact .inl ⟨hpriv.trans hu, hcsrs, hsetup⟩
  | csr rd c w parts mode e => exact absurd hu mode
  | store rs2 rs1 imm pa v sw e =>
    subst e
    exact .inl ⟨by simpa using hu, store_csrsKept s pa v, by simp [SetupKept]⟩
  | move v e aligned =>
    subst e
    obtain ⟨-, hcsrs, -, hsetup, hpriv, -⟩ := jump_only s v
    exact .inl ⟨hpriv.trans hu, hcsrs, hsetup⟩
  | wait e =>
    subst e
    exact .inl ⟨hu, ⟨rfl, rfl, rfl, rfl, rfl, rfl, rfl, rfl, rfl⟩, rfl, rfl⟩
  | ret sret mode e => exact absurd hu mode

end Sys2Proof.Proofs
end

section
/-! SUPPORT. The privileged instructions by the mode they run in: ECALL, EBREAK, SRET, MRET, WFI and SFENCE.VMA trap, are refused, return
from a trap or go to the next word (R120 to R126). -/

namespace Sys2Proof.Proofs

open Sys2Proof.Machine Sys2Proof.Laws

variable {s : State}

/-! ## Exceptions by where their trap goes -/

/-- From M-mode every trap goes to M-mode, which is refused (R175). -/
theorem takeTrap_of_m (hp : s.priv = .m) (c : Cause) (tval : Word) : takeTrap c tval s = .refused .trapToMMode := by
  simp [takeTrap, State.trapTarget, hp]

/-- An exception that is delegated is taken, with no draw. -/
theorem raiseExc_of_can {e : Exc} (tval : Word) (h : s.CanTrap (.exc e)) :
    ∃ t, raiseExc e tval s = .next t ∧ Trapped s t (excCode e) false tval.toNat ∧ t.draws = s.draws := by
  obtain ⟨v, hv, ht⟩ := takeTrap_of_can tval h
  exact ⟨_, hv, ht, Fields.enterTrap_draws s _ _ v⟩

/-! ## The instructions by mode -/

theorem exec_ecall_of_u (hp : s.priv = .u) : exec .ecall s = raiseExc .ecallFromU 0#64 s := by simp only [exec, execEcall, hp]

theorem exec_ecall_of_s (hp : s.priv = .s) : exec .ecall s = raiseExc .ecallFromS 0#64 s := by simp only [exec, execEcall, hp]

theorem exec_ecall_of_m (hp : s.priv = .m) : exec .ecall s = raiseExc .ecallFromM 0#64 s := by simp only [exec, execEcall, hp]

theorem exec_sret_of_u (hp : s.priv = .u) : exec .sret s = raiseIllegal (encode .sret) s := by simp only [exec, execSret, hp]

theorem exec_sret_of_not_u (hp : s.priv ≠ .u) : exec .sret s = .next s.leaveTrap := by
  cases h : s.priv with
  | u => exact absurd h hp
  | s | m => simp only [exec, execSret, h]

theorem exec_mret_of_not_m (hp : s.priv ≠ .m) : exec .mret s = raiseIllegal (encode .mret) s := by
  cases h : s.priv with
  | m => exact absurd h hp
  | u | s => simp only [exec, execMret, h]

theorem exec_mret_of_m (hp : s.priv = .m) : exec .mret s = .refused .mretInMMode := by simp only [exec, execMret, hp]

/-- In U-mode a draw decides whether WFI is illegal or completes (R124). -/
theorem exec_wfi_of_u (hp : s.priv = .u) :
    exec .wfi s = raiseIllegal (encode .wfi) s.draw ∨ exec .wfi s = .next s.draw.advance := by
  simp only [exec, execWfi, hp]
  exact ite_eq_or_eq _ _ _

theorem exec_wfi_of_not_u (hp : s.priv ≠ .u) : exec .wfi s = .next s.advance := by
  cases h : s.priv with
  | u => exact absurd h hp
  | s | m => simp only [exec, execWfi, h]

theorem exec_sfenceVma_of_u (hp : s.priv = .u) (rs1 rs2 : RegIdx) :
    exec (.sfenceVma rs1 rs2) s = raiseIllegal (encode (.sfenceVma rs1 rs2)) s := by
  simp only [exec, execSfenceVma, hp]

theorem exec_sfenceVma_of_not_u (hp : s.priv ≠ .u) (rs1 rs2 : RegIdx) : exec (.sfenceVma rs1 rs2) s = .next s.advance := by
  cases h : s.priv with
  | u => exact absurd h hp
  | s | m => simp only [exec, execSfenceVma, h]

/-! ## Environment call and breakpoint -/

/-- Settles O28: each mode raises its own exception, and from M-mode no trap is taken. -/
theorem ecallTraps : Obligations.EcallTraps := by
  unfold Obligations.EcallTraps
  refine fun s => ⟨fun hp hc => ?_, fun hp hc => ?_, fun hp => ?_⟩
  · rw [exec_ecall_of_u hp]
    exact raiseExc_of_can 0#64 hc
  · rw [exec_ecall_of_s hp]
    exact raiseExc_of_can 0#64 hc
  · rw [exec_ecall_of_m hp]
    exact takeTrap_of_m hp _ _

/-- Settles O29: the draw that chooses the trap value changes nothing the trap's description speaks of. -/
theorem ebreakTraps : Obligations.EbreakTraps := by
  unfold Obligations.EbreakTraps
  refine fun s => ⟨fun hc => ?_, fun hp => takeTrap_of_m (s := s.draw) hp _ _⟩
  obtain ⟨t, hexec, ht, -⟩ :=
    raiseExc_of_can (if Config.ebreakTvalIsPc s.draws then s.pcLow else 0#64) (canTrap_draw hc)
  refine ⟨t, _, hexec, trapped_of_draw ht, ?_⟩
  split
  · exact .inr (low_toNat _ _)
  · exact .inl rfl

/-! ## Returns from a trap -/

/-- The `SXLEN` bits of the pc after a return are those of `sepc`, its two low bits 0 (R122). -/
theorem leaveTrap_seen_pc (s : State) : seen s.sxlen s.leaveTrap.pc = seen s.sxlen s.sepc / 4 * 4 := by
  rw [Fields.leaveTrap_pc, seen, low_fill_toNat sxlen_le_wlen, filled_mod_self sxlen_le_wlen]
  exact seen_stvecBase s.sxlen s.sepc

/-- Settles O30: the return leaves `leaveTrap`, which changes the mode, three fields of `sstatus` and the pc. -/
theorem sretReturns : Obligations.SretReturns := by
  unfold Obligations.SretReturns
  refine fun s => ⟨fun hp => ?_, fun hp hc => ?_⟩
  · exact ⟨_, exec_sret_of_not_u hp, rfl, rfl, leaveTrap_seen_pc s, fun _ => rfl, fun _ => rfl, ⟨rfl, rfl⟩, rfl, rfl, rfl, rfl, rfl,
      rfl, rfl, rfl, rfl⟩
  · rw [exec_sret_of_u hp]
    exact raiseIllegal_of_can _ hc

/-- Settles O31: outside M-mode MRET is an illegal instruction. -/
theorem mretTrapsOrIsRefused : Obligations.MretTrapsOrIsRefused := by
  unfold Obligations.MretTrapsOrIsRefused
  refine fun s => ⟨fun hp hc => ?_, exec_mret_of_m⟩
  rw [exec_mret_of_not_m hp]
  exact raiseIllegal_of_can _ hc

/-! ## Wait and fence -/

/-- Settles O32: in U-mode each outcome of the draw is one of the two allowed, seen from the state before the draw. -/
theorem wfiCompletes : Obligations.WfiCompletes := by
  unfold Obligations.WfiCompletes
  refine fun s => ⟨fun hp => ⟨_, exec_wfi_of_not_u hp, advance_pcNext s, advance_only s⟩, fun hp hc => ?_⟩
  obtain hexec | hexec := exec_wfi_of_u hp
  · obtain ⟨t, tval, hraise, ht, hval⟩ := raiseIllegal_of_can (encode .wfi) (canTrap_draw hc)
    exact ⟨t, hexec.trans hraise, .inr ⟨tval, trapped_of_draw ht, hval⟩⟩
  · exact ⟨_, hexec, .inl ⟨advance_pcNext s.draw, fun _ => rfl, ⟨rfl, rfl, rfl, rfl, rfl, rfl, rfl, rfl, rfl⟩, fun _ => rfl,
      ⟨rfl, rfl⟩, rfl⟩⟩

/-- Settles O33: the fence is `advance`, and an illegal instruction in U-mode. -/
theorem sfenceVmaCompletes : Obligations.SfenceVmaCompletes := by
  unfold Obligations.SfenceVmaCompletes
  refine fun s rs1 rs2 => ⟨fun hp => ⟨_, exec_sfenceVma_of_not_u hp rs1 rs2, advance_pcNext s, advance_only s⟩, fun hp hc => ?_⟩
  rw [exec_sfenceVma_of_u hp]
  exact raiseIllegal_of_can _ hc

end Sys2Proof.Proofs
end

section
/-! SUPPORT. The base instructions by the common end they share: a register result, a completed store, a branch, or the exception of
the access or of the branch target (R140 to R145). -/

namespace Sys2Proof.Proofs

open Sys2Proof.Machine Sys2Proof.Laws

variable {s : State} {rd rs2 rs1 : RegIdx} {imm : BitVec 12}

/-! ## Instructions that write a register -/

/-- What a completed register instruction answers, for any number that is its result modulo `2^X`. -/
theorem finish_result {v : Word} {n : Nat} (h : seen s.xlen v = n % 2 ^ s.xlen.bits) :
    RegTakes s (s.finish rd v) rd n ∧ PcNext s (s.finish rd v) ∧ OnlyRegsAndPc s (s.finish rd v) :=
  ⟨regTakes_congr (finish_regTakes s rd v) h, finish_pcNext s rd v, finish_only s rd v⟩

theorem seen_rdx (s : State) (i : RegIdx) : seen s.xlen (s.rdx i) = seen s.xlen (s.readReg i) := seen_low _ _

theorem plusImm_mod (x : Xlen) (n : Nat) (imm : Int) : plusImm x n imm % 2 ^ x.bits = plusImm x n imm :=
  Nat.mod_eq_of_lt (plusImm_lt x n imm)

/-- Settles O12: the result is U-imm as a number. -/
theorem luiResult : Obligations.LuiResult := by
  unfold Obligations.LuiResult
  intro s rd imm
  exact ⟨_, rfl, finish_result (by rw [seen, immUpper_toNat])⟩

/-- Settles O13: the machine's sum, seen at `X` bits, is `plusImm` of what is seen of the source. -/
theorem addiResult : Obligations.AddiResult := by
  unfold Obligations.AddiResult
  intro s rd rs1 imm
  exact ⟨_, rfl, finish_result (by rw [imm12, seen_add_signExtend (by decide), seen_rdx, plusImm_mod])⟩

/-- Settles O14: the machine's sum, seen at `X` bits, is the sum of what is seen of the sources. -/
theorem addResult : Obligations.AddResult := by
  unfold Obligations.AddResult
  intro s rd rs1 rs2
  exact ⟨_, rfl, finish_result (by rw [seen_add, seen_rdx, seen_rdx])⟩

/-! ## Loads and stores that complete -/

/-- The word a load reads, as the number of its four bytes (R44). -/
theorem readWord_toNat (s : State) (pa : Nat) :
    (s.readWord pa).toNat = wordNat (s.byteAt (s.phys pa 0)) (s.byteAt (s.phys pa 1)) (s.byteAt (s.phys pa 2))
      (s.byteAt (s.phys pa 3)) := wordOfBytes_toNat _ _ _ _

/-- Settles O16: the granted load ends in the word it read, sign-extended. -/
theorem lwResult : Obligations.LwResult := by
  unfold Obligations.LwResult
  intro s rd rs1 imm pa h
  exact ⟨_, exec_lw_of_ok h, finish_result (by rw [seen, signExtend_toNat, readWord_toNat]; rfl)⟩

/-- The bytes of the word that SW stores are the low four bytes of its source (R144). -/
theorem storedWord_byte_toNat (s : State) (i : RegIdx) {k : Nat} (hk : k < 4) :
    (((s.rdx i).setWidth 32).extractLsb' (8 * k) 8).toNat = (s.readReg i).toNat / 256 ^ k % 256 := by
  rw [BitVec.extractLsb'_toNat, storedWord_toNat, Nat.shiftRight_eq_div_pow]
  interval_cases k <;> omega

/-- Settles O17: the granted store writes four bytes of memory, and then only the pc moves. -/
theorem swResult : Obligations.SwResult := by
  unfold Obligations.SwResult
  intro s rs2 rs1 imm pa hpalen h
  refine ⟨_, exec_sw_of_ok h, fun k hk => ?_, fun a ha => ?_, store_pcNext s pa _, fun j => by simp, store_csrsKept s pa _,
    by simp [SetupKept], by simp, by simp⟩
  · rw [Fields.advance_byteAt, ← storedWord_byte_toNat s rs2 hk]
    exact congrArg BitVec.toNat (byteAt_writeWord_same s hpalen pa _ hk)
  · rw [Fields.advance_byteAt]
    exact byteAt_writeWord_other s pa _ a ha

/-! ## Loads and stores that fault -/

theorem ofNat_effAddrNat_toNat (s : State) (rs1 : RegIdx) (imm : BitVec 12) :
    (BitVec.ofNat 64 (effAddrNat s rs1 imm)).toNat = effAddrNat s rs1 imm := by
  rw [← effAddr_eq, State.effAddr, low_toNat, imm12, seen_add_signExtend (by decide), seen_rdx, effAddrNat]

/-- A load whose access raises with its own address traps with that address as trap value. -/
theorem exec_lw_traps {e : Exc} (hc : s.CanTrap (.exc e))
    (h : s.access .load (BitVec.ofNat 64 (effAddrNat s rs1 imm)) 4 = .raise e (BitVec.ofNat 64 (effAddrNat s rs1 imm))) :
    ∃ t, exec (.lw rd rs1 imm) s = .next t ∧ Trapped s t (excCode e) false (effAddrNat s rs1 imm) := by
  simpa only [ofNat_effAddrNat_toNat] using exec_lw_of_raise (rd := rd) h hc

/-- A store whose access raises with its own address traps with that address as trap value. -/
theorem exec_sw_traps {e : Exc} (hc : s.CanTrap (.exc e))
    (h : s.access .store (BitVec.ofNat 64 (effAddrNat s rs1 imm)) 4 = .raise e (BitVec.ofNat 64 (effAddrNat s rs1 imm))) :
    ∃ t, exec (.sw rs2 rs1 imm) s = .next t ∧ Trapped s t (excCode e) false (effAddrNat s rs1 imm) := by
  simpa only [ofNat_effAddrNat_toNat] using exec_sw_of_raise (rs2 := rs2) h hc

theorem exec_lw_of_refuse {r : Refusal} (h : s.access .load (BitVec.ofNat 64 (effAddrNat s rs1 imm)) 4 = .refuse r) :
    exec (.lw rd rs1 imm) s = .refused r := by
  rw [exec, execLw, effAddr_eq, State.loadWord, h]
  rfl

theorem exec_sw_of_refuse {r : Refusal} (h : s.access .store (BitVec.ofNat 64 (effAddrNat s rs1 imm)) 4 = .refuse r) :
    exec (.sw rs2 rs1 imm) s = .refused r := by
  rw [exec, execSw, effAddr_eq, State.storeWord, h]
  rfl

/-- Settles O18: an access that raises or is refused ends the instruction, and the checks of the access, in their order, say with which
code. -/
theorem lwSwFaultsTrap : Obligations.LwSwFaultsTrap := by
  unfold Obligations.LwSwFaultsTrap
  intro s rd rs2 rs1 imm va ea lwTraps swTraps
  have hchecks := fun kind => accessChecksInOrder s kind ea
  simp only [ea, va, seen_effAddrNat] at hchecks
  obtain ⟨hlmis, -, hlnone, hlpage, hlbare⟩ := hchecks .load
  obtain ⟨hsmis, -, hsnone, hspage, hsbare⟩ := hchecks .store
  refine ⟨fun e tval => ⟨exec_lw_of_raise, exec_sw_of_raise⟩, fun r => ⟨exec_lw_of_refuse, exec_sw_of_refuse⟩,
    fun ha hm => ⟨fun hc => ?_, fun hc => ?_⟩, fun ha hv hl => ⟨fun hc => ?_, fun hc => ?_⟩,
    fun ha hv => ⟨fun hr hc => ?_, fun hr hc => ?_⟩, fun l ha hv hl => ⟨fun hp hr hc => ?_, fun hp hr hc => ?_⟩⟩
  · exact exec_lw_traps hc (hlmis ha (.inr hm))
  · exact exec_sw_traps hc (hsmis ha (.inr hm))
  · exact exec_lw_traps hc (hlnone ha hv hl)
  · exact exec_sw_traps hc (hsnone ha hv hl)
  · exact exec_lw_traps hc ((hlbare ha hv).trans (by rw [hr]; rfl))
  · exact exec_sw_traps hc ((hsbare ha hv).trans (by rw [hr]; rfl))
  · exact exec_lw_traps hc (((hlpage l ha hv hl).2 hp).trans (by rw [hr]; rfl))
  · exact exec_sw_traps hc (((hspage l ha hv hl).2 hp).trans (by rw [hr]; rfl))

/-! ## Branches -/

/-- The address of a taken branch: `pc + offset`, modulo `2^X` (R145). -/
def branchTarget (s : State) (offset : BitVec 13) : Word := low s.xlen (s.pcLow + imm13 offset)

theorem branchTarget_toNat (s : State) (offset : BitVec 13) :
    (branchTarget s offset).toNat = plusImm s.xlen (seen s.xlen s.pc) offset.toInt := by
  rw [branchTarget, low_toNat, imm13, seen_add_signExtend (by decide), seen_pcLow]

/-- BNE compares what is seen of its sources. -/
theorem rdx_eq_iff (s : State) (i j : RegIdx) :
    s.rdx i = s.rdx j ↔ seen s.xlen (s.readReg i) = seen s.xlen (s.readReg j) := by
  rw [← rdx_toNat, ← rdx_toNat, BitVec.toNat_inj]

theorem exec_bne_of_eq (h : seen s.xlen (s.readReg rs1) = seen s.xlen (s.readReg rs2)) (offset : BitVec 13) :
    exec (.bne rs1 rs2 offset) s = .next s.advance :=
  if_neg (not_not_intro ((rdx_eq_iff s rs1 rs2).2 h))

theorem exec_bne_of_ne (h : seen s.xlen (s.readReg rs1) ≠ seen s.xlen (s.readReg rs2)) (offset : BitVec 13) :
    exec (.bne rs1 rs2 offset) s =
      if (branchTarget s offset).toNat % 4 ≠ 0 then raiseExc .instrMisaligned (branchTarget s offset) s
      else .next (s.jump (branchTarget s offset)) :=
  if_pos fun he => h ((rdx_eq_iff s rs1 rs2).1 he)

theorem jump_pcTakes (s : State) (v : Word) : PcTakes s (s.jump v) v.toNat := widen_toNat s v

/-- Settles O20: the comparison and the alignment of the target decide between `advance`, `jump` and the exception. -/
theorem bneResult : Obligations.BneResult := by
  unfold Obligations.BneResult
  intro s rs1 rs2 offset
  rw [← branchTarget_toNat]
  refine ⟨fun h => ?_, fun h ha => ?_, fun h ha hc => ?_⟩
  · exact ⟨_, exec_bne_of_eq h offset, advance_pcNext s, advance_only s⟩
  · exact ⟨_, (exec_bne_of_ne h offset).trans (if_neg (not_not_intro ha)), jump_pcTakes s _, jump_only s _⟩
  · obtain ⟨t, hraise, ht, -⟩ := raiseExc_of_can (branchTarget s offset) hc
    exact ⟨t, ((exec_bne_of_ne h offset).trans (if_pos ha)).trans hraise, ht⟩

end Sys2Proof.Proofs
end

section
/-! SUPPORT. Traps by their cause: where they go and what they leave (R161, R170, R172, R175), the return that undoes one (R176), and the
pc that both leave (log entry 18). -/

namespace Sys2Proof.Proofs

open Sys2Proof.Machine Sys2Proof.Laws

variable {s t : State}

/-! ## Causes and targets -/

/-- Settles O56: the codes one by one, and `scause` by its number. -/
theorem causeCodes : Obligations.CauseCodes := by
  unfold Obligations.CauseCodes
  refine ⟨⟨rfl, rfl, rfl, rfl, rfl, rfl, rfl, rfl, rfl, rfl, rfl, rfl, rfl, rfl⟩, ⟨rfl, rfl, rfl, rfl, rfl, rfl⟩,
    fun x e => ?_, fun x k => ?_⟩
  · simp [causeWord_toNat, causeIsIrq, causeCode]
  · simp [causeWord_toNat, causeIsIrq, causeCode]

/-- Outside M-mode the delegation decides where a trap goes (R175). -/
theorem trapTarget_toS_iff (s : State) (c : Cause) : s.trapTarget c = .toS ↔
    s.priv ≠ .m ∧ (if causeIsIrq c then s.cfg.intToS else s.cfg.excToS).getLsbD (causeCode c) = true := by
  unfold State.trapTarget
  cases s.priv <;> simp

theorem takeTrap_of_toM {c : Cause} (h : s.trapTarget c = .toM) (tval : Word) :
    takeTrap c tval s = .refused .trapToMMode := by
  rw [takeTrap, h]

/-- Settles O35: M-mode and the causes that are not delegated have M-mode as their target. -/
theorem trapTargets : Obligations.TrapTargets := by
  unfold Obligations.TrapTargets
  exact fun s c tval => ⟨fun hp => takeTrap_of_m hp c tval, trapTarget_toS_iff s c, fun h => takeTrap_of_toM h tval⟩

/-! ## Entry and return -/

/-- Settles O34: a trap that can be taken leaves `enterTrap`, which makes no draw. -/
theorem trapEntry : Obligations.TrapEntry := by
  unfold Obligations.TrapEntry
  intro s c tval hc
  obtain ⟨v, hv, ht⟩ := takeTrap_of_can tval hc
  exact ⟨_, hv, ht, Fields.enterTrap_draws s c tval v⟩

/-- What is seen at a width is seen through a wider one. -/
theorem seen_mod_of_wider {x y : Xlen} (h : y = .x32 → x = .x32) (v : Word) : seen y v % 2 ^ x.bits = seen x v := by
  have hle : x.bits ≤ y.bits := by
    cases y with
    | x32 => rw [h rfl]
    | x64 => cases x <;> decide
  exact Nat.mod_mod_of_dvd _ (pow_dvd_pow 2 hle)

/-- Clearing the two low bits and reducing to a width do not meet. -/
theorem clear_mod (x : Xlen) (n : Nat) : n / 4 * 4 % 2 ^ x.bits = n % 2 ^ x.bits / 4 * 4 := by
  cases x <;> simp only [Xlen.bits] <;> omega

/-- The pc saved by a trap, seen at the XLEN it was fetched with, is that pc, its two low bits 0 (R170, R174). -/
theorem trapped_seen_sepc {code : Nat} {isIrq : Bool} {tval : Nat} (h : Trapped s t code isIrq tval) (hp : s.priv ≠ .m) :
    seen s.xlen t.sepc = seen s.xlen s.pc / 4 * 4 := by
  rw [seen, h.sepc, clear_mod, filled_mod_self (xlen_le_sxlen hp), Nat.mod_eq_of_lt (seen_lt _ _)]

/-- The pc after a return, seen at a width that is not above SXLEN (R122). -/
theorem leaveTrap_seen_pc_of_narrower {x : Xlen} (h : s.sxlen = .x32 → x = .x32) :
    seen x s.leaveTrap.pc = seen x s.sepc / 4 * 4 := by
  rw [← seen_mod_of_wider h, leaveTrap_seen_pc, clear_mod, seen_mod_of_wider h]

/-- SPP holds the mode a trap came from, and so the return goes back to it. -/
theorem leaveTrap_enterTrap_priv (hp : s.priv ≠ .m) (c : Cause) (tval v : Word) :
    (s.enterTrap c tval v).leaveTrap.priv = s.priv := by
  cases h : s.priv with
  | m => exact absurd h hp
  | u | s => simp [Sstatus.onTrap, h]

/-- Settles O36: the trap saves the mode, SIE and the pc, and the return takes them from where they were saved. -/
theorem sretUndoesTrap : Obligations.SretUndoesTrap := by
  unfold Obligations.SretUndoesTrap
  intro s t c tval h
  obtain ⟨ht, -⟩ := takeTrap_trapped h
  obtain ⟨⟨-, htarget⟩, v, rfl, -⟩ := takeTrap_next h
  have hp := trapTarget_toS htarget
  have hpriv := leaveTrap_enterTrap_priv hp c tval v
  have hxlen : (s.enterTrap c tval v).leaveTrap.xlen = s.xlen := by
    simp only [State.xlen, State.xlenOf, hpriv, Fields.leaveTrap_uxlen, Fields.enterTrap_uxlen, Fields.leaveTrap_sxlen,
      Fields.enterTrap_sxlen, Fields.leaveTrap_wlen, Fields.enterTrap_wlen]
  refine ⟨_, exec_sret_of_not_u (by simp), hpriv, rfl, ?_, fun j => by simp, fun a => by simp⟩
  have hsxlen : (s.enterTrap c tval v).sxlen = .x32 → s.xlen = .x32 := by simpa using xlen_le_sxlen hp
  rw [hxlen, leaveTrap_seen_pc_of_narrower hsxlen, trapped_seen_sepc ht hp]
  omega

/-! ## The pc after a trap and after a return -/

/-- The pc of `t` is an `SXLEN`-bit address, extended by its top bit to the `WLEN` bits of `s`. -/
def PcExtended (s t : State) : Prop := t.pc.toNat = filled s.wlen s.sxlen t.pc.toNat

theorem filled_filled {w x : Xlen} (h : w = .x32 → x = .x32) (n : Nat) : filled w x (filled w x n) = filled w x n := by
  rw [← filled_mod w x (filled w x n), filled_mod_self h, filled_mod]

theorem pcExtended_of_fill {v : Word} (h : t.pc = low s.wlen (fill s.sxlen v)) : PcExtended s t := by
  rw [PcExtended, h, low_fill_toNat sxlen_le_wlen, filled_filled sxlen_le_wlen]

theorem enterTrap_pcExtended (s : State) (c : Cause) (tval v : Word) : PcExtended s (s.enterTrap c tval v) :=
  pcExtended_of_fill (Fields.enterTrap_pc s c tval v)

theorem leaveTrap_pcExtended (s : State) : PcExtended s s.leaveTrap := pcExtended_of_fill (Fields.leaveTrap_pc s)

theorem takeTrap_pcExtended {c : Cause} {tval : Word} (h : takeTrap c tval s = .next t) : PcExtended s t := by
  obtain ⟨-, v, rfl, -⟩ := takeTrap_next h
  exact enterTrap_pcExtended s c tval v

/-- An instruction that changes the mode traps or returns. -/
theorem exec_pcExtended {i : Instr} (h : exec i s = .next t) (hne : t.priv ≠ s.priv) : PcExtended s t := by
  cases exec_shape h with
  | trap e tval raises can ht entry =>
    obtain ⟨v, w, s', rfl, rfl | rfl | rfl, -⟩ := entry
    · exact enterTrap_pcExtended _ _ v w
    · exact enterTrap_pcExtended s.draw _ v w
    · exact enterTrap_pcExtended s.draw.draw _ v w
  | finish rd v e => exact absurd (by simp [e]) hne
  | csr rd c w parts mode e => exact absurd (by simp [e]) hne
  | store rs2 rs1 imm pa v sw e => exact absurd (by simp [e]) hne
  | move v e aligned => exact absurd (by simp [e]) hne
  | wait e => exact absurd (by simp [e]) hne
  | ret sret mode e => exact e ▸ leaveTrap_pcExtended s

/-- A step that changes the mode traps or returns, after the oracle's move. -/
theorem step_pcExtended (h : step s = .next t) (hne : t.priv ≠ s.priv) : PcExtended s.oracleMove t := by
  obtain ⟨-, ⟨k, v, -, -, rfl, -⟩ | ⟨-, e, tval, -, hx⟩ | ⟨i, -, hi⟩ | ⟨-, w, -, -, hw⟩⟩ := step_cases h
  · exact enterTrap_pcExtended s.oracleMove _ _ v
  · exact takeTrap_pcExtended hx
  · exact exec_pcExtended hi (by rwa [Fields.oracleMove_priv])
  · exact takeTrap_pcExtended (s := s.oracleMove.draw) hw

/-- Settles O55: every pc that a trap or a return leaves is made by the same extension. -/
theorem trapAndReturnExtendThePc : Obligations.TrapAndReturnExtendThePc := by
  unfold Obligations.TrapAndReturnExtendThePc
  refine fun s t => ⟨fun c tval => takeTrap_pcExtended, fun hp h => ?_, fun h hne => ?_⟩
  · rw [exec_sret_of_not_u hp] at h
    cases h
    exact leaveTrap_pcExtended s
  · simpa only [PcExtended, Fields.oracleMove_wlen, Fields.oracleMove_sxlen] using step_pcExtended h hne

end Sys2Proof.Proofs
end

section
/-! SUPPORT. Interrupts: which are ready, which is taken (R165, R180), and what the oracle moves (D25). -/

namespace Sys2Proof.Proofs

open Sys2Proof.Machine Sys2Proof.Laws

variable {s : State}

/-! ## The interrupt taken -/

/-- The modes in which the interrupts of `sip` can be taken (R180). -/
def IrqEnabled (s : State) : Prop := s.priv = .u ∨ (s.priv = .s ∧ s.sstatus.sie = true)

theorem irqReady_iff (s : State) (k : Irq) : s.irqReady k = true ↔
    s.sip.getLsbD (irqCode k) = true ∧ s.sie.getLsbD (irqCode k) = true ∧ IrqEnabled s := by
  unfold State.irqReady IrqEnabled
  cases s.priv <;> simp [and_assoc]

theorem irqTaken_eq_none (h : ∀ k, s.irqReady k = false) : s.irqTaken = none := by
  simp [State.irqTaken, h]

theorem irqTaken_eq_none_of_disabled (h : ¬ IrqEnabled s) : s.irqTaken = none := by
  refine irqTaken_eq_none fun k => Bool.eq_false_iff.2 fun hk => ?_
  obtain ⟨-, -, henabled⟩ := (irqReady_iff s k).1 hk
  exact h henabled

/-- Settles O10: a ready interrupt would be pending and enabled, in a mode that takes interrupts. -/
theorem noInterruptUnlessReady : Obligations.NoInterruptUnlessReady := by
  unfold Obligations.NoInterruptUnlessReady
  rintro s (hm | ⟨hs, hsie⟩ | hnone)
  · exact irqTaken_eq_none_of_disabled (by simp [IrqEnabled, hm])
  · exact irqTaken_eq_none_of_disabled (by simp [IrqEnabled, hs, hsie])
  · refine irqTaken_eq_none fun k => Bool.eq_false_iff.2 fun hk => ?_
    obtain ⟨hpending, henable, -⟩ := (irqReady_iff s k).1 hk
    have hbit := congrArg (·.getLsbD (irqCode k)) hnone
    simp [hpending, henable] at hbit

/-- Where every ready interrupt is delegated, the first ready one of the order is taken (R165). -/
theorem irqTaken_eq_first {before after : List Irq} {k : Irq} (ho : irqOrder = before ++ k :: after) (hk : s.irqReady k = true)
    (hbefore : ∀ j ∈ before, s.irqReady j = false) (hS : ∀ j, s.irqReady j = true → s.trapTarget (.irq j) = .toS) :
    s.irqTaken = some k := by
  have hready : (irqOrder.filter fun j => s.irqReady j) = k :: after.filter fun j => s.irqReady j := by
    rw [ho, List.filter_append, List.filter_eq_nil_iff.2 fun j hj => by simp [hbefore j hj], List.filter_cons_of_pos hk,
      List.nil_append]
  have hnotM : ((irqOrder.filter fun j => s.irqReady j).find? fun j => s.trapTarget (.irq j) == .toM) = none :=
    List.find?_eq_none.2 fun j hj => by simp [hS j (List.mem_filter.1 hj).2]
  rw [State.irqTaken, hnotM, hready]
  rfl

/-- Where a ready interrupt is not delegated, one that is not delegated is taken (log entry 10). -/
theorem irqTaken_of_undelegated {k : Irq} (hk : s.irqReady k = true) (hM : s.trapTarget (.irq k) = .toM) :
    ∃ j, s.irqTaken = some j ∧ s.trapTarget (.irq j) = .toM := by
  have hmem : k ∈ irqOrder.filter fun j => s.irqReady j := List.mem_filter.2 ⟨by cases k <;> decide, hk⟩
  cases hf : (irqOrder.filter fun j => s.irqReady j).find? fun j => s.trapTarget (.irq j) == .toM with
  | none => exact absurd (beq_iff_eq.2 hM) (List.find?_eq_none.1 hf k hmem)
  | some j => exact ⟨j, by rw [State.irqTaken, hf], by simpa using List.find?_some hf⟩

/-- With a legal `stvec.MODE` a step is what follows the oracle's move (I8). -/
theorem step_eq_stepBoundary (hm : s.stvec.toNat % 4 < 2) : step s = stepBoundary s.oracleMove := by
  rw [step, if_neg (by rw [stvecMode_toNat]; omega)]

theorem step_eq_irq {s0 : State} {k : Irq} (hm : s0.stvec.toNat % 4 < 2) (hs : s = s0.oracleMove) (hk : s.irqTaken = some k) :
    step s0 = takeTrap (.irq k) 0#64 s := by
  rw [step_eq_stepBoundary hm, ← hs, stepBoundary, hk]

/-- In a mode that takes interrupts the delegation decides where one goes (R175). -/
theorem irqTarget_toS_iff (h : IrqEnabled s) (k : Irq) : s.trapTarget (.irq k) = .toS ↔ s.cfg.intToS.getLsbD (irqCode k) = true := by
  have hp : s.priv ≠ .m := by
    obtain hu | ⟨hs, -⟩ := h
    · simp [hu]
    · simp [hs]
  rw [trapTarget_toS_iff]
  exact and_iff_right hp

theorem mem_irqCodes {n : Nat} : n ∈ [9, 1, 5, 8, 0, 4] ↔ ∃ k, irqCode k = n := by
  rw [← irqOrder_codes, List.mem_map]
  exact exists_congr fun k => and_iff_right (by cases k <;> decide)

/-- Settles O9: the bit numbers are the codes of the order, so the first ready bit is the first ready interrupt. -/
theorem readyInterruptIsTaken : Obligations.ReadyInterruptIsTaken := by
  unfold Obligations.ReadyInterruptIsTaken
  intro s0 s hm hs henabled
  have hmode : s.stvec.toNat % 4 < 2 := by rwa [hs, Fields.oracleMove_stvec]
  refine ⟨fun before after n ho hpending henable hbefore hS => ?_, fun n hn hpending henable hM => ?_⟩
  · rw [← irqOrder_codes] at ho
    obtain ⟨b, l, hbl, rfl, hl⟩ := List.map_eq_append_iff.1 ho
    obtain ⟨k, a, rfl, rfl, -⟩ := List.map_eq_cons_iff.1 hl
    have hready := (irqReady_iff s k).2 ⟨hpending, henable, henabled⟩
    have hfirst : ∀ j ∈ b, s.irqReady j = false := fun j hj => Bool.eq_false_iff.2 fun hr => by
      obtain ⟨hp, he, -⟩ := (irqReady_iff s j).1 hr
      simpa [hp, he] using hbefore _ (List.mem_map_of_mem hj)
    have hdelegated : ∀ j, s.irqReady j = true → s.trapTarget (.irq j) = .toS := fun j hr => by
      obtain ⟨hp, he, -⟩ := (irqReady_iff s j).1 hr
      exact (irqTarget_toS_iff henabled j).2 (hS _ (mem_irqCodes.2 ⟨j, rfl⟩) hp he)
    obtain ⟨v, hv, ht⟩ := takeTrap_of_can (s := s) (c := .irq k) 0#64 ⟨hmode, hdelegated k hready⟩
    exact ⟨_, (step_eq_irq hm hs (irqTaken_eq_first hbl hready hfirst hdelegated)).trans hv, ht⟩
  · obtain ⟨k, rfl⟩ := mem_irqCodes.1 hn
    have htoM : s.trapTarget (.irq k) = .toM := by
      cases h : s.trapTarget (.irq k) with
      | toS => simp [(irqTarget_toS_iff henabled k).1 h] at hM
      | toM => rfl
    obtain ⟨j, hj, hjM⟩ := irqTaken_of_undelegated ((irqReady_iff s k).2 ⟨hpending, henable, henabled⟩) htoM
    rw [step_eq_irq hm hs hj, takeTrap_of_toM hjM]

/-! ## The oracle's move -/

theorem oracleMove_of_nil (h : s.oracle = []) : s.oracleMove = s := by
  rw [State.oracleMove, h]

theorem oracleMove_of_cons {move : OracleMove} {rest : List OracleMove} (h : s.oracle = move :: rest) :
    s.oracleMove = { s with sip := move.foldl (setPending s.cfg) s.sip, oracle := rest } := by
  rw [State.oracleMove, h]

/-- The last change of a pending bit in a move wins, where the interrupt exists (log entry 24). -/
theorem setPending_foldl_last {cfg : Config} {k : Irq} (hk : (irqMask cfg).getLsbD (irqCode k) = true) (m : OracleMove)
    {m' : OracleMove} (b : Bool) (h : ∀ c ∈ m', c.1 ≠ k) (w : Word) :
    ((m ++ (k, b) :: m').foldl (setPending cfg) w).getLsbD (irqCode k) = b := by
  have hlt : irqCode k < 64 := by cases k <;> decide
  rw [List.foldl_append, List.foldl_cons, setPending_foldl_unnamed cfg m' h, setPending, if_pos hk, setBit_getLsbD _ _ _ hlt,
    if_pos rfl]

theorem irqMask_irqCode {cfg : Config} {k : Irq} (h : k = .ssi ∨ k = .sti ∨ k = .sei ∨ cfg.userInts = true) :
    (irqMask cfg).getLsbD (irqCode k) = true := by
  rw [irqMask_iff]
  obtain rfl | rfl | rfl | hu := h
  · exact .inl rfl
  · exact .inr (.inl rfl)
  · exact .inr (.inr (.inl rfl))
  · cases k <;> simp [hu, irqCode]

/-- Settles O11: with a move left it is the fold of the move's changes over `sip`, each of one bit that exists. -/
theorem oracleMovesPendingBitsOnly : Obligations.OracleMovesPendingBitsOnly := by
  unfold Obligations.OracleMovesPendingBitsOnly
  refine fun s => ⟨oracleMove_kept s, ?_, fun h => by rw [oracleMove_of_nil h], fun n hn => ?_, fun move rest k ho => ?_⟩
  · cases ho : s.oracle with
    | nil => rw [oracleMove_of_nil ho, ho]; rfl
    | cons move rest => rw [oracleMove_of_cons ho]; rfl
  · rw [← irqMask_iff, Bool.not_eq_true] at hn
    cases ho : s.oracle with
    | nil => rw [oracleMove_of_nil ho]
    | cons move rest =>
      rw [oracleMove_of_cons ho]
      exact setPending_foldl_other s.cfg move hn s.sip
  · rw [oracleMove_of_cons ho]
    refine ⟨fun h => setPending_foldl_unnamed s.cfg move h s.sip, ?_⟩
    rintro m m' b rfl h hk
    exact setPending_foldl_last (irqMask_irqCode hk) m b h s.sip

end Sys2Proof.Proofs
end

section
/-! SUPPORT. A handler in a page with U = 1: the trap that the hart takes again and again (R173, R177). -/

namespace Sys2Proof.Proofs

open Sys2Proof.Machine Sys2Proof.Laws

theorem run_succ {s t : State} (h : step s = .next t) (n : Nat) : Sys2Proof.core.run (n + 1) s = Sys2Proof.core.run n t := by
  have hcore : Sys2Proof.core.step s = .next t := h
  simp only [Host.Core.run, hcore]

/-- A property that every step from a state of it goes on with holds after any number of steps. -/
theorem run_of_step_keeps {P : State → Prop} (h : ∀ t, P t → ∃ u, step t = .next u ∧ P u) (n : Nat) {t : State} (ht : P t) :
    ∃ u, Sys2Proof.core.run n t = .next u ∧ P u := by
  induction n generalizing t with
  | zero => exact ⟨t, rfl, ht⟩
  | succ n ih =>
    obtain ⟨u, hstep, hu⟩ := h t ht
    obtain ⟨v, hrun, hv⟩ := ih hu
    exact ⟨v, (run_succ hstep n).trans hrun, hv⟩

/-- `t` is `s` again but for what the oracle and a trap change: it stands in S-mode, with SIE = 0, at the handler of a synchronous
exception of `s`. -/
structure AtHandler (s t : State) : Prop where
  cfg : t.cfg = s.cfg
  regs : t.regs = s.regs
  mem : t.mem = s.mem
  stvec : t.stvec = s.stvec
  satp : t.satp = s.satp
  priv : t.priv = .s
  sie : t.sstatus.sie = false
  pc : seen s.sxlen t.pc = s.stvec.toNat / 4 * 4

/-- The trap registers report the instruction page fault at the handler of `s`. -/
def ReportsHandlerFault (s t : State) : Prop := t.scause.toNat = 12 ∧ t.stval.toNat = s.stvec.toNat / 4 * 4

section Loop

variable {s t : State} {l : Leaf}

theorem atHandler_oracleMove (h : AtHandler s t) : AtHandler s t.oracleMove := by
  obtain ⟨hcfg, hregs, hmem, hstvec, hsatp, hpriv, hsie, hpc⟩ := h
  constructor <;> simpa

theorem atHandler_sxlen (h : AtHandler s t) : t.sxlen = s.sxlen := by rw [State.sxlen, h.cfg, State.sxlen]

/-- The trap for a synchronous exception, taken at the handler, leads to the handler (R170, R172). -/
theorem atHandler_enterTrap (h : AtHandler s t) (hw : s.stvec.toNat < 2 ^ s.sxlen.bits) {e : Exc} {tval v : Word}
    (ht : Trapped t (t.enterTrap (.exc e) tval v) (excCode e) false tval.toNat) : AtHandler s (t.enterTrap (.exc e) tval v) where
  cfg := h.cfg
  regs := h.regs
  mem := h.mem
  stvec := h.stvec
  satp := h.satp
  priv := rfl
  sie := rfl
  pc := by
    have hpc := ht.pc
    rw [handlerNat, atHandler_sxlen h, h.stvec, seen_of_lt hw] at hpc
    simpa using hpc

variable (hp : s.priv = .s) (hv : s.vmActive = true) (hl : s.pageLookup (s.stvec.toNat / 4 * 4) = some l) (hu : l.u = true)

include hp hv hl hu

/-- The fetch of the handler's first instruction faults whatever SUM is (R51). -/
theorem atHandler_fetch (h : AtHandler s t) :
    t.fetchWord = .raise .instrPageFault (low s.sxlen t.pc) := by
  have hx : t.xlen = s.sxlen := (xlen_of_s h.priv).trans (atHandler_sxlen h)
  have hpc : seen t.xlen t.pcLow = s.stvec.toNat / 4 * 4 := by rw [seen_pcLow, hx, h.pc]
  have hactive : t.vmActive = true := by
    rw [← hv, State.vmActive, State.vmActive, atHandler_sxlen h, h.satp, h.priv, hp]
  have hpage : t.pageLookup (seen t.xlen t.pcLow) = some l := by
    rw [hpc, ← hl, State.pageLookup, State.pageLookup, h.cfg, h.mem, h.satp]
  have hforbidden : ¬ PagePermits .fetch t.priv t.sstatus.sum t.sstatus.mxr l := h.priv ▸ not_pagePermits_user hu (.inl rfl)
  rw [State.fetchWord, access_forbidden (by rw [hpc, Nat.mul_mod_left]) hactive hpage hforbidden, State.pcLow, hx, low_low]
  rfl

/-- A step at the handler takes the page fault of its own fetch and stands at the handler again. -/
theorem atHandler_step (hc : s.CanTrap (.exc .instrPageFault)) (hw : s.stvec.toNat < 2 ^ s.sxlen.bits) (h : AtHandler s t) :
    ∃ u, step t = .next u ∧ AtHandler s u ∧ ReportsHandlerFault s u := by
  have hm := atHandler_oracleMove h
  obtain ⟨hmode, htarget⟩ := hc
  have hirq : t.oracleMove.irqTaken = none := noInterruptUnlessReady _ (.inr (.inl ⟨hm.priv, hm.sie⟩))
  have hcan : t.oracleMove.CanTrap (.exc .instrPageFault) := by
    refine ⟨by rwa [hm.stvec], ?_⟩
    rw [trapTarget_toS_iff] at htarget ⊢
    rwa [hm.cfg, hm.priv, ← hp]
  obtain ⟨v, htrap, ht⟩ := takeTrap_of_can (low s.sxlen t.oracleMove.pc) hcan
  refine ⟨_, ?_, atHandler_enterTrap hm hw ht, ht.scause, ?_⟩
  · rw [step_eq_fetch (by rwa [h.stvec]) hirq, atHandler_fetch hp hv hl hu hm]
    exact htrap
  · rw [ht.stval, low_toNat, hm.pc, atHandler_sxlen hm]
    exact Nat.mod_eq_of_lt (by omega)

end Loop

/-- Settles O37: each step from the handler leads to the handler and reports the fault, so after the first step any number does. -/
theorem userPageHandlerLoops : Obligations.UserPageHandlerLoops := by
  unfold Obligations.UserPageHandlerLoops
  intro s l hp hsie hv hc hw hpc hl hu n
  have hstart : AtHandler s s := ⟨rfl, rfl, rfl, rfl, rfl, hp, hsie, hpc⟩
  have hstep : ∀ t, AtHandler s t → ∃ u, step t = .next u ∧ AtHandler s u ∧ ReportsHandlerFault s u := fun _ =>
    atHandler_step hp hv hl hu hc hw
  have hrun : ∃ t, Sys2Proof.core.run n s = .next t ∧ AtHandler s t ∧ (n ≠ 0 → ReportsHandlerFault s t) := by
    cases n with
    | zero => exact ⟨s, rfl, hstart, fun h => absurd rfl h⟩
    | succ n =>
      obtain ⟨t, hfirst, ht⟩ := hstep s hstart
      obtain ⟨u, hrest, hat, hreport⟩ := run_of_step_keeps (fun t ht => hstep t ht.1) n ht
      exact ⟨u, (run_succ hfirst n).trans hrest, hat, fun _ => hreport⟩
  obtain ⟨t, hreached, ht, hreport⟩ := hrun
  exact ⟨t, hreached, ht.pc, ht.priv, Fields.readReg_congr ht.regs, Fields.byteAt_congr ht.mem, hreport⟩

end Sys2Proof.Proofs
end

section
/-! SUPPORT. Which instructions write memory, and why a step stops. -/

namespace Sys2Proof.Proofs

open Sys2Proof.Machine Sys2Proof.Laws

/-- Settles O53: of the shapes of an instruction's next state only the completed store writes memory. -/
theorem onlySwWritesMemory : Obligations.OnlySwWritesMemory := by
  unfold Obligations.OnlySwWritesMemory
  intro i s t he hsw
  cases exec_shape he with
  | trap e tval raises can ht entry => exact ht.mem
  | finish rd v e => exact fun a => by simp [e]
  | csr rd c w parts mode e => exact fun a => by simp [e]
  | store rs2 rs1 imm pa v sw e => exact absurd sw (hsw rs2 rs1 imm)
  | move v e aligned => exact fun a => by simp [e]
  | wait e => exact fun a => by simp [e]
  | ret sret mode e => exact fun a => by simp [e]

/-! ## Stops -/

/-- An outcome that is no fault, and a refusal only for a reason of the rules. -/
def StopsAsRuled (s : State) (o : Host.Outcome State Fault Refusal) : Prop :=
  (∀ f, o ≠ .fault f) ∧ ∀ r, o = .refused r → s.RefusalReason r

section Stops

variable {s s' : State} (hm : s.stvec.toNat % 4 < 2)

theorem stopsAsRuled_next (s t : State) : StopsAsRuled s (.next t) := ⟨nofun, nofun⟩

theorem stopsAsRuled_refused {r : Refusal} (h : s.RefusalReason r) : StopsAsRuled s (.refused r) :=
  ⟨nofun, fun _ e => by cases e; exact h⟩

include hm

/-- The trap of the cause that occurs stops only where its target is M-mode. -/
theorem stopsAsRuled_takeTrap {c : Cause} (hc : s.Occurs c) (tval : Word) (hs : s' = s ∨ s' = s.draw) :
    StopsAsRuled s (takeTrap c tval s') := by
  obtain ⟨hfault, hrefused⟩ := trap_stops (c := c) (tval := tval) hs
  refine ⟨fun f h => absurd (hfault f h) (by omega), fun r h => ?_⟩
  obtain ⟨rfl, htarget⟩ := hrefused r h
  exact ⟨c, hc, htarget⟩

theorem stopsAsRuled_exec {i : Instr} (hr : s.Runs i) : StopsAsRuled s (exec i s) := by
  have h := exec_stops i s
  generalize exec i s = o at h ⊢
  cases h with
  | next t => exact stopsAsRuled_next s t
  | fault f h => omega
  | toM e raises h => exact stopsAsRuled_refused ⟨.exc e, .instr i e hr raises, h⟩
  | listed rd a writes parts none listed h => exact stopsAsRuled_refused ⟨none, listed, i, rd, writes, hr, parts, h⟩
  | wider rd c writes parts mode h => exact stopsAsRuled_refused ⟨mode, h, i, rd, c, writes, hr, parts⟩
  | mret mret h => exact stopsAsRuled_refused ⟨h, mret ▸ hr⟩
  | split rd rs1 imm access policy h =>
    refine stopsAsRuled_refused ⟨policy, rd, rs1, imm, h, ?_⟩
    rcases access with rfl | rfl
    · exact .inl hr
    · exact .inr hr

theorem stopsAsRuled_runWord {w : InstrWord} (hi : s.irqTaken = none) (hf : s.fetchWord = .ok w) :
    StopsAsRuled s (runWord w s) := by
  unfold runWord
  cases hd : decodeWord w with
  | ok i => exact stopsAsRuled_exec hm ⟨hi, w, hf, hd⟩
  | error e =>
    cases e with
    | illegal => exact stopsAsRuled_takeTrap hm (.word w hi hf hd) _ (.inr rfl)
    | baseISA => exact stopsAsRuled_refused ⟨hi, hf, hd⟩

theorem stopsAsRuled_stepBoundary : StopsAsRuled s (stepBoundary s) := by
  unfold stepBoundary
  cases hi : s.irqTaken with
  | some k => exact stopsAsRuled_takeTrap hm (.irq k hi) _ (.inl rfl)
  | none =>
    cases hf : s.fetchWord with
    | ok w => exact stopsAsRuled_runWord hm hi hf
    | raise e tval => exact stopsAsRuled_takeTrap hm (.fetch e tval hi hf) _ (.inl rfl)
    | refuse r => exact absurd hf fetchWord_not_refused

end Stops

/-- A legal `stvec` has a MODE that is not reserved (R32, R33). -/
theorem stvec_mod_four_of_inv {s : State} (h : s.Inv) : s.stvec.toNat % 4 < 2 := by
  obtain ⟨-, hmode, -⟩ := (stvecLegal_iff _ _).1 h.stvec_legal
  rw [← stvecMode_toNat]
  rcases modeSupported_cases hmode with h0 | h1
  · simp [h0]
  · simp [h1]

/-- Settles O54: the invariant gives a MODE that is not reserved, and then every part of the step stops as ruled. -/
theorem stopsOnlyWhereTheSpecRefuses : Obligations.StopsOnlyWhereTheSpecRefuses := by
  unfold Obligations.StopsOnlyWhereTheSpecRefuses
  intro s h
  have hm := stvec_mod_four_of_inv h
  rw [step_eq_stepBoundary hm]
  exact stopsAsRuled_stepBoundary (by rwa [Fields.oracleMove_stvec])

end Sys2Proof.Proofs
end

section
/-! SUPPORT. What keeps MXR, SUM, `stvec`, `satp`, `sie` and `sscratch`: every operation of the machine but a write of that register. -/

namespace Sys2Proof.Proofs

open Sys2Proof.Machine Sys2Proof.Laws

section ControlKept

variable {s t u : State} {p q : CsrAddr → Prop}

theorem controlKept_trans (hst : ControlKept s t p) (htu : ControlKept t u p) : ControlKept s u p := by
  obtain ⟨hstatus, hstvec, hsatp, hsie, hsscratch⟩ := hst
  obtain ⟨hstatus', hstvec', hsatp', hsie', hsscratch'⟩ := htu
  refine ⟨fun h => ?_, fun h => (hstvec' h).trans (hstvec h), fun h => (hsatp' h).trans (hsatp h),
    fun h => (hsie' h).trans (hsie h), fun h => (hsscratch' h).trans (hsscratch h)⟩
  obtain ⟨hmxr, hsum⟩ := hstatus h
  obtain ⟨hmxr', hsum'⟩ := hstatus' h
  exact ⟨hmxr'.trans hmxr, hsum'.trans hsum⟩

/-- Naming more written addresses claims less. -/
theorem controlKept_mono (hpq : ∀ a, p a → q a) (h : ControlKept s t p) : ControlKept s t q := by
  obtain ⟨hstatus, hstvec, hsatp, hsie, hsscratch⟩ := h
  exact ⟨fun hq => hstatus (mt (hpq _) hq), fun hq => hstvec (mt (hpq _) hq), fun hq => hsatp (mt (hpq _) hq),
    fun hq => hsie (mt (hpq _) hq), fun hq => hsscratch (mt (hpq _) hq)⟩

theorem controlKept_of_csrsKept (h : CsrsKept s t) : ControlKept s t p :=
  ⟨fun _ => by rw [h.sstatus]; exact ⟨rfl, rfl⟩, fun _ => h.stvec, fun _ => h.satp, fun _ => h.sie, fun _ => h.sscratch⟩

/-- A trap changes only SPP, SPIE and SIE of `sstatus`, and of the other registers only those that describe it (R170, R206). -/
theorem controlKept_of_trapped {code tval : Nat} {isIrq : Bool} (h : Trapped s t code isIrq tval) : ControlKept s t p :=
  ⟨fun _ => by rw [h.sstatus]; exact ⟨rfl, rfl⟩, fun _ => h.stvec, fun _ => h.satp, fun _ => h.sie, fun _ => h.sscratch⟩

/-- A return changes only SPP, SPIE and SIE of `sstatus` (R122). -/
theorem leaveTrap_controlKept (s : State) : ControlKept s s.leaveTrap p :=
  ⟨fun _ => ⟨rfl, rfl⟩, fun _ => rfl, fun _ => rfl, fun _ => rfl, fun _ => rfl⟩

/-- The oracle's move changes no control register but `sip`. -/
theorem oracleMove_controlKept (s : State) : ControlKept s s.oracleMove p := by
  rw [oracleMove_kept]
  exact ⟨fun _ => ⟨rfl, rfl⟩, fun _ => rfl, fun _ => rfl, fun _ => rfl, fun _ => rfl⟩

/-- A write of a CSR changes no other one. -/
theorem writeCsr_controlKept (s : State) (c : Csr) (w : Word) : ControlKept s (s.writeCsr c w) (· = csrAddress c) := by
  refine ⟨fun h => ?_, fun h => ?_, fun h => ?_, fun h => ?_, fun h => ?_⟩
  · cases c with
    | sstatus => exact absurd rfl h
    | _ => exact ⟨rfl, rfl⟩
  · cases c with
    | stvec => exact absurd rfl h
    | _ => rfl
  · cases c with
    | satp => exact absurd rfl h
    | _ => rfl
  · cases c with
    | sie => exact absurd rfl h
    | _ => rfl
  · cases c with
    | sscratch => exact absurd rfl h
    | _ => rfl

end ControlKept

/-- Of the shapes of an instruction's next state only a CSR access that writes changes a control register. -/
theorem exec_controlKept {i : Instr} {s t : State} (h : exec i s = .next t) :
    ControlKept s t fun a => ∃ rd, csrParts i = some (rd, a, true) := by
  cases exec_shape h with
  | trap e tval raises can ht entry => exact controlKept_of_trapped ht
  | finish rd v e =>
    obtain ⟨hcsrs, -⟩ := finish_only s rd v
    exact e ▸ controlKept_of_csrsKept hcsrs
  | csr rd c w parts mode e =>
    obtain ⟨hcsrs, -⟩ := finish_only (s.writeCsr c w) rd (s.readCsr c)
    subst e
    refine controlKept_trans (controlKept_mono (fun a ha => ?_) (writeCsr_controlKept s c w)) (controlKept_of_csrsKept hcsrs)
    exact ⟨rd, ha ▸ parts⟩
  | store rs2 rs1 imm pa v sw e => exact e ▸ controlKept_of_csrsKept (store_csrsKept s pa v)
  | move v e aligned =>
    obtain ⟨-, hcsrs, -⟩ := jump_only s v
    exact e ▸ controlKept_of_csrsKept hcsrs
  | wait e => exact e ▸ controlKept_of_csrsKept ⟨rfl, rfl, rfl, rfl, rfl, rfl, rfl, rfl, rfl⟩
  | ret sret mode e => exact e ▸ leaveTrap_controlKept s

/-- A step makes the oracle's move, and then traps or runs an instruction. -/
theorem step_controlKept {s t : State} (h : step s = .next t) :
    ControlKept s t fun a => ∃ i rd, s.oracleMove.Runs i ∧ csrParts i = some (rd, a, true) := by
  refine controlKept_trans (oracleMove_controlKept s) ?_
  obtain ⟨-, ⟨k, v, -, can, rfl, hv⟩ | ⟨-, e, tval, -, hx⟩ | ⟨i, hruns, hi⟩ | ⟨-, w, -, -, hw⟩⟩ := step_cases h
  · exact controlKept_of_trapped (enterTrap_trapped (c := .irq k) (trapTarget_toS can.2) (by rwa [Fields.oracleMove_sxlen]))
  · obtain ⟨-, ht, -⟩ := raiseExc_next hx
    exact controlKept_of_trapped ht
  · exact controlKept_mono (fun a ⟨rd, hparts⟩ => ⟨i, rd, hruns, hparts⟩) (exec_controlKept hi)
  · obtain ⟨-, tval, ht⟩ := raiseIllegal_next hw
    exact controlKept_of_trapped ht

/-- Settles O52, of every instruction and of every step. -/
theorem onlyCsrWritesChangeControl : Obligations.OnlyCsrWritesChangeControl := by
  unfold Obligations.OnlyCsrWritesChangeControl
  exact fun s t => ⟨fun i => exec_controlKept, step_controlKept⟩

end Sys2Proof.Proofs
end
